-- ==== Sys2Proof/Word.lean ====
section
/-! DEFINITION. The word types of the block (00_scope.md R9): all values are unsigned, bit 0 is the least significant. -/

namespace Sys2Proof

/-- `u8`: one byte on the bus, in a packet or in the image. -/
abbrev Byte := BitVec 8

/-- `u4`: a strobe code, a command-port number. -/
abbrev Nibble := BitVec 4

/-- `u6`: a chip register address, 0x00 to 0x3F (R61). -/
abbrev Addr := BitVec 6

/-- `u16`: the offset and flags fields of a data reply. -/
abbrev Half := BitVec 16

/-- `u32`: an identity, an image identifier, a packet field. -/
abbrev Word := BitVec 32

end Sys2Proof
end

