-- ==== Sys2Proof/Machine/Bytes.lean ====
section
/-! DEFINITION. Bit and byte orders (R9, R65, R102, R144). -/

namespace Sys2Proof

/-- The bits of a byte in the order they appear on the wire, bit 7 first (R144). -/
def byteBits (v : Byte) : List Bool :=
  [v.getLsbD 7, v.getLsbD 6, v.getLsbD 5, v.getLsbD 4, v.getLsbD 3, v.getLsbD 2, v.getLsbD 1, v.getLsbD 0]

/-- The byte whose bits arrived in this order, the first one bit 7 (R144). -/
def bitsByte (l : List Bool) : Byte := l.foldl (fun v b => v.shiftConcat b) 0#8

/-- `be32` on four bytes, the first most significant (R9). -/
def be32 (q0 q1 q2 q3 : Byte) : Word := q0 ++ q1 ++ q2 ++ q3

/-- `le32` on four bytes, the first least significant (R9). -/
def le32 (q0 q1 q2 q3 : Byte) : Word := q3 ++ q2 ++ q1 ++ q0

/-- `le16` on two bytes, the first least significant (R9). -/
def le16 (q0 q1 : Byte) : Half := q1 ++ q0

/-- `be32` of the first four bytes of a list (R166); a list RREG returned for `A_ID` has exactly four. -/
def be32List (q : List Byte) : Word := be32 (q.getD 0 0) (q.getD 1 0) (q.getD 2 0) (q.getD 3 0)

/-- `le32(l[k : k+4])` (R204). -/
def le32At (l : List Byte) (k : Nat) : Word := le32 (l.getD k 0) (l.getD (k + 1) 0) (l.getD (k + 2) 0) (l.getD (k + 3) 0)

/-- `to_be32` (R9, R102). -/
def toBe32 (x : Word) : List Byte := [x.extractLsb' 24 8, x.extractLsb' 16 8, x.extractLsb' 8 8, x.extractLsb' 0 8]

/-- `to_le32` (R9). -/
def toLe32 (x : Word) : List Byte := [x.extractLsb' 0 8, x.extractLsb' 8 8, x.extractLsb' 16 8, x.extractLsb' 24 8]

/-- `to_le16` (R9). -/
def toLe16 (x : Half) : List Byte := [x.extractLsb' 0 8, x.extractLsb' 8 8]

/-- First byte of a write frame, `0b00 ++ a` (R102). -/
def writeByte (a : Addr) : Byte := 0#2 ++ a

/-- First byte of a read frame, `zext_8(a) | 0x40` (R102). -/
def readByte (a : Addr) : Byte := a.zeroExtend 8 ||| 0x40#8

/-- The byte of a strobe, `c ++ 0b0000` (R102). -/
def strobeByte (c : Nibble) : Byte := c ++ 0#4

/-- The strobe code of a byte, bits 7 to 4 (R101). -/
def codeOf (b : Byte) : Nibble := b.extractLsb' 4 4

/-- Bits 3 to 0 of a byte. -/
def lowNibble (b : Byte) : Nibble := b.extractLsb' 0 4

/-- Bits 7 and 6 of a first byte: 00 a write, 01 a read (R101). -/
def kindOf (b : Byte) : BitVec 2 := b.extractLsb' 6 2

/-- The register address of a first byte, bits 5 to 0 (R101). -/
def addrOf (b : Byte) : Addr := b.extractLsb' 0 6

/-- The `n` low bytes of a number, least significant first. -/
def numberBytes : Nat → Nat → List Byte
  | 0, _ => []
  | n + 1, w => BitVec.ofNat 8 w :: numberBytes n (w / 256)

end Sys2Proof
end

