-- ==== Sys2Proof/Config.lean ====
section
/-! DEFINITION. What an implementation fixes: the constants of R7, the parameters P1 to P23 of R8 (with `SHIFT_KIND` of R241), and the
free values, which nothing constrains (entries 1 and 2 of the assumption log). -/

namespace Sys2Proof

/-- P23: numbering of the bitmap bits inside each byte (R66). -/
inductive BitmapOrder
  | lsbFirst
  | msbFirst
deriving DecidableEq, Repr, Inhabited

/-- The kind of shift the identifier screen uses (R241, D32). -/
inductive ShiftKind
  | zeroFill
  | rotate
deriving DecidableEq, Repr, Inhabited

/-- The parameters of R8, in the order of its table. No value of any of them is in the spec, so none is fixed here. -/
structure Config where
  /-- P1: address of the mode/status register. -/
  aMode : Addr
  /-- P2: mask of the CRC-error bit in the byte read from `A_MODE`. -/
  mCrcf : Byte
  /-- P3: mask of the FEC-error bit in the byte read from `A_MODE`. -/
  mFecf : Byte
  /-- P4: address of the FIFO register. -/
  aFifo : Addr
  /-- P5: address of the 4-byte identifier register. -/
  aId : Addr
  /-- P6: address of the channel register. -/
  aChannel : Addr
  /-- P7: address of the packet-length register. -/
  aPktlen : Addr
  /-- P8: the register program of INIT. -/
  initSeq : List (Addr × List Byte)
  /-- P9: the writes that clear the manual-calibration overrides. -/
  calClearSeq : List (Addr × List Byte)
  /-- P10: calibration-control register. -/
  aCalctl : Addr
  /-- P10: the value that enables the IF-filter auto-calibration. -/
  vCalctl : Byte
  /-- P11: filter-bank calibration status register. -/
  aCalIf : Addr
  /-- P11: its "in progress/failed" bits. -/
  mCalIf : Byte
  /-- P12: VCO-current calibration status register. -/
  aCalVcoc : Addr
  /-- P12: its "in progress/failed" bits. -/
  mCalVcoc : Byte
  /-- P13: VCO-bank calibration status register. -/
  aCalVcob : Addr
  /-- P13: its "in progress/failed" bits. -/
  mCalVcob : Byte
  /-- P14: strobe code "enter PLL mode". -/
  cPll : Nibble
  /-- P14: strobe code "enter RX". -/
  cRx : Nibble
  /-- P14: strobe code "enter TX". -/
  cTx : Nibble
  /-- P14: strobe code "reset FIFO write pointer". -/
  cWrst : Nibble
  /-- P14: strobe code "reset FIFO read pointer". -/
  cRrst : Nibble
  /-- P15: lower bound a build keeps for the settle time; no rule of the model compares it (R303). -/
  tSettle : Nat
  /-- P16: the gateway address. -/
  gatewayId : Word
  /-- P17: the channel written at boot. -/
  channelCfg : Byte
  /-- P18: the packet length written at boot; a legal one is in 1..64. -/
  pktlenCfg : Int
  /-- P19: the electrical level of the ready/busy line that means "asserted". -/
  busyLevel : Bool
  /-- P20: high bits of a drawn identifier. -/
  idPrefix : Nibble
  /-- P20: threshold `T` of the identifier screen (`T_DEFAULT` is 17). -/
  threshold : Nat
  /-- P22: `none` is unbounded, the value the spec gives; `some n` is a finite build, which must refuse (U8). -/
  sessionCapacity : Option Nat
  /-- P23. -/
  bitmapOrder : BitmapOrder
  /-- `SHIFT_KIND` of R241. -/
  shiftKind : ShiftKind
deriving DecidableEq, Repr, Inhabited

namespace Config

/-- The configuration of the machine at hand: nothing is known of it (entry 1). -/
opaque installed : Config

/-- Free value: level of SDI at a sample nothing fixes (R71, U1; entry 2). -/
opaque freeSdi : Nat → Bool

/-- Free value: level of SDO while the block receives and between frames (R23, U2; entry 2). -/
opaque freeSdo : Nat → Bool

/-- Free value: electrical level of BUSY at a sample nothing fixes (R71; entry 2). -/
opaque freeBusy : Nat → Bool

/-- Free value: whether the settle time has passed when the block is next scheduled (R163; entry 5). -/
opaque freeSettle : Nat → Bool

/-- Free value: `now()` (P21, U7; entry 2). -/
opaque freeTime : Nat → Nat

/-- Free value: the 28 random bits of a candidate identifier (R245; entry 2). -/
opaque freeRandom : Nat → BitVec 28

/-- Free value: a choice of the chip between two behaviours no rule decides (entry 2). -/
opaque freeChoice : Nat → Bool

/-- Free value: how many turns of the chip something takes, a finite number (R75; entry 2). -/
opaque freeCount : Nat → Nat

/-- Free value: a byte of the chip that no frame and no premise fixes (R74, U11; entry 2). -/
opaque freeByte : Nat → Byte

/-- Free value: an identity of the chip that no frame fixes (R298, U5; entry 2). -/
opaque freeIdent : Nat → Word

/-- The five strobe codes of P14. -/
def codes (c : Config) : List Nibble := [c.cPll, c.cRx, c.cTx, c.cWrst, c.cRrst]

/-- The constraint of P14 (D5): the five codes are pairwise distinct and bit 3 of each is set. -/
def codesLegal (c : Config) : Bool := decide c.codes.Nodup && c.codes.all (fun k => k.getLsbD 3)

end Config

/-! The constants of R7. -/

/-- Bytes per chunk. -/
abbrev chunk : Nat := 32
/-- Bytes in an image. -/
abbrev imageLen : Nat := 4000
/-- Meaningful flags of the missing bitmap. -/
abbrev missingFlags : Nat := 126
/-- Bytes of bitmap on the wire. -/
abbrev bitmapBytes : Nat := 16
/-- Bytes of hello header. -/
abbrev helloHdr : Nat := 24
/-- Bytes of a hello. -/
abbrev helloLen : Nat := 40
/-- Bytes of a data reply. -/
abbrev replyLen : Nat := 40
/-- Least legal packet length. -/
abbrev pktMin : Int := 1
/-- Greatest legal packet length. -/
abbrev pktMax : Int := 64
/-- What the FIFO holds at least (R62); no rule says more of its capacity (entry 31). -/
abbrev fifoSize : Nat := 64
/-- Default threshold of the identifier screen. -/
abbrev tDefault : Nat := 17

end Sys2Proof
end

