-- ==== Sys2Proof/Syntax.lean ====
section
/-! DEFINITION. The operations of R100 and of spec/opcode_table.json, one constructor a row, and the form in which one stands at the
block before it is decoded. -/

namespace Sys2Proof

/-- The fields of a hello packet (R111), the bitmap as its 16 wire bytes, so that no bit is lost. -/
structure HelloPacket where
  tagType : Word
  clientId : Word
  gitHash : Word
  installDate : Word
  reserved : Word
  reportedImageId : Word
  bitmap : List Byte
deriving DecidableEq, Repr

/-- The fields of a data reply packet (R112). -/
structure ReplyPacket where
  imageId : Word
  offset : Half
  flags : Half
  payload : List Byte
deriving DecidableEq, Repr

/-- One constructor per row of spec/opcode_table.json. -/
inductive Instr
  /-- `WREG a, l` (R145), a format-W bus frame. -/
  | wreg (a : Addr) (l : List Byte)
  /-- `RREG a, n` (R146), a format-R bus frame. -/
  | rreg (a : Addr) (n : Nat)
  /-- `STROBE c` (R147), a format-S bus frame. -/
  | strobe (c : Nibble)
  /-- `STROBE.PLL` (R149). -/
  | strobePll
  /-- `STROBE.RX` (R150). -/
  | strobeRx
  /-- `STROBE.TX` (R151). -/
  | strobeTx
  /-- `STROBE.WRST` (R152). -/
  | strobeWrst
  /-- `STROBE.RRST` (R153). -/
  | strobeRrst
  /-- `INIT` (R160). -/
  | init
  /-- `SETCH ch` (R165). -/
  | setch (ch : Byte)
  /-- `SETID id` (R166). -/
  | setid (id : Word)
  /-- `SETLEN n` (R167); the operand is an integer, legal or not. -/
  | setlen (n : Int)
  /-- `TX l` (R180). -/
  | tx (l : List Byte)
  /-- `RX` (R183). -/
  | rx
  /-- `OP.WREG`: the primitive on the command port (R122). -/
  | opWreg (a : Addr) (l : List Byte)
  /-- `OP.RREG`: the primitive on the command port (R122). -/
  | opRreg (a : Addr) (n : Nat)
  /-- `OP.STROBE`: the primitive on the command port (R122). -/
  | opStrobe (c : Nibble)
  /-- `OP.RESERVED`: command-port values 9 to 15 (R122). -/
  | opReserved (op : Nibble)
  /-- `BOOT` (R285). -/
  | boot
  /-- `S1` (R201). -/
  | s1
  /-- `S2` (R202). -/
  | s2
  /-- `S3` (R203). -/
  | s3
  /-- `S4` (R207). -/
  | s4
  /-- `S5` (R208). -/
  | s5
  /-- `S6` (R210). -/
  | s6
  /-- `S7` (R211). -/
  | s7
  /-- `S8` (R213). -/
  | s8
  /-- `PUBLISH b, id` (R230). -/
  | publish (b : List Byte) (id : Word)
  /-- `IDSCREEN x` (R243), threshold P20. -/
  | idscreen (x : Word)
  /-- `IDSELECT` (R245), prefix and threshold P20. -/
  | idselect
  /-- `PKT.HELLO`: a received hello packet (R111; entry 15). -/
  | pktHello (p : HelloPacket)
  /-- `PKT.DATAREPLY`: a sent data reply packet (R112; entry 15). -/
  | pktDatareply (p : ReplyPacket)
deriving DecidableEq, Repr

/-- Where a word stands. The formats of the table overlap as bare numbers (a write of register 3, command 3 and step S3 all begin
0x03); the block tells them apart by where they are presented (entry 10). -/
inductive Port
  /-- A bus frame of format W, R or S (R101). -/
  | bus
  /-- One of the five strobe instances, a format-S frame whose code is a parameter (R149 to R153). -/
  | strobe
  /-- The notional command port `OP[3:0]` (R122). -/
  | command
  /-- The loop phase `SPC` (R122). -/
  | phase
  /-- The image feed (R230); no bit encoding in the table. -/
  | feed
  /-- The identifier screen (R243); no bit encoding in the table. -/
  | screen
  /-- The identifier selector (R245); no bit encoding in the table. -/
  | select
  /-- A packet taken from the FIFO (R111). -/
  | hello
  /-- A packet handed to the FIFO (R112). -/
  | reply
deriving DecidableEq, Repr

/-- A word before decoding: the bytes sent, and how many bytes are to be received after them (the `n_in` of R141). -/
structure Request where
  port : Port
  out : List Byte
  nIn : Nat
deriving DecidableEq, Repr

/-- Why a word is no instruction. -/
inductive Reject
  /-- A frame has at least its first byte (R101). -/
  | emptyFrame
  /-- A lone byte with a nonzero low nibble: "it never produces" one (R104). -/
  | reservedFirstByte
  /-- Data bytes sent after a first byte that is not `00aaaaaa` (R101). -/
  | notAWrite
  /-- Bytes received after a first byte that is not `01aaaaaa` (R101). -/
  | notARead
  /-- A frame that both sends data bytes and receives: no format of R101. -/
  | mixedFrame
  /-- Not the byte of one of the five strobe codes of P14 (R104). -/
  | unknownStrobe
  /-- The command port takes a 4-bit number (R122). -/
  | badCommand
  /-- The operands do not have the command's form (entry 10). -/
  | badOperands
  /-- Not a value of `SPC`, 0 to 8 (R40). -/
  | badPhase
  /-- Not a 4000-byte image with its identifier (R230). -/
  | badImage
  /-- Not the 4 bytes of one identifier (R243), or an operand where there is none (R245). -/
  | badIdentifier
  /-- Not 40 bytes (R111). -/
  | badHello
  /-- Not a data reply the block can send (R112, R113). -/
  | badReply
deriving DecidableEq, Repr

end Sys2Proof
end

