-- ==== Sys2Proof/WellFormed.lean ====
section
/-! DEFINITION. Which terms are legal instructions: the operand constraints of the spec, and of the encodings this model gives where the
table gives none (entry 10). -/

namespace Sys2Proof

/-- A data reply the block can produce (R112, R113, R114): 32 payload bytes, an offset that is a multiple of 32 and at most 4000, flags 0
or 1. -/
def ReplyPacket.wellFormed (p : ReplyPacket) : Bool :=
  decide (p.payload.length = chunk) && decide (p.offset.toNat % chunk = 0) && decide (p.offset.toNat ≤ imageLen)
    && decide (p.flags.toNat ≤ 1)

/-- A hello has 16 bitmap bytes (R111). -/
def HelloPacket.wellFormed (p : HelloPacket) : Bool := decide (p.bitmap.length = bitmapBytes)

/-- The operand constraints: R145 (non-empty data), R146 (`n >= 1`), P14 (strobe instances), R122 (9 to 15), R230 (4000 bytes), R111,
R112. The range of SETLEN's operand is that of its encoding on the command port (entry 26), not a range of the operation. -/
def Instr.wellFormed (c : Config) : Instr → Bool
  | .wreg _ l => !l.isEmpty
  | .rreg _ n => decide (1 ≤ n)
  | .strobe _ => true
  | .strobePll => c.codesLegal
  | .strobeRx => c.codesLegal
  | .strobeTx => c.codesLegal
  | .strobeWrst => c.codesLegal
  | .strobeRrst => c.codesLegal
  | .init => true
  | .setch _ => true
  | .setid _ => true
  | .setlen n => decide (-2147483648 ≤ n) && decide (n < 2147483648)
  | .tx _ => true
  | .rx => true
  | .opWreg _ l => !l.isEmpty
  | .opRreg _ n => decide (1 ≤ n)
  | .opStrobe _ => true
  | .opReserved op => decide (9 ≤ op.toNat)
  | .boot => true
  | .s1 => true
  | .s2 => true
  | .s3 => true
  | .s4 => true
  | .s5 => true
  | .s6 => true
  | .s7 => true
  | .s8 => true
  | .publish b _ => decide (b.length = imageLen)
  | .idscreen _ => true
  | .idselect => true
  | .pktHello p => p.wellFormed
  | .pktDatareply p => p.wellFormed

end Sys2Proof
end

