-- ==== Sys2Proof/Decode.lean ====
section
/-! DEFINITION. From a word to an instruction or a named rejection (R101, R102, R111, R112, R122), and back. Entries 10 to 13 of the
assumption log say what the table leaves open. -/

namespace Sys2Proof

/-- A bus frame (R101). A lone byte with low nibble 0 is format S; data bytes need a first byte `00aaaaaa` (format W); received bytes need
a lone `01aaaaaa` (format R). Bit 7 of a lone byte is not required to be set (entry 12). -/
def decodeBus (out : List Byte) (nIn : Nat) : Except Reject Instr :=
  match out with
  | [] => .error .emptyFrame
  | b :: data =>
    match nIn, data with
    | 0, [] => if lowNibble b = 0#4 then .ok (.strobe (codeOf b)) else .error .reservedFirstByte
    | 0, _ :: _ => if kindOf b = 0#2 then .ok (.wreg (addrOf b) data) else .error .notAWrite
    | _ + 1, [] => if kindOf b = 1#2 then .ok (.rreg (addrOf b) nIn) else .error .notARead
    | _ + 1, _ :: _ => .error .mixedFrame

/-- A strobe instance: the byte of one of the five codes of a legal P14 (R149 to R153). -/
def decodeStrobe (c : Config) (out : List Byte) (nIn : Nat) : Except Reject Instr :=
  match out, nIn with
  | [b], 0 =>
    if !c.codesLegal then .error .unknownStrobe
    else if b = strobeByte c.cPll then .ok .strobePll
    else if b = strobeByte c.cRx then .ok .strobeRx
    else if b = strobeByte c.cTx then .ok .strobeTx
    else if b = strobeByte c.cWrst then .ok .strobeWrst
    else if b = strobeByte c.cRrst then .ok .strobeRrst
    else .error .unknownStrobe
  | _, _ => .error .unknownStrobe

/-- The operands of command `op` (R122, entry 10): address byte and data; address byte; code; channel; identity most significant byte
first; length as 32 bits, two's complement, most significant byte first; payload; nothing. -/
def decodeOperands (op : Nibble) (args : List Byte) (nIn : Nat) : Except Reject Instr :=
  match op.toNat, args, nIn with
  | 0, a :: d :: ds, 0 => if kindOf a = 0#2 then .ok (.opWreg (addrOf a) (d :: ds)) else .error .badOperands
  | 1, [a], n + 1 => if kindOf a = 0#2 then .ok (.opRreg (addrOf a) (n + 1)) else .error .badOperands
  | 2, [k], 0 => if codeOf k = 0#4 then .ok (.opStrobe (lowNibble k)) else .error .badOperands
  | 3, [], 0 => .ok .init
  | 4, [ch], 0 => .ok (.setch ch)
  | 5, [q0, q1, q2, q3], 0 => .ok (.setid (be32 q0 q1 q2 q3))
  | 6, [q0, q1, q2, q3], 0 => .ok (.setlen (be32 q0 q1 q2 q3).toInt)
  | 7, l, 0 => .ok (.tx l)
  | 8, [], 0 => .ok .rx
  | n, [], 0 => if 9 ≤ n then .ok (.opReserved op) else .error .badOperands
  | _, _, _ => .error .badOperands

/-- The notional 4-bit command port (R122). -/
def decodeCommand (out : List Byte) (nIn : Nat) : Except Reject Instr :=
  match out with
  | [] => .error .badCommand
  | b :: args => if codeOf b = 0#4 then decodeOperands (lowNibble b) args nIn else .error .badCommand

/-- The loop phase: 0 is BOOT, `k` is `Sk` (R40, R122). -/
def decodePhase (out : List Byte) (nIn : Nat) : Except Reject Instr :=
  match out, nIn with
  | [b], 0 =>
    match b.toNat with
    | 0 => .ok .boot
    | 1 => .ok .s1
    | 2 => .ok .s2
    | 3 => .ok .s3
    | 4 => .ok .s4
    | 5 => .ok .s5
    | 6 => .ok .s6
    | 7 => .ok .s7
    | 8 => .ok .s8
    | _ => .error .badPhase
  | _, _ => .error .badPhase

/-- The image feed: the identifier, most significant byte first, then 4000 image bytes (R230, entry 10). -/
def decodeFeed (out : List Byte) (nIn : Nat) : Except Reject Instr :=
  match out, nIn with
  | q0 :: q1 :: q2 :: q3 :: b, 0 => if b.length = imageLen then .ok (.publish b (be32 q0 q1 q2 q3)) else .error .badImage
  | _, _ => .error .badImage

/-- The identifier screen: one identifier, most significant byte first (R243, entry 10). -/
def decodeScreen (out : List Byte) (nIn : Nat) : Except Reject Instr :=
  match out, nIn with
  | [q0, q1, q2, q3], 0 => .ok (.idscreen (be32 q0 q1 q2 q3))
  | _, _ => .error .badIdentifier

/-- The identifier selector: no operand (R245). -/
def decodeSelect (out : List Byte) (nIn : Nat) : Except Reject Instr :=
  match out, nIn with
  | [], 0 => .ok .idselect
  | _, _ => .error .badIdentifier

/-- The fields of a hello at their packet offsets, little-endian (R111). -/
def helloFields (p : List Byte) : HelloPacket where
  tagType := le32At p 0
  clientId := le32At p 4
  gitHash := le32At p 8
  installDate := le32At p 12
  reserved := le32At p 16
  reportedImageId := le32At p 20
  bitmap := p.drop helloHdr

/-- The fields of a data reply at their packet offsets, little-endian (R112). -/
def replyFields (p : List Byte) : ReplyPacket where
  imageId := le32At p 0
  offset := le16 (p.getD 4 0) (p.getD 5 0)
  flags := le16 (p.getD 6 0) (p.getD 7 0)
  payload := p.drop 8

/-- A received packet: exactly 40 bytes (R111). -/
def decodeHelloPacket (out : List Byte) (nIn : Nat) : Except Reject Instr :=
  if nIn = 0 ∧ out.length = helloLen then .ok (.pktHello (helloFields out)) else .error .badHello

/-- A sent packet: exactly 40 bytes, and within R113. -/
def decodeReplyPacket (out : List Byte) (nIn : Nat) : Except Reject Instr :=
  if nIn = 0 ∧ out.length = replyLen ∧ (replyFields out).wellFormed = true then .ok (.pktDatareply (replyFields out))
  else .error .badReply

/-- The decoder, total on any bytes at any port. -/
def decode (c : Config) (r : Request) : Except Reject Instr :=
  match r.port with
  | .bus => decodeBus r.out r.nIn
  | .strobe => decodeStrobe c r.out r.nIn
  | .command => decodeCommand r.out r.nIn
  | .phase => decodePhase r.out r.nIn
  | .feed => decodeFeed r.out r.nIn
  | .screen => decodeScreen r.out r.nIn
  | .select => decodeSelect r.out r.nIn
  | .hello => decodeHelloPacket r.out r.nIn
  | .reply => decodeReplyPacket r.out r.nIn

/-! The encoder, from the same formats. -/

/-- The 40 bytes of a hello (R111). -/
def HelloPacket.bytes (p : HelloPacket) : List Byte :=
  toLe32 p.tagType ++ toLe32 p.clientId ++ toLe32 p.gitHash ++ toLe32 p.installDate ++ toLe32 p.reserved
    ++ toLe32 p.reportedImageId ++ p.bitmap

/-- The 40 bytes of a data reply (R112). -/
def ReplyPacket.bytes (p : ReplyPacket) : List Byte :=
  toLe32 p.imageId ++ toLe16 p.offset ++ toLe16 p.flags ++ p.payload

/-- The first byte on the command port, `0000` then `OP[3:0]` (R122, entry 10). -/
def commandByte (op : Nibble) : Byte := 0#4 ++ op

/-- A word on the command port that receives nothing. -/
def command (op : Nibble) (args : List Byte) : Request := ⟨.command, commandByte op :: args, 0⟩

/-- The word of a loop phase (R122). -/
def phaseWord (k : Byte) : Request := ⟨.phase, [k], 0⟩

/-- The word of an instruction at the port it belongs to. -/
def encode (c : Config) : Instr → Request
  | .wreg a l => ⟨.bus, writeByte a :: l, 0⟩
  | .rreg a n => ⟨.bus, [readByte a], n⟩
  | .strobe k => ⟨.bus, [strobeByte k], 0⟩
  | .strobePll => ⟨.strobe, [strobeByte c.cPll], 0⟩
  | .strobeRx => ⟨.strobe, [strobeByte c.cRx], 0⟩
  | .strobeTx => ⟨.strobe, [strobeByte c.cTx], 0⟩
  | .strobeWrst => ⟨.strobe, [strobeByte c.cWrst], 0⟩
  | .strobeRrst => ⟨.strobe, [strobeByte c.cRrst], 0⟩
  | .init => command 3 []
  | .setch ch => command 4 [ch]
  | .setid id => command 5 (toBe32 id)
  | .setlen n => command 6 (toBe32 (BitVec.ofInt 32 n))
  | .tx l => command 7 l
  | .rx => command 8 []
  | .opWreg a l => command 0 (writeByte a :: l)
  | .opRreg a n => ⟨.command, [commandByte 1, writeByte a], n⟩
  | .opStrobe k => command 2 [0#4 ++ k]
  | .opReserved op => command op []
  | .boot => phaseWord 0
  | .s1 => phaseWord 1
  | .s2 => phaseWord 2
  | .s3 => phaseWord 3
  | .s4 => phaseWord 4
  | .s5 => phaseWord 5
  | .s6 => phaseWord 6
  | .s7 => phaseWord 7
  | .s8 => phaseWord 8
  | .publish b id => ⟨.feed, toBe32 id ++ b, 0⟩
  | .idscreen x => ⟨.screen, toBe32 x, 0⟩
  | .idselect => ⟨.select, [], 0⟩
  | .pktHello p => ⟨.hello, p.bytes, 0⟩
  | .pktDatareply p => ⟨.reply, p.bytes, 0⟩

/-! Words as spec/opcode_table.json numbers them. -/

/-- How many operand bytes a command takes at least (entry 10). -/
def minOperands (op : Nat) : Nat :=
  match op with
  | 0 => 2
  | 1 => 1
  | 2 => 1
  | 4 => 1
  | 5 => 4
  | 6 => 4
  | _ => 0

/-- `l` with zero bytes after it up to `n` bytes. -/
def padZeros (n : Nat) (l : List Byte) : List Byte := l ++ List.replicate (n - l.length) 0

/-- The request a word of the table stands for, its operand bytes zero and as few as the operation allows. The table gives one number to
several rows; the row with the most fixed bits is taken, and of rows with equally many the first in the table (entry 11): a number
below 16 stands on the command port, any other is the first byte of a bus frame. -/
def tableRequest (nb w : Nat) : Request :=
  match numberBytes ((nb + 7) / 8) w with
  | [] => ⟨.command, [], 0⟩
  | b :: rest =>
    if b.toNat < 16 then ⟨.command, b :: padZeros (minOperands b.toNat) rest, if b.toNat = 1 then 1 else 0⟩
    else if kindOf b = 0#2 then ⟨.bus, b :: padZeros 1 rest, 0⟩
    else if kindOf b = 1#2 then ⟨.bus, b :: rest, 1⟩
    else ⟨.bus, b :: rest, 0⟩

/-- The instruction the decoder reads from a word of the table. -/
def decodeTableWord (nbits w : Nat) : Option Instr := (decode Config.installed (tableRequest nbits w)).toOption

end Sys2Proof
end

