-- ==== Sys2Proof/Machine/State.lean ====
section
/-! DEFINITION. Every piece of state the spec gives the machine (10_state.md), as plain data; what the environment supplies; the reasons a
step can stop; the state right after reset (R55). -/

namespace Sys2Proof.Machine

/-- Bytes by address, in one canonical form: addresses strictly rising. An unlisted address holds no known byte (entry 25). -/
abbrev Memory := List Host.Cell

/-- An event on the five pins (R142 to R144, R154): an output driven, an input sampled. -/
inductive PinEvent
  | csn (b : Bool)
  | sck (b : Bool)
  | sdo (b : Bool)
  | sdi (b : Bool)
  | busy (level : Bool)
deriving DecidableEq, Repr

/-- One frame of the bus history: the bytes sent and the bytes received (R141). -/
structure FrameRecord where
  out : List Byte
  q : List Byte
deriving DecidableEq, Repr

/-- Which of the named premises on the chip are assumed (R72 to R79). All off is the unconstrained chip (R71). -/
structure Premises where
  cp1 : Bool
  cp2 : Bool
  cp3 : Bool
  cp4 : Bool
  cp5 : Bool
  cp6 : Bool
  cp7 : Bool
  cp8 : Bool
deriving DecidableEq, Repr

/-- A packet on the air toward the chip (R60 (5), R76), and how it arrives (R77). -/
structure AirPacket where
  identity : Word
  channel : Byte
  payload : List Byte
  crcBad : Bool
  fecBad : Bool
deriving DecidableEq, Repr

/-- A packet the chip sends (R75). -/
structure SentPacket where
  identity : Word
  channel : Byte
  payload : List Byte
deriving DecidableEq, Repr

/-- What the environment supplies at the next draws, and the counter that indexes the free values of Config once a list is empty (entry 2). -/
structure Env where
  premises : Premises
  /-- Levels of SDI at the next samples. -/
  sdiIn : List Bool
  /-- Electrical levels of BUSY at the next samples. -/
  busyIn : List Bool
  /-- Whether the settle time has passed, at the next looks (R163). -/
  settleIn : List Bool
  /-- Values of `now()`. -/
  nowIn : List Nat
  /-- Random candidates of IDSELECT. -/
  rndIn : List (BitVec 28)
  /-- Packets that will arrive while the chip listens. -/
  airIn : List AirPacket
  /-- Choices of the chip that no rule decides. -/
  choiceIn : List Bool
  /-- How many turns the chip takes, at the next starts. -/
  countIn : List Nat
  draws : Nat
deriving DecidableEq, Repr

/-- The chip's mode, as the strobes set it (R48). -/
inductive ChipMode
  | unknown
  | pll
  | rx
  | tx
deriving DecidableEq, Repr

/-- How far the operation of the last RX or TX strobe is, as premises CP4, CP5 and CP7 speak of it (R75, R76, R78): none they speak of; just
strobed; not begun for `n` more turns of the chip; going on, a transmission for `n` more turns; over. -/
inductive ChipOp
  | idle
  | strobed
  | pending (n : Nat)
  | running (n : Nat)
  | over
deriving DecidableEq, Repr

/-- The calibration machinery (R48, R79). -/
inductive CalState
  | idle
  | started
  | finished
deriving DecidableEq, Repr

/-- What is known of the chip from the frames it was sent (R48, R62, R70, R72 to R79). `none` is "not known"; answers depend on what is
known only under a premise (entry 21). -/
structure Chip where
  regs : Memory
  /-- The identity last written, not known after a failed SETID (R298, U5) and after a chip reset. -/
  ident : Option Word
  /-- FIFO bytes by position (R62). Of a chip that listens without CP5 they are forgotten at its next turn (U11; entry 32). -/
  fifo : Memory
  wptr : Option Nat
  rptr : Option Nat
  mode : ChipMode
  op : ChipOp
  /-- The packet on its way. -/
  sending : Option SentPacket
  sent : List SentPacket
  /-- CRC and FEC failure of the last received packet, until the mode/status register is read, or RX or TX is strobed (R77; entry 33). -/
  status : Option (Bool × Bool)
  cal : CalState
  /-- Success of each calibration, until its status register is read (R79; entry 33). -/
  calIf : Option Bool
  calVcoc : Option Bool
  calVcob : Option Bool
  /-- A strobe outside P14 was sent: every premise is refused from then on (U3). -/
  unknown : Bool
deriving DecidableEq, Repr

/-- The pins, the observable history and the environment behind the pins. -/
structure Io where
  csn : Bool
  sck : Bool
  sdo : Bool
  /-- Level of SDI at its last sample. -/
  sdi : Bool
  /-- Electrical level of BUSY at its last sample. -/
  busy : Bool
  /-- Frames, oldest first (R141, D34). -/
  history : List FrameRecord
  /-- Pin events, NEWEST first. -/
  pinTrace : List PinEvent
  env : Env
  chip : Chip
deriving DecidableEq, Repr

/-- `TSTATE` (R30). -/
inductive TState
  | uninitialized
  | calibrating
  | idle
  | transmitting
  | receiving
deriving DecidableEq, Repr

/-- `SPC` (R40). -/
inductive Spc
  | boot
  | s1
  | s2
  | s3
  | s4
  | s5
  | s6
  | s7
  | s8
deriving DecidableEq, Repr

/-- The three calibration status registers (R164). -/
inductive CalReg
  | filterBank
  | vcoCurrent
  | vcoBank
deriving DecidableEq, Repr

/-- The error causes of R250, with the value each records. `channelRange` and `startupFailure` are in the taxonomy and raised by nothing
(R252, R257). -/
inductive Err
  | idMismatch (requested echoed : Word)
  | packetLengthRange (n : Int)
  | channelRange
  | sizeError (len pktlen : Nat)
  | crc (m : Byte)
  | fec (m : Byte)
  | protocolError (len : Nat)
  | startupFailure
deriving DecidableEq, Repr

/-- The event set of R214. -/
inductive LogEvent
  | calibrationWarning (reg : CalReg) (byte : Byte)
  | newClient (clientId : Word) (time : Nat)
  | progress (clientId imageId : Word) (offset : Half)
  | complete (clientId imageId : Word)
  | error (e : Err) (time : Nat) (clientId imageId : Option Word)
deriving DecidableEq, Repr

/-- The decoded hello (R46, R111): flag `i` of `missing` is chunk `i`. -/
structure Hello where
  tagType : Word
  clientId : Word
  gitHash : Word
  installDate : Word
  reserved : Word
  reportedImageId : Word
  missing : List Bool
deriving DecidableEq, Repr

/-- A session record with its key (R43). -/
structure Session where
  clientId : Word
  lastKnownImageId : Word
  receivedCount : Word
  firstSeenAt : Nat
deriving DecidableEq, Repr

/-- An image and its identifier (R44). -/
structure Image where
  bytes : List Byte
  id : Word
deriving DecidableEq, Repr

/-- Who gets the result of a driver operation: whoever issued it directly, or the server-loop step it is part of. -/
inductive Caller
  | direct
  | loop
deriving DecidableEq, Repr

/-- The position of a blocked driver operation (R41): at the settle wait of INIT, or in the busy wait of TX or of RX, which keeps the
length read when it began. -/
inductive Hold
  | settle (c : Caller)
  | sending (c : Caller)
  | listening (len : Nat) (c : Caller)
deriving DecidableEq, Repr

/-- The result of the last directly issued operation (entry 8). -/
inductive Ret
  | none
  | ok
  | bytes (q : List Byte)
  | accepted (b : Bool)
  | ident (x : Word)
  | err (e : Err)
deriving DecidableEq, Repr

/-- A turn of the schedule (entry 9): a word another agent or a direct caller presents, or a move of the server loop. -/
inductive Turn
  | loop
  | request (r : Request)
deriving DecidableEq, Repr

/-- The machine. -/
@[ext]
structure State where
  /-- The parameters (R8, R47); no step changes them (entry 1). -/
  cfg : Config
  io : Io
  /-- `CHANNEL` (R26). -/
  channel : Option Byte
  /-- `DEVICE_ID` (R27). -/
  deviceId : Option Word
  /-- `PKTLEN` (R28). -/
  pktlen : Option Nat
  /-- `TSTATE` (R30). -/
  tstate : TState
  /-- `SPC` (R40). -/
  spc : Spc
  hold : Option Hold
  /-- BOOT ended in an error: no further step of the server loop is enabled (R285). -/
  bootFailed : Bool
  /-- `SESS` (R43), by rising `clientId`. -/
  sess : List Session
  /-- `IMAGE` (R44). -/
  image : Option Image
  /-- `SNAP` (R45). -/
  snap : Image
  /-- `RXPKT` (R46). -/
  rxpkt : List Byte
  /-- `HELLO` (R46). -/
  hello : Hello
  /-- `OFFSET` (R46). -/
  offset : Half
  /-- `FLAGS` (R46). -/
  flags : Half
  /-- `NEWCLIENT` (R46). -/
  newClient : Bool
  /-- `LOG` (R50), oldest first. -/
  log : List LogEvent
  ret : Ret
  agenda : List Turn
deriving DecidableEq, Repr

/-- The model faults of R262. All are safe: the machine stops where the block's behaviour has no meaning. -/
inductive Fault
  /-- INIT, SETCH, SETID, SETLEN, TX, RX, and the steps that issue them, in a `TSTATE` other than R31 requires. Safe. -/
  | notInState
  /-- TX or RX while `PKTLEN` is `none` (R262). Safe. -/
  | notConfigured
  /-- S4 while `IMAGE` is `none` (R207, R262). Safe. -/
  | noImage
  /-- S3 on a session whose `receivedCount` is 0xFFFFFFFF (R206, R262). Safe. -/
  | countOverflow
deriving DecidableEq, Repr

/-- Why a step is refused. All are safe: the machine stops. -/
inductive Refusal
  /-- An instruction the model gives no meaning. Safe. -/
  | notModelled (mnemonic : String)
  /-- `OP.RESERVED`: "not operations and a model refuses them" (R122). Safe. -/
  | reservedOperation
  /-- WREG without data (R145), RREG of 0 bytes (R146), PUBLISH of a buffer that is not 4000 bytes (R230), a data reply outside R113: not
  legal operands. The decoder never gives one. Safe. -/
  | illegalOperand
  /-- A word that is no instruction (R104, R122). Raised by `step`. Safe. -/
  | undecodable (why : Reject)
  /-- A server step presented when `SPC` is not at it, or while the loop is blocked (R40; entry 18). Safe. -/
  | notEnabled
  /-- BOOT again after BOOT ended in an error (R285). Safe. -/
  | startupEnded
  /-- BOOT with strobe codes that break the constraint of P14 (D5, R285; entry 17). Safe. -/
  | illegalConfiguration
  /-- S3 on a new client when a finite session store is full: a finite build must refuse (U8, R300). Safe. -/
  | sessionStoreFull
deriving DecidableEq, Repr

/-- No premise assumed: `ChipAny` (R71). -/
def Premises.none : Premises := ⟨false, false, false, false, false, false, false, false⟩

/-- Nothing supplied yet (entry 2). -/
def Env.reset : Env where
  premises := Premises.none
  sdiIn := []
  busyIn := []
  settleIn := []
  nowIn := []
  rndIn := []
  airIn := []
  choiceIn := []
  countIn := []
  draws := 0

/-- R55 leaves the chip's reset state unspecified: nothing is known of it (entry 7). -/
def Chip.reset : Chip where
  regs := []
  ident := Option.none
  fifo := []
  wptr := Option.none
  rptr := Option.none
  mode := .unknown
  op := .idle
  sending := Option.none
  sent := []
  status := Option.none
  cal := .idle
  calIf := Option.none
  calVcoc := Option.none
  calVcob := Option.none
  unknown := false

/-- `CSN` 1 and `SCK` 0 (R55); the other levels by entry 6. -/
def Io.reset : Io where
  csn := true
  sck := false
  sdo := false
  sdi := false
  busy := false
  history := []
  pinTrace := []
  env := Env.reset
  chip := Chip.reset

/-- The value of `HELLO` at reset (entry 6). -/
def Hello.reset : Hello := ⟨0, 0, 0, 0, 0, 0, List.replicate missingFlags false⟩

/-- The value of `SNAP` at reset (entry 6). -/
def Image.reset : Image := ⟨List.replicate imageLen 0, 0⟩

/-- The machine right after reset (R55, R280), for a given configuration. -/
def State.resetWith (c : Config) : State where
  cfg := c
  io := Io.reset
  channel := Option.none
  deviceId := Option.none
  pktlen := Option.none
  tstate := .uninitialized
  spc := .boot
  hold := Option.none
  bootFailed := false
  sess := []
  image := Option.none
  snap := Image.reset
  rxpkt := []
  hello := Hello.reset
  offset := 0
  flags := 0
  newClient := false
  log := []
  ret := .none
  agenda := []

/-- The machine right after reset (R55, R280). -/
def State.reset : State := State.resetWith Config.installed

end Sys2Proof.Machine
end

