-- ==== Sys2Proof/Machine/Flags.lean ====
section
/-! DEFINITION. Every status bit the block tests and every flag it computes. The block has no flag register (R32): a status byte is read
and consumed at once, and `FLAGS` is the field of a reply (R112). -/

namespace Sys2Proof.Machine

/-- The CRC-error bit of the mode/status byte is set (R185). -/
def crcFailed (c : Config) (m : Byte) : Bool := decide (m &&& c.mCrcf ≠ 0#8)

/-- The FEC-error bit of the mode/status byte is set (R185). -/
def fecFailed (c : Config) (m : Byte) : Bool := decide (m &&& c.mFecf ≠ 0#8)

/-- The error a receive status reports, the CRC bit first (R185, R260); the bits outside the two masks are ignored. -/
def rxError (c : Config) (m : Byte) : Option Err :=
  if crcFailed c m then some (.crc m) else if fecFailed c m then some (.fec m) else none

/-- A calibration status byte with a masked bit set is a warning (R164). -/
def calWarning (reg : CalReg) (mask m : Byte) : List LogEvent :=
  if m &&& mask ≠ 0#8 then [.calibrationWarning reg m] else []

/-- The warnings of INIT, in the order IF, VCOC, VCOB (R164, R260). -/
def calWarnings (c : Config) (s1 s2 s3 : Byte) : List LogEvent :=
  calWarning .filterBank c.mCalIf s1 ++ calWarning .vcoCurrent c.mCalVcoc s2 ++ calWarning .vcoBank c.mCalVcob s3

/-- Reply flags: bit 0 is "transfer complete, may sleep", bits 15 to 1 are 0 (R112, R113). -/
def replyFlags (complete : Bool) : Half := if complete then 1#16 else 0#16

/-- The causes' numbers of R250. -/
def Err.code : Err → Nat
  | .idMismatch _ _ => 1
  | .packetLengthRange _ => 2
  | .channelRange => 3
  | .sizeError _ _ => 4
  | .crc _ => 5
  | .fec _ => 6
  | .protocolError _ => 7
  | .startupFailure => 9

end Sys2Proof.Machine
end

