-- ==== Sys2Proof/Machine/Operands.lean ====
section
/-! DEFINITION. Operand forms: image reads, packet fields, chunk selection, the reply, the padded payload, the packet-length byte. -/

namespace Sys2Proof.Machine

/-- `Img(o, n)` on an image: `n` bytes at byte offset `o`, zero past the end (R83). -/
def Image.img (x : Image) (o n : Nat) : List Byte :=
  (List.range n).map (fun k => if o + k < imageLen then x.bytes.getD (o + k) 0 else 0)

/-- Padding of a payload to the packet length: zeros after it (R181). -/
def padTo (len : Nat) (l : List Byte) : List Byte := l ++ List.replicate (len - l.length) 0

/-- The byte the packet-length register takes for a length (R102, R167). -/
def lengthByte (n : Int) : Byte := BitVec.ofInt 8 (n - 1)

/-- Bitmap flag `i` of a packet: bit `i mod 8` of byte `24 + i div 8`, or bit `7 - i mod 8` under `msb_first` (R66). -/
def missingFlag (o : BitmapOrder) (p : List Byte) (i : Nat) : Bool :=
  let b := p.getD (helloHdr + i / 8) 0
  match o with
  | .lsbFirst => b.getLsbD (i % 8)
  | .msbFirst => b.getLsbD (7 - i % 8)

/-- The decoded record of a packet of 40 bytes (R204): flags 126 and 127 are not in it (R113). -/
def decodeHello (o : BitmapOrder) (p : List Byte) : Hello where
  tagType := le32At p 0
  clientId := le32At p 4
  gitHash := le32At p 8
  installDate := le32At p 12
  reserved := le32At p 16
  reportedImageId := le32At p 20
  missing := (List.range missingFlags).map (missingFlag o p)

/-- The least `i` in 0..125 whose flag is set (R208). -/
def firstMissing (l : List Bool) : Option Nat := (l.take missingFlags).findIdx? (fun b => b)

/-- `OFFSET = 32 * k` (R114). -/
def chunkOffset (k : Nat) : Half := BitVec.ofNat 16 (chunk * k)

/-- Chunk selection (R208): `(OFFSET, FLAGS)` for a hello and the snapshot's identifier. -/
def selectChunk (h : Hello) (snapId : Word) : Half × Half :=
  if h.reportedImageId ≠ snapId then (0#16, replyFlags false)
  else
    match firstMissing h.missing with
    | some k => (chunkOffset k, replyFlags false)
    | none => (0#16, replyFlags true)

/-- The data reply of a snapshot, an offset and flags (R211, R212). -/
def buildReply (x : Image) (offset flags : Half) : ReplyPacket where
  imageId := x.id
  offset := offset
  flags := flags
  payload := x.img offset.toNat chunk

/-- Carrier frequency of a channel in kHz, 2400.001 + 0.5 * ch MHz: documentation of the channel operand (R3, R165). -/
def carrierKhz (ch : Byte) : Nat := 2400001 + 500 * ch.toNat

end Sys2Proof.Machine
end

