-- ==== Sys2Proof/Machine/Memory.lean ====
section
/-! DEFINITION. Operations over the canonical list of cells (entry 25) and over the session store, which is canonical the same way (R64). -/

namespace Sys2Proof.Machine

/-- What an unlisted address reads as: no known byte (entry 25). -/
def Memory.unlisted : Option Byte := none

/-- The byte at an address, if one is known. -/
def Memory.read : Memory → Nat → Option Byte
  | [], _ => Memory.unlisted
  | (b, v) :: r, a => if a = b then some v else Memory.read r a

/-- Writes one byte, keeping the addresses strictly rising. -/
def Memory.write : Memory → Nat → Byte → Memory
  | [], a, v => [(a, v)]
  | (b, w) :: r, a, v =>
    if a < b then (a, v) :: (b, w) :: r
    else if a = b then (a, v) :: r
    else (b, w) :: Memory.write r a v

/-- Forgets the byte at an address. -/
def Memory.erase (m : Memory) (a : Nat) : Memory := m.filter (fun x => decide (x.1 ≠ a))

/-- Writes bytes at consecutive addresses (R62). -/
def Memory.writeList : Memory → Nat → List Byte → Memory
  | m, _, [] => m
  | m, a, v :: l => Memory.writeList (m.write a v) (a + 1) l

/-- The canonical form: addresses strictly rising. -/
abbrev Memory.wf (m : Memory) : Prop := m.Pairwise (fun x y => x.1 < y.1)

/-- `Sess[k]` (R10): exact match on the key (R64). -/
def sessLookup (k : Word) : List Session → Option Session
  | [] => none
  | x :: r => if x.clientId = k then some x else sessLookup k r

/-- `SESS[x.clientId] <- x` (R206), keeping the keys strictly rising. -/
def sessPut (x : Session) : List Session → List Session
  | [] => [x]
  | y :: r =>
    if x.clientId.toNat < y.clientId.toNat then x :: y :: r
    else if x.clientId = y.clientId then x :: r
    else y :: sessPut x r

/-- The canonical form of the store: keys strictly rising, so each occurs once. -/
abbrev sessWf (l : List Session) : Prop := l.Pairwise (fun x y => x.clientId.toNat < y.clientId.toNat)

end Sys2Proof.Machine
end

