-- ==== Sys2Proof/Machine/Chip.lean ====
section
/-! DEFINITION. The environment behind the pins: the draws of `ChipAny` (R71), what the frames leave in the chip (R62, R70), and what the
premises CP1 to CP8 (R72 to R79) fix of its answers. With no premise assumed every answer is a draw (entries 2 and 21). -/

namespace Sys2Proof.Machine

/-! ### Draws (R10): the next supplied value, or a free value nothing constrains. -/

/-- `sample(SDI)`. -/
def Env.drawSdi (e : Env) : Bool × Env :=
  match e.sdiIn with
  | b :: r => (b, { e with sdiIn := r })
  | [] => (Config.freeSdi e.draws, { e with draws := e.draws + 1 })

/-- The electrical level of `sample(BUSY)`. -/
def Env.drawBusy (e : Env) : Bool × Env :=
  match e.busyIn with
  | b :: r => (b, { e with busyIn := r })
  | [] => (Config.freeBusy e.draws, { e with draws := e.draws + 1 })

/-- Whether the settle time has passed when the block looks (R163, entry 5). -/
def Env.drawSettle (e : Env) : Bool × Env :=
  match e.settleIn with
  | b :: r => (b, { e with settleIn := r })
  | [] => (Config.freeSettle e.draws, { e with draws := e.draws + 1 })

/-- `now()` (P21). -/
def Env.drawNow (e : Env) : Nat × Env :=
  match e.nowIn with
  | t :: r => (t, { e with nowIn := r })
  | [] => (Config.freeTime e.draws, { e with draws := e.draws + 1 })

/-- `draw(28 bits)` (R245). -/
def Env.drawRandom (e : Env) : BitVec 28 × Env :=
  match e.rndIn with
  | x :: r => (x, { e with rndIn := r })
  | [] => (Config.freeRandom e.draws, { e with draws := e.draws + 1 })

/-- A choice of the chip that no rule decides. -/
def Env.drawChoice (e : Env) : Bool × Env :=
  match e.choiceIn with
  | b :: r => (b, { e with choiceIn := r })
  | [] => (Config.freeChoice e.draws, { e with draws := e.draws + 1 })

/-- How many turns of the chip something takes. -/
def Env.drawCount (e : Env) : Nat × Env :=
  match e.countIn with
  | n :: r => (n, { e with countIn := r })
  | [] => (Config.freeCount e.draws, { e with draws := e.draws + 1 })

/-- The level of SDO while nothing is sent (R23, D3): always free. -/
def Env.drawSdo (e : Env) : Bool × Env := (Config.freeSdo e.draws, { e with draws := e.draws + 1 })

/-- A byte of the chip: the known one, or a free value. -/
def Env.knownByte (b : Option Byte) (e : Env) : Byte × Env :=
  match b with
  | some v => (v, e)
  | none => (Config.freeByte e.draws, { e with draws := e.draws + 1 })

/-- Bytes of the chip. -/
def Env.knownBytes : List (Option Byte) → Env → List Byte × Env
  | [], e => ([], e)
  | b :: l, e =>
    let r := e.knownByte b
    let t := Env.knownBytes l r.2
    (r.1 :: t.1, t.2)

/-- An identity of the chip: the known one, or a free value (R298, U5). -/
def Env.knownIdent (x : Option Word) (e : Env) : Word × Env :=
  match x with
  | some v => (v, e)
  | none => (Config.freeIdent e.draws, { e with draws := e.draws + 1 })

/-- `n` levels of SDI. -/
def Env.drawBits : Nat → Env → List Bool × Env
  | 0, e => ([], e)
  | n + 1, e =>
    let r := e.drawSdi
    let t := Env.drawBits n r.2
    (r.1 :: t.1, t.2)

/-- A byte no premise fixes: eight levels of SDI. -/
def Env.drawByte (e : Env) : Byte × Env :=
  let r := Env.drawBits 8 e
  (bitsByte r.1, r.2)

/-! ### What a frame leaves in the chip (R62, R70, R81). -/

/-- The register a write resets the chip through: the first entry of `INIT_SEQ`, "chip reset is the first item the source lists" (R161,
R280; DESIGN CHOICE, entry 21). -/
def resetReg (c : Config) : Option Addr := c.initSeq.head?.map (fun x => x.1)

/-- The chip listens, so that a packet may be stored in the FIFO: the last mode strobe was RX, and no packet is known to have arrived (R76, U11;
what may be stored and when is entry 32). -/
def Chip.listening (k : Chip) : Bool := decide (k.mode = .rx) && decide (k.op ≠ .over)

/-- A strobe (R70, R74 to R76, R79); only the pointer strobes concern the FIFO (R62). After RX or TX the status of a packet received before is
not known, even if it has not been read; PLL leaves it (DESIGN CHOICE, entry 33). One outside P14, or with a nonzero low nibble, makes every
premise void (U3). Where codes of P14 coincide, the first of this list is taken (DESIGN CHOICE, entry 37). -/
def Chip.strobe (c : Config) (b : Byte) (k : Chip) : Chip :=
  if lowNibble b ≠ 0#4 then { k with unknown := true }
  else if codeOf b = c.cPll then { k with mode := .pll, op := .idle, sending := none }
  else if codeOf b = c.cRx then { k with mode := .rx, op := .strobed, sending := none, status := none }
  else if codeOf b = c.cTx then { k with mode := .tx, op := .strobed, sending := none, status := none }
  else if codeOf b = c.cWrst then { k with wptr := some 0 }
  else if codeOf b = c.cRrst then { k with rptr := some 0 }
  else { k with unknown := true }

/-- A write to an ordinary register: one byte is held; what a frame of several bytes leaves in a one-byte register is not known. -/
def Chip.writeReg (a : Addr) (data : List Byte) (k : Chip) : Chip :=
  match data with
  | [v] => { k with regs := k.regs.write a.toNat v }
  | _ => { k with regs := k.regs.erase a.toNat }

/-- A fill of the FIFO at the write pointer (R62, R74), of a chip that listens as of any other. What it leaves is known where the pointer is,
and within the 64 bytes the FIFO holds at least (DESIGN CHOICE, entry 31). -/
def Chip.fill (data : List Byte) (k : Chip) : Chip :=
  match k.wptr with
  | some w =>
    { k with
      wptr := some (w + data.length)
      fifo := if w + data.length ≤ fifoSize then k.fifo.writeList w data else [] }
  | none => { k with fifo := [] }

/-- The chip reset (R161, R280): afterwards nothing is known of the chip, as after power-on (R55; DESIGN CHOICE, entry 35). -/
def Chip.forget (k : Chip) : Chip :=
  { k with
    regs := [], ident := none, fifo := [], wptr := none, rptr := none, mode := .unknown, op := .idle, sending := none, status := none
    cal := .idle, calIf := none, calVcoc := none, calVcob := none }

/-- A write frame (R62, R70, R73, R79): to the FIFO; to the identifier, of which only a frame of 4 bytes leaves a known identity (R69;
DESIGN CHOICE, entry 30); to the register that resets the chip; to any other register. R8 does not require the addresses to differ: where some
coincide, the first of this list is taken (DESIGN CHOICE, entry 37). A write of the mode/status register or of a calibration status register
leaves the status bits of the last packet or calibration as they were (DESIGN CHOICE, entry 33). Every write of `V_CALCTL` in PLL mode begins a
calibration, whether or not `CAL_CLEAR_SEQ` was sent before it (DESIGN CHOICE, entry 39). -/
def Chip.write (c : Config) (a : Addr) (data : List Byte) (k : Chip) : Chip :=
  if a = c.aFifo then k.fill data
  else if a = c.aId ∧ data.length = 4 then { k with ident := some (be32List data) }
  else if resetReg c = some a then k.forget
  else if a = c.aId then { k with ident := none }
  else if a = c.aCalctl ∧ data = [c.vCalctl] ∧ k.mode = .pll then
    { k.writeReg a data with cal := .started, calIf := none, calVcoc := none, calVcob := none }
  else k.writeReg a data

/-- A read frame that returned `q`. From the FIFO: the read pointer moves (R62). From the identifier: nothing changes, the identity stays the one
last written (R75; DEDUCED, entry 38); SETID's echo that differs is `State.doubtIdent`. From a status register: whether the read clears its bits
is not known (R69; DESIGN CHOICE, entry 33). Where addresses coincide, the order is that of `Chip.write` (entry 37). -/
def Chip.read (c : Config) (a : Addr) (q : List Byte) (k : Chip) : Chip :=
  if a = c.aFifo then { k with rptr := k.rptr.map (fun r => r + q.length) }
  else if a = c.aId then k
  else
    { k with
      status := if a = c.aMode then none else k.status
      calIf := if a = c.aCalIf then none else k.calIf
      calVcoc := if a = c.aCalVcoc then none else k.calVcoc
      calVcob := if a = c.aCalVcob then none else k.calVcob }

/-- The effect of a completed frame that sent `out` and returned `q` (R70): bit 7 of the first byte set is a strobe, else bit 6 set is a
read, else a write. A lone byte with bit 7 clear is neither a read nor a write of R101 but a strobe outside P14 (R104, U3). -/
def Chip.afterFrame (c : Config) (out q : List Byte) (k : Chip) : Chip :=
  match out with
  | [] => k
  | b :: data =>
    if b.getLsbD 7 then k.strobe c b
    else if data = [] ∧ q = [] then { k with unknown := true }
    else if b.getLsbD 6 then k.read c (addrOf b) q
    else k.write c (addrOf b) data

/-! ### What the premises fix of a read (R72 to R79). -/

/-- The byte with its `mask` bits nonzero exactly when `bad` (R77, R79). -/
def fixStatus (mask : Byte) (bad : Bool) (d : Byte) : Byte :=
  if bad then (if d &&& mask = 0#8 then d ||| mask else d) else d &&& ~~~mask

/-- A status byte: a draw, with the bits the premise speaks of set or cleared. -/
def Io.drawStatus (fix : Byte → Byte) (io : Io) : List (Option Byte) × Io :=
  let r := io.env.drawByte
  ([some (fix r.1)], { io with env := r.2 })

/-- A calibration status register (R79): its masked bits are clear if and only if that calibration succeeded. -/
def Io.drawCal (mask : Byte) (success : Option Bool) (io : Io) : List (Option Byte) × Io :=
  match success with
  | some ok => if io.env.premises.cp8 then io.drawStatus (fixStatus mask (!ok)) else ([none], io)
  | none => ([none], io)

/-- "With nothing between" (R73): the bytes of a write to `A_ID` if that was the last frame. -/
def Io.lastIdWrite (c : Config) (io : Io) : Option (List Byte) :=
  match io.history.getLast? with
  | some ⟨w :: d, _⟩ => if w = writeByte c.aId ∧ d.length = 4 then some d else none
  | _ => none

/-- The FIFO bytes a drain of `n` bytes returns, as far as they are known (R62, R74). -/
def Chip.drain (n : Nat) (k : Chip) : List (Option Byte) :=
  match k.rptr with
  | some r => (List.range n).map (fun j => k.fifo.read (r + j))
  | none => List.replicate n none

/-- What the premises fix of `n` bytes read from address `a`; `none` is a byte they leave to a draw. Where addresses coincide, the first of this
list is taken (DESIGN CHOICE, entry 37). -/
def Io.readDrive (c : Config) (a : Addr) (n : Nat) (io : Io) : List (Option Byte) × Io :=
  let p := io.env.premises
  if io.chip.unknown then (List.replicate n none, io)
  else if a = c.aFifo then (if p.cp3 then (io.chip.drain n, io) else (List.replicate n none, io))
  else if a = c.aId then
    match io.lastIdWrite c with
    | some d => if p.cp2 ∧ n = 4 then (d.map some, io) else (List.replicate n none, io)
    | none => (List.replicate n none, io)
  else if n ≠ 1 then (List.replicate n none, io)
  else if a = c.aMode then
    match io.chip.status with
    | some (crc, fec) =>
      if p.cp6 then io.drawStatus (fun d => fixStatus c.mFecf fec (fixStatus c.mCrcf crc d)) else ([none], io)
    | none => ([none], io)
  else if a = c.aCalIf then io.drawCal c.mCalIf io.chip.calIf
  else if a = c.aCalVcoc then io.drawCal c.mCalVcoc io.chip.calVcoc
  else if a = c.aCalVcob then io.drawCal c.mCalVcob io.chip.calVcob
  else if p.cp1 ∧ resetReg c ≠ some a then ([io.chip.regs.read a.toNat], io)
  else ([none], io)

/-- What the chip drives after the bytes `out`: it answers a lone read byte (R70); to anything else its answer is a draw. -/
def Io.answer (c : Config) (out : List Byte) (n : Nat) (io : Io) : List (Option Byte) × Io :=
  match out with
  | [b] => if kindOf b = 1#2 then io.readDrive c (addrOf b) n else (List.replicate n none, io)
  | _ => (List.replicate n none, io)

/-! ### Sending and listening (R75, R76, R78). -/

/-- A premise speaks of the operation of the last RX or TX strobe (R75, R76). CP7 is none of these: without CP4 (for TX) or CP5 (for RX) no
rule says how long BUSY stays asserted, so the first sample may read either level although CP7 is assumed (DESIGN CHOICE, entry 21). -/
def Io.governed (io : Io) : Bool :=
  !io.chip.unknown &&
    ((decide (io.chip.mode = .tx) && io.env.premises.cp4) || (decide (io.chip.mode = .rx) && io.env.premises.cp5))

/-- The packet a transmission begun now sends (R75): FIFO bytes 0 to `L`, `L` the byte last written to `A_PKTLEN`, with the identity and on the
channel last written. The bytes of the FIFO are known under CP3 (R62, R74); what is not known is a free value. -/
def Io.packet (c : Config) (io : Io) : SentPacket × Env :=
  let x := io.env.knownIdent io.chip.ident
  let ch := x.2.knownByte (io.chip.regs.read c.aChannel.toNat)
  let n := ch.2.knownByte (io.chip.regs.read c.aPktlen.toNat)
  let p := Env.knownBytes ((List.range (n.1.toNat + 1)).map (fun j => if io.env.premises.cp3 then io.chip.fifo.read j else none)) n.2
  (⟨x.1, ch.1, p.1⟩, p.2)

/-- The packet is out (R75). -/
def Chip.finishSend (k : Chip) : Chip := { k with sent := k.sent ++ k.sending.toList, sending := none, op := .over }

/-- A transmission begins: its packet is what the chip holds now (DESIGN CHOICE, entry 34), and it ends after a finite number of turns of the
chip, which is a draw (R75). -/
def Io.beginSend (c : Config) (io : Io) : Io :=
  let p := io.packet c
  let n := p.2.drawCount
  let k := { io.chip with sending := some p.1 }
  { io with env := n.2, chip := match n.1 with
    | 0 => k.finishSend
    | m + 1 => { k with op := .running m } }

/-- The operation strobed begins: BUSY is asserted from now on. -/
def Io.begin (c : Config) (io : Io) : Io :=
  if io.chip.mode = .tx then io.beginSend c else { io with chip := { io.chip with op := .running 0 } }

/-- The chip's operation goes on by a turn, before each frame and at each sample of BUSY (R41, R86). Under CP7 the operation begins with its strobe
(R78); without it, after a finite number of turns, which is a draw (R296). A transmission goes on for its number of turns; a listening ends only
when a packet arrives (R76). -/
def Io.advance (c : Config) (io : Io) : Io :=
  if io.governed then
    match io.chip.op with
    | .strobed =>
      if io.env.premises.cp7 then io.begin c
      else
        let d := io.env.drawCount
        { io with env := d.2, chip := { io.chip with op := .pending d.1 } }
    | .pending 0 => io.begin c
    | .pending (n + 1) => { io with chip := { io.chip with op := .pending n } }
    | .running 0 => if io.chip.mode = .tx then { io with chip := io.chip.finishSend } else io
    | .running (n + 1) => { io with chip := { io.chip with op := .running n } }
    | .idle => io
    | .over => io
  else io

/-- A transmission strobed and not over is cut off: whether its packet still goes out is a choice of the chip (DESIGN CHOICE, entry 34). -/
def Io.cutOff (c : Config) (io : Io) : Io :=
  let d := io.env.drawChoice
  if d.1 then
    match io.chip.sending with
    | some p => { io with env := d.2, chip := { io.chip with sent := io.chip.sent ++ [p] } }
    | none =>
      let p := ({ io with env := d.2 }).packet c
      { io with env := p.2, chip := { io.chip with sent := io.chip.sent ++ [p.1] } }
  else { io with env := d.2 }

/-- A transmission is under way, or has still to begin (R75, R296). -/
def Io.sendingNow (io : Io) : Bool :=
  io.governed && decide (io.chip.mode = .tx) && decide (io.chip.op ≠ .idle) && decide (io.chip.op ≠ .over)

/-- Whether the chip hears a packet (R76): its identity and its channel are those the chip is set to; `none` where what the chip is set to is
not known. -/
def hears (c : Config) (k : Chip) (p : AirPacket) : Option Bool :=
  match k.ident, k.regs.read c.aChannel.toNat with
  | some x, some ch => some (decide (p.identity = x ∧ p.channel = ch))
  | some x, none => if p.identity = x then none else some false
  | none, some ch => if p.channel = ch then none else some false
  | none, none => none

/-- The first packet on the air that the chip hears, and what follows it (R76). Packets before it are lost (R297). Where it is not known
whether the chip hears one, it is a choice. -/
def nextFor (c : Config) (k : Chip) : List AirPacket → Env → Option (AirPacket × List AirPacket) × Env
  | [], e => (none, e)
  | p :: r, e =>
    match hears c k p with
    | some true => (some (p, r), e)
    | some false => nextFor c k r e
    | none =>
      let d := e.drawChoice
      if d.1 then (some (p, r), d.2) else nextFor c k r d.2

/-- A packet has arrived (R76): its `L + 1` payload bytes are at FIFO positions 0 to `L`, the other positions hold what they held (DEDUCED,
entry 32), the status describes it, and the listening is over. After a packet of another length (U11), or longer than the 64 bytes a FIFO holds
at least (entry 31), nothing is known of the FIFO. -/
def Chip.receive (c : Config) (p : AirPacket) (k : Chip) : Chip :=
  let fits := k.regs.read c.aPktlen.toNat = some (BitVec.ofNat 8 (p.payload.length - 1)) ∧ 1 ≤ p.payload.length ∧ p.payload.length ≤ fifoSize
  { k with fifo := if fits then k.fifo.writeList 0 p.payload else [], status := some (p.crcBad, p.fecBad), op := .over }

/-- A packet arrives, if one is on the air that the chip hears (R76); true if one did. -/
def Io.arrive (c : Config) (io : Io) : Bool × Io :=
  let f := nextFor c io.chip io.env.airIn io.env
  match f.1 with
  | some (p, rest) => (true, { io with chip := io.chip.receive c p, env := { f.2 with airIn := rest } })
  | none => (false, { io with env := f.2 })

/-- What a chip that listens has heard before the next frame. Under CP5 it goes on listening, whatever frames it is sent, until a packet
arrives, and whether one arrives now is a choice (R76); without CP5 anything may have been stored in the FIFO (U11; DESIGN CHOICE, entry 32). -/
def Io.hear (c : Config) (io : Io) : Io :=
  if io.chip.listening then
    if io.governed then
      match io.chip.op with
      | .running _ =>
        let d := io.env.drawChoice
        if d.1 then (({ io with env := d.2 } : Io).arrive c).2 else { io with env := d.2 }
      | .idle => io
      | .strobed => io
      | .pending _ => io
      | .over => io
    else { io with chip := { io.chip with fifo := [] } }
  else io

/-- The chip's turn before a frame (R41, R86): its operation goes on, and a packet may arrive. -/
def Io.turn (c : Config) (io : Io) : Io := (io.advance c).hear c

/-- The frame gives the chip another mode, or starts another operation. -/
def Chip.redirects (c : Config) (out q : List Byte) (k : Chip) : Bool :=
  decide ((k.afterFrame c out q).mode ≠ k.mode) || decide ((k.afterFrame c out q).op = .strobed)

/-- A frame has ended: the chip performs its effect (R81). -/
def Io.perform (c : Config) (out q : List Byte) (io : Io) : Io :=
  let b := if io.sendingNow && io.chip.redirects c out q then io.cutOff c else io
  { b with chip := b.chip.afterFrame c out q }

/-! ### The ready/busy line (R25, R71, R75, R76, R78). -/

/-- Records a sample of BUSY (R25): the pin's electrical level, and whether it means asserted (P19). -/
def Io.readBusy (c : Config) (asserted : Bool) (io : Io) : Bool × Io :=
  let level := if asserted then c.busyLevel else !c.busyLevel
  (asserted, { io with busy := level, pinTrace := .busy level :: io.pinTrace })

/-- A level of BUSY that no premise fixes. -/
def Io.freeLevel (c : Config) (io : Io) : Bool × Io :=
  let r := io.env.drawBusy
  (decide (r.1 = c.busyLevel), { io with env := r.2 })

/-- A sample of BUSY while the chip listens (R76): a draw says whether a packet arrives now; BUSY stays asserted until one does. -/
def Io.listen (c : Config) (io : Io) : Bool × Io :=
  let r := io.freeLevel c
  if r.1 then r
  else
    let a := r.2.arrive c
    (!a.1, a.2)

/-- The level of BUSY after a turn of the chip: fixed where a premise speaks of an operation that has begun (R75, R76), else a draw; so the line
may still read deasserted before the operation has begun (R296). -/
def Io.busyLevel (c : Config) (io : Io) : Bool × Io :=
  if io.governed then
    match io.chip.op with
    | .running _ => if io.chip.mode = .tx then (true, io) else io.listen c
    | .over => (false, io)
    | .idle => io.freeLevel c
    | .strobed => io.freeLevel c
    | .pending _ => io.freeLevel c
  else io.freeLevel c

/-- `sample(BUSY)`: true is asserted (R25). -/
def Io.sampleBusy (c : Config) (io : Io) : Bool × Io :=
  let s := (io.advance c).busyLevel c
  s.2.readBusy c s.1

/-- The calibration begun has finished; whether each of the three succeeded is a choice of the chip (R79). -/
def Io.finishCal (io : Io) : Io :=
  let a := io.env.drawChoice
  let b := a.2.drawChoice
  let d := b.2.drawChoice
  { io with env := d.2, chip := { io.chip with cal := .finished, calIf := some a.1, calVcoc := some b.1, calVcob := some d.1 } }

/-- A look at the settle time (R163): true when it has passed, and then the calibration begun has finished (R79), also one begun by bare frames
while INIT is held (DESIGN CHOICE, entry 39). -/
def Io.settled (io : Io) : Bool × Io :=
  let r := io.env.drawSettle
  let io1 := { io with env := r.2 }
  (r.1, if r.1 ∧ io1.chip.cal = .started then io1.finishCal else io1)

end Sys2Proof.Machine
end

