-- ==== Sys2Proof/Machine/Pins.lean ====
section
/-! DEFINITION. The frame and its bits (R140 to R144), at pin level. -/

namespace Sys2Proof.Machine

/-- `pin(CSN) <- b`. -/
def Io.setCsn (b : Bool) (io : Io) : Io := { io with csn := b, pinTrace := .csn b :: io.pinTrace }

/-- `pin(SCK) <- b`. -/
def Io.setSck (b : Bool) (io : Io) : Io := { io with sck := b, pinTrace := .sck b :: io.pinTrace }

/-- `pin(SDO) <- b`. -/
def Io.setSdo (b : Bool) (io : Io) : Io := { io with sdo := b, pinTrace := .sdo b :: io.pinTrace }

/-- Nothing is sent: the level of SDO is a draw, and no event (R23, D3). -/
def Io.floatSdo (io : Io) : Io :=
  let r := io.env.drawSdo
  { io with sdo := r.1, env := r.2 }

/-- `sample(SDI)`: the level a premise fixes, else a draw. -/
def Io.sampleSdi (drive : Option Bool) (io : Io) : Bool × Io :=
  let r : Bool × Env := match drive with
    | some b => (b, io.env)
    | none => io.env.drawSdi
  (r.1, { io with env := r.2, sdi := r.1, pinTrace := .sdi r.1 :: io.pinTrace })

/-- `BitOut(b)` (R142). -/
def Io.bitOut (b : Bool) (io : Io) : Io := ((io.setSdo b).setSck true).setSck false

/-- `BitIn()` (R143). -/
def Io.bitIn (drive : Option Bool) (io : Io) : Bool × Io :=
  let r := (io.floatSdo.setSck true).sampleSdi drive
  (r.1, r.2.setSck false)

/-- Sends bits in order. -/
def Io.bitsOut (io : Io) (l : List Bool) : Io := l.foldl (fun io b => io.bitOut b) io

/-- Receives bits in order. -/
def Io.bitsIn : List (Option Bool) → Io → List Bool × Io
  | [], io => ([], io)
  | d :: ds, io =>
    let r := io.bitIn d
    let t := Io.bitsIn ds r.2
    (r.1 :: t.1, t.2)

/-- `ByteOut(v)` (R144): bit 7 first. -/
def Io.byteOut (io : Io) (v : Byte) : Io := io.bitsOut (byteBits v)

/-- The bits of a byte a premise fixes, or eight draws. -/
def driveBits (d : Option Byte) : List (Option Bool) :=
  match d with
  | some v => (byteBits v).map some
  | none => List.replicate 8 none

/-- `ByteIn()` (R144): the first bit received is bit 7. -/
def Io.byteIn (d : Option Byte) (io : Io) : Byte × Io :=
  let r := Io.bitsIn (driveBits d) io
  (bitsByte r.1, r.2)

/-- Receives bytes in order. -/
def Io.bytesIn : List (Option Byte) → Io → List Byte × Io
  | [], io => ([], io)
  | d :: ds, io =>
    let r := io.byteIn d
    let t := Io.bytesIn ds r.2
    (r.1 :: t.1, t.2)

/-- Sends bytes in order. -/
def Io.bytesOut (io : Io) (l : List Byte) : Io := l.foldl (fun io v => io.byteOut v) io

/-- The end of a frame: the record joins the history (R141) and the chip performs the frame's effect (R81). -/
def Io.endFrame (c : Config) (out q : List Byte) (io : Io) : Io := ({ io with history := io.history ++ [⟨out, q⟩] } : Io).perform c out q

/-- `Frame(out, n_in)` between two turns of the chip: the pins, the record, the effect (R141). -/
def Io.exchange (c : Config) (out : List Byte) (nIn : Nat) (io : Io) : List Byte × Io :=
  let sent := (io.setCsn false).bytesOut out
  let drive := sent.answer c out nIn
  let got := Io.bytesIn drive.1 drive.2
  (got.1, ((got.2.setCsn true).floatSdo).endFrame c out got.1)

/-- `Frame(out, n_in)` (R141), after a turn of the chip. -/
def Io.frame (c : Config) (out : List Byte) (nIn : Nat) (io : Io) : List Byte × Io := (io.turn c).exchange c out nIn

end Sys2Proof.Machine
end

