-- ==== Sys2Proof/Machine/Ops.lean ====
section
/-! DEFINITION. The shared operations over the machine: the three primitives (R145 to R147), the log, taking an error and returning from
it (R215, R258, R259), and the driver operations with their waits (R160 to R186), each written once for all its callers. -/

namespace Sys2Proof.Machine

/-- The outcome of a step of this machine. -/
abbrev Result := Host.Outcome State Fault Refusal

/-! ### Primitives -/

/-- `Frame(out, n_in)` (R141). -/
def State.frame (out : List Byte) (nIn : Nat) (s : State) : List Byte × State :=
  let r := s.io.frame s.cfg out nIn
  (r.1, { s with io := r.2 })

/-- `MemWrite(a, len(l), l)`: WREG (R145). -/
def State.wreg (a : Addr) (l : List Byte) (s : State) : State := (s.frame (writeByte a :: l) 0).2

/-- `MemRead(a, n)`: RREG (R146). -/
def State.rreg (a : Addr) (n : Nat) (s : State) : List Byte × State := s.frame [readByte a] n

/-- The byte of a one-byte read (R164, R185). -/
def State.rreg1 (a : Addr) (s : State) : Byte × State :=
  let r := s.rreg a 1
  (r.1.getD 0 0, r.2)

/-- `Strobe(c)`: STROBE (R147). -/
def State.strobe (k : Nibble) (s : State) : State := (s.frame [strobeByte k] 0).2

/-- A list of register writes in order (R161, R162). -/
def State.wregAll (l : List (Addr × List Byte)) (s : State) : State := l.foldl (fun s x => s.wreg x.1 x.2) s

/-- One `sample(BUSY)`: true is asserted (R25). -/
def State.sampleBusy (s : State) : Bool × State :=
  let r := s.io.sampleBusy s.cfg
  (r.1, { s with io := r.2 })

/-- One look at the settle time (R163). -/
def State.settled (s : State) : Bool × State :=
  let r := s.io.settled
  (r.1, { s with io := r.2 })

/-- `now()` (P21). -/
def State.now (s : State) : Nat × State :=
  let r := s.io.env.drawNow
  (r.1, { s with io := { s.io with env := r.2 } })

/-- `draw(28 bits)` (R245). -/
def State.random (s : State) : BitVec 28 × State :=
  let r := s.io.env.drawRandom
  (r.1, { s with io := { s.io with env := r.2 } })

/-- `log(ev)` for each event of a list, in order (R50). -/
def State.logAll (l : List LogEvent) (s : State) : State := { s with log := s.log ++ l }

/-- The result of a directly issued operation, returned to its caller (R32; entry 8). -/
def State.answer (r : Ret) (s : State) : State := { s with ret := r }

/-! ### Taking an error, and returning from it -/

/-- The whole return from an error (R259): the next iteration starts with S1. -/
def State.returnToLoop (s : State) : State := { s with spc := .s1 }

/-- Taking an error at the loop boundary (R215, R259): one `Error` event with a time stamp and the identifiers known so far (R214), then
`SPC <- S1`. Nothing is saved (R258), no bus operation is made, and what the iteration has written so far stays written. -/
def State.takeError (e : Err) (clientId imageId : Option Word) (s : State) : State :=
  let t := s.now
  (t.2.logAll [.error e t.1 clientId imageId]).returnToLoop

/-- The identifiers known to step S7 and S6 (R214). -/
def State.takeErrorServed (e : Err) (s : State) : State := s.takeError e (some s.hello.clientId) (some s.snap.id)

/-- An error of a driver operation goes to its caller (R258): to whoever issued it directly, or to the loop boundary. -/
def State.raiseTo (c : Caller) (e : Err) (inLoop : State → State) (s : State) : State :=
  match c with
  | .direct => s.answer (.err e)
  | .loop => inLoop s

/-! ### SETCH, SETID, SETLEN (R165 to R167) -/

/-- SETCH (R165). -/
def State.setChannel (ch : Byte) (s : State) : State := { s.wreg s.cfg.aChannel [ch] with channel := some ch }

/-- After a failed SETID the chip's identity is not known (R298, U5). -/
def State.doubtIdent (s : State) : State := { s with io := { s.io with chip := { s.io.chip with ident := none } } }

/-- SETID (R166): write, read back, compare. The error, if any, and the state. -/
def State.setId (id : Word) (s : State) : Option Err × State :=
  let r := (s.wreg s.cfg.aId (toBe32 id)).rreg s.cfg.aId 4
  let e := be32List r.1
  if e = id then (none, { r.2 with deviceId := some id }) else (some (.idMismatch id e), { r.2.doubtIdent with deviceId := none })

/-- SETLEN (R167): the check comes first; on an error no frame is sent and `PKTLEN` is unchanged. -/
def State.setLength (n : Int) (s : State) : Option Err × State :=
  if n < pktMin ∨ pktMax < n then (some (.packetLengthRange n), s)
  else (none, { s.wreg s.cfg.aPktlen [lengthByte n] with pktlen := some n.toNat })

/-! ### INIT and BOOT (R160 to R164, R285) -/

/-- BOOT after INIT (R285): SETCH, SETLEN, then the loop starts; an error of SETLEN ends start-up. -/
def State.bootRest (s : State) : State :=
  let r := (s.setChannel s.cfg.channelCfg).setLength s.cfg.pktlenCfg
  match r.1 with
  | none => { r.2 with spc := .s1 }
  | some e => { r.2 with bootFailed := true, ret := .err e }

/-- INIT part 4 (R164): three reads, the warnings, `TSTATE <- Idle`; then back to the caller. -/
def State.initFinish (c : Caller) (s : State) : State :=
  let r1 := s.rreg1 s.cfg.aCalIf
  let r2 := r1.2.rreg1 s.cfg.aCalVcoc
  let r3 := r2.2.rreg1 s.cfg.aCalVcob
  let t := { r3.2.logAll (calWarnings s.cfg r1.1 r2.1 r3.1) with tstate := .idle }
  match c with
  | .direct => t.answer .ok
  | .loop => t.bootRest

/-- INIT part 3 (R163): a look at the settle time; while it has not passed the operation is held here and other agents may step. -/
def State.pollSettle (c : Caller) (s : State) : State :=
  let r := s.settled
  if r.1 then ({ r.2 with hold := none }).initFinish c else { r.2 with hold := some (.settle c) }

/-- INIT parts 1 and 2 (R161, R162), then the settle wait. -/
def State.initStart (c : Caller) (s : State) : State :=
  let s1 := ({ s with tstate := .calibrating }).wregAll s.cfg.initSeq
  let s2 := (s1.wregAll s.cfg.calClearSeq).strobe s.cfg.cPll
  (s2.wreg s.cfg.aCalctl [s.cfg.vCalctl]).pollSettle c

/-- INIT and its precondition (R160). A code set that breaks P14 is refused at BOOT and on the strobe port, and not here (DESIGN CHOICE, entry 17). -/
def initOp (c : Caller) (s : State) : Result :=
  if s.tstate = .uninitialized then .next (s.initStart c) else .fault .notInState

/-! ### TX (R180 to R182) -/

/-- TX returns: to a direct caller, or to S7, which goes on to S8 (R211). -/
def State.txDone (c : Caller) (s : State) : State :=
  match c with
  | .direct => s.answer .ok
  | .loop => { s with spc := .s8 }

/-- One sample of `WaitBusyClear` in TX (R148, R182): held while asserted; when deasserted `TSTATE <- Idle` and TX returns. -/
def State.pollTx (c : Caller) (s : State) : State :=
  let r := s.sampleBusy
  if r.1 then { r.2 with hold := some (.sending c) } else ({ r.2 with hold := none, tstate := .idle }).txDone c

/-- TX after its checks (R181, R182): reset the write pointer, fill, send, wait. -/
def State.txSend (c : Caller) (len : Nat) (l : List Byte) (s : State) : State :=
  let s1 := (s.strobe s.cfg.cWrst).wreg s.cfg.aFifo (padTo len l)
  (({ s1 with tstate := .transmitting }).strobe s.cfg.cTx).pollTx c

/-- TX (R180): `NotInState`, then `NotConfigured`, then the size check, then the frames (R260; entry 20). A code set that breaks
P14 is not refused here (DESIGN CHOICE, entry 17). -/
def txOp (c : Caller) (l : List Byte) (s : State) : Result :=
  if s.tstate = .idle then
    match s.pktlen with
    | none => .fault .notConfigured
    | some len =>
      .next (if len < l.length then s.raiseTo c (.sizeError l.length len) (fun s => s.takeErrorServed (.sizeError l.length len))
        else s.txSend c len l)
  else .fault .notInState

/-! ### RX (R183 to R185) -/

/-- RX returns the bytes: to a direct caller, or to S2, which goes on to S3 (R202). -/
def State.rxDone (c : Caller) (q : List Byte) (s : State) : State :=
  match c with
  | .direct => s.answer (.bytes q)
  | .loop => { s with rxpkt := q, spc := .s3 }

/-- RX part 2 (R185): status, then an error, or the pointer reset and the drain. -/
def State.rxFinish (c : Caller) (len : Nat) (s : State) : State :=
  let r := s.rreg1 s.cfg.aMode
  match rxError s.cfg r.1 with
  | some e => r.2.raiseTo c e (fun s => s.takeError e none none)
  | none =>
    let d := (r.2.strobe s.cfg.cRrst).rreg s.cfg.aFifo len
    d.2.rxDone c d.1

/-- One sample of `WaitBusyClear` in RX (R148, R184). -/
def State.pollRx (len : Nat) (c : Caller) (s : State) : State :=
  let r := s.sampleBusy
  if r.1 then { r.2 with hold := some (.listening len c) } else ({ r.2 with hold := none, tstate := .idle }).rxFinish c len

/-- RX after its checks (R184): listen, wait. -/
def State.rxStart (c : Caller) (len : Nat) (s : State) : State :=
  (({ s with tstate := .receiving }).strobe s.cfg.cRx).pollRx len c

/-- RX (R183): `NotInState`, then `NotConfigured` (entry 20). A code set that breaks P14 is not refused here (DESIGN CHOICE, entry 17). -/
def rxOp (c : Caller) (s : State) : Result :=
  if s.tstate = .idle then
    match s.pktlen with
    | none => .fault .notConfigured
    | some len => .next (s.rxStart c len)
  else .fault .notInState

/-! ### Who moves next (R13, R86; entry 9) -/

/-- A blocked driver operation goes on: one more look at what it waits for. -/
def State.resume (h : Hold) (s : State) : State :=
  match h with
  | .settle c => s.pollSettle c
  | .sending c => s.pollTx c
  | .listening len c => s.pollRx len c

/-- The word of the loop's phase: `SPC` numbered by R122. -/
def Spc.word : Spc → Request
  | .boot => phaseWord 0
  | .s1 => phaseWord 1
  | .s2 => phaseWord 2
  | .s3 => phaseWord 3
  | .s4 => phaseWord 4
  | .s5 => phaseWord 5
  | .s6 => phaseWord 6
  | .s7 => phaseWord 7
  | .s8 => phaseWord 8

/-- What a step does: goes on with a blocked operation, or runs a word. -/
inductive Move
  | resume (h : Hold)
  | run (r : Request)
deriving DecidableEq, Repr

/-- The server loop's move. -/
def State.loopMove (s : State) : Move :=
  match s.hold with
  | some h => .resume h
  | none => .run s.spc.word

/-- The next move, and the state with its turn taken off the schedule; with nothing scheduled the server loop moves. -/
def State.nextMove (s : State) : Move × State :=
  match s.agenda with
  | [] => (s.loopMove, s)
  | .loop :: rest => (s.loopMove, { s with agenda := rest })
  | .request r :: rest => (.run r, { s with agenda := rest })

end Sys2Proof.Machine
end

