-- ==== Sys2Proof/Machine/BusPrimitives.lean ====
section
/-! DEFINITION. WREG, RREG, STROBE, their command-port forms, and the five strobe instances (R145 to R153, R122). Legal in any `TSTATE`
(R31); none can raise an error. -/

namespace Sys2Proof.Machine

/-- WREG issued directly (R145); an empty list is not a legal operand. -/
def directWrite (a : Addr) (l : List Byte) (s : State) : Result :=
  if l.isEmpty then .refused .illegalOperand else .next ((s.wreg a l).answer .ok)

/-- RREG issued directly (R146); `n >= 1`. -/
def directRead (a : Addr) (n : Nat) (s : State) : Result :=
  if n = 0 then .refused .illegalOperand else .next ((s.rreg a n).2.answer (.bytes (s.rreg a n).1))

/-- STROBE issued directly (R147): any code (R104, U3). -/
def directStrobe (k : Nibble) (s : State) : Result := .next ((s.strobe k).answer .ok)

/-- `WREG a, l` (R145). -/
def execWreg (a : Addr) (l : List Byte) (s : State) : Result := directWrite a l s

/-- `RREG a, n` (R146). -/
def execRreg (a : Addr) (n : Nat) (s : State) : Result := directRead a n s

/-- `STROBE c` (R147). -/
def execStrobe (k : Nibble) (s : State) : Result := directStrobe k s

/-- `OP.WREG`: the same operation (R122). -/
def execOpWreg (a : Addr) (l : List Byte) (s : State) : Result := directWrite a l s

/-- `OP.RREG`: the same operation (R122). -/
def execOpRreg (a : Addr) (n : Nat) (s : State) : Result := directRead a n s

/-- `OP.STROBE`: the same operation (R122). -/
def execOpStrobe (k : Nibble) (s : State) : Result := directStrobe k s

/-- `STROBE.PLL = STROBE C_PLL` (R149). -/
def execStrobePll (s : State) : Result := directStrobe s.cfg.cPll s

/-- `STROBE.RX = STROBE C_RX` (R150). -/
def execStrobeRx (s : State) : Result := directStrobe s.cfg.cRx s

/-- `STROBE.TX = STROBE C_TX` (R151). -/
def execStrobeTx (s : State) : Result := directStrobe s.cfg.cTx s

/-- `STROBE.WRST = STROBE C_WRST` (R152). -/
def execStrobeWrst (s : State) : Result := directStrobe s.cfg.cWrst s

/-- `STROBE.RRST = STROBE C_RRST` (R153). -/
def execStrobeRrst (s : State) : Result := directStrobe s.cfg.cRrst s

/-- `OP.RESERVED` (R122): "9 to 15 are not operations and a model refuses them". -/
def execOpReserved (_op : Nibble) (_s : State) : Result := .refused .reservedOperation

end Sys2Proof.Machine
end

