-- ==== Sys2Proof/Machine/Driver.lean ====
section
/-! DEFINITION. The driver operations issued directly: INIT, SETCH, SETID, SETLEN (R160 to R168), TX, RX (R180 to R186), and the two packet
formats as operations (R111, R112; entry 15). -/

namespace Sys2Proof.Machine

/-- An operation that requires `TSTATE = Idle` (R31). -/
def whenIdle (s : State) (t : State) : Result := if s.tstate = .idle then .next t else .fault .notInState

/-- The result of an operation that returns `ok` or an error, to a direct caller (R258). -/
def answerDirect (r : Option Err × State) : State :=
  match r.1 with
  | none => r.2.answer .ok
  | some e => r.2.answer (.err e)

/-- `INIT` (R160). -/
def execInit (s : State) : Result := initOp .direct s

/-- `SETCH ch` (R165). -/
def execSetch (ch : Byte) (s : State) : Result := whenIdle s ((s.setChannel ch).answer .ok)

/-- `SETID id` (R166). -/
def execSetid (id : Word) (s : State) : Result := whenIdle s (answerDirect (s.setId id))

/-- `SETLEN n` (R167). -/
def execSetlen (n : Int) (s : State) : Result := whenIdle s (answerDirect (s.setLength n))

/-- `TX l` (R180). -/
def execTx (l : List Byte) (s : State) : Result := txOp .direct l s

/-- `RX` (R183). -/
def execRx (s : State) : Result := rxOp .direct s

/-- `PKT.HELLO`: a packet with these bytes has been received; it is `RXPKT`, and its decoded record is `HELLO` (R111, R204; entry 15). A
packet of another length than 40 is malformed (R204). -/
def execPktHello (p : HelloPacket) (s : State) : Result :=
  .next (
    if p.bytes.length = helloLen then
      { s with rxpkt := p.bytes, hello := decodeHello s.cfg.bitmapOrder p.bytes, ret := .ok }
    else { s with rxpkt := p.bytes, ret := .err (.protocolError p.bytes.length) })

/-- `PKT.DATAREPLY`: the packet is sent, that is, handed to TX as in S7 (R110, R112, R211; entry 15). -/
def execPktDatareply (p : ReplyPacket) (s : State) : Result :=
  if p.wellFormed then txOp .direct p.bytes s else .refused .illegalOperand

end Sys2Proof.Machine
end

