-- ==== Sys2Proof/Machine/FeedAndScreen.lean ====
section
/-! DEFINITION. The image feed's one step (R230) and the identifier screen (R240 to R246). -/

namespace Sys2Proof.Machine

/-- `PUBLISH b, id` (R230): the whole record, in one step, and nothing else. A buffer of another length is not a legal operand. -/
def execPublish (b : List Byte) (id : Word) (s : State) : Result :=
  if b.length = imageLen then .next { s with image := some ⟨b, id⟩ } else .refused .illegalOperand

/-- `shift32(x, s)` (R241): zero fill, or the 32-bit rotation left by `s mod 32`. -/
def shift32 (k : ShiftKind) (x : Word) (s : Int) : Word :=
  match k with
  | .zeroFill => if 0 ≤ s then x <<< s.toNat else x >>> (-s).toNat
  | .rotate => x.rotateLeft (s % 32).toNat

/-- The number of 1 bits (R242). -/
def popcount32 (x : Word) : Nat := ((List.range 32).filter (fun i => x.getLsbD i)).length

/-- `score(x, s)` (R242). -/
def score (k : ShiftKind) (x : Word) (s : Int) : Nat := 32 - popcount32 (shift32 k x s ^^^ x)

/-- The 63 shifts -31..31 (R243). -/
def shifts : List Int := (List.range 63).map (fun k => (k : Int) - 31)

/-- How many scores exceed `t` (R243). -/
def exceedCount (k : ShiftKind) (t : Nat) (x : Word) : Nat := (shifts.filter (fun s => decide (t < score k x s))).length

/-- How many scores equal `t` (R243). -/
def equalCount (k : ShiftKind) (t : Nat) (x : Word) : Nat := (shifts.filter (fun s => decide (score k x s = t))).length

/-- The acceptance test (R243), as its pseudocode says. At `T = 32` the rule's own corner case "with `T >= 32` every `x` passes" disagrees with
the pseudocode, which rejects an `x` with more than two scores of 32 (`x = 0`); the pseudocode is followed (DESIGN CHOICE, entry 36). -/
def screenAccepts (k : ShiftKind) (t : Nat) (x : Word) : Bool :=
  decide (exceedCount k t x ≤ 1) && decide (equalCount k t x ≤ 2)

/-- The test with the configured threshold and kind of shift (P20, R241). -/
def acceptsIdentifier (c : Config) (x : Word) : Bool := screenAccepts c.shiftKind c.threshold x

/-- `IDSCREEN x` (R243): returns whether `x` passes; pure. -/
def execIdscreen (x : Word) (s : State) : Result := .next (s.answer (.accepted (acceptsIdentifier s.cfg x)))

/-- `PREFIX ++ r` (R245). -/
def candidate (c : Config) (r : BitVec 28) : Word := c.idPrefix ++ r

/-- The next draw of IDSELECT, presented again behind what is already scheduled (R245; entry 22). -/
def selectAgain : List Turn := [.request ⟨.select, [], 0⟩]

/-- `IDSELECT` (R245): one draw; an accepted candidate is returned, else the loop draws again, without bound. -/
def execIdselect (s : State) : Result :=
  let d := s.random
  let x := candidate s.cfg d.1
  .next (if acceptsIdentifier s.cfg x then d.2.answer (.ident x) else { d.2 with agenda := s.agenda ++ selectAgain })

end Sys2Proof.Machine
end

