-- ==== Sys2Proof/Machine/ServerLoop.lean ====
section
/-! DEFINITION. The server loop: BOOT (R285) and S1 to S8 (R200 to R215). A step is enabled when `SPC` is at it and the loop is not blocked
(R40; entry 18). -/

namespace Sys2Proof.Machine

/-- The step `p` of the loop, when it is enabled. -/
def atStep (p : Spc) (s : State) (r : Result) : Result := if s.spc = p ∧ s.hold = none then r else .refused .notEnabled

/-- `BOOT` (R285). -/
def execBoot (s : State) : Result :=
  atStep .boot s (
    if s.bootFailed then .refused .startupEnded
    else if s.cfg.codesLegal then initOp .loop s
    else .refused .illegalConfiguration)

/-- SETID inside a step: on `ok` the loop goes to `next`, else the error goes to the boundary (R201, R210). -/
def setIdStep (id : Word) (next : Spc) (clientId imageId : Option Word) (s : State) : Result :=
  if s.tstate = .idle then
    .next (match (s.setId id).1 with
      | none => { (s.setId id).2 with spc := next }
      | some e => (s.setId id).2.takeError e clientId imageId)
  else .fault .notInState

/-- `S1` (R201): the gateway address. -/
def execS1 (s : State) : Result := atStep .s1 s (setIdStep s.cfg.gatewayId .s2 none none s)

/-- `S2` (R202): receive one packet. -/
def execS2 (s : State) : Result := atStep .s2 s (rxOp .loop s)

/-- The record S3 works on, and whether it was created: count 0, the reported image, the time (R205). -/
def lookupOrCreate (h : Hello) (s : State) : Session × Bool × State :=
  match sessLookup h.clientId s.sess with
  | some x => (x, false, s)
  | none => (⟨h.clientId, h.reportedImageId, 0, s.now.1⟩, true, s.now.2)

/-- The update of S3 on every hello (R206): count, reported image, and the `NewClient` event for a created record. -/
def updateSession (h : Hello) (x : Session) (isNew : Bool) (s : State) : State :=
  let y := { x with receivedCount := x.receivedCount + 1, lastKnownImageId := h.reportedImageId }
  let s1 := { s with hello := h, newClient := isNew, sess := sessPut y s.sess, spc := .s4 }
  if isNew then s1.now.2.logAll [.newClient h.clientId s1.now.1] else s1

/-- Whether a finite session store has no room for one more record (P22, U8; unbounded in the spec). -/
def storeFull (s : State) : Bool :=
  match s.cfg.sessionCapacity with
  | none => false
  | some n => decide (n ≤ s.sess.length)

/-- S3 with a decoded hello (R205, R206). -/
def acceptHello (h : Hello) (s : State) : Result :=
  let r := lookupOrCreate h s
  if r.2.1 ∧ storeFull s then .refused .sessionStoreFull
  else if r.1.receivedCount = 0xFFFFFFFF#32 then .fault .countOverflow
  else .next (updateSession h r.1 r.2.1 r.2.2)

/-- `S3` (R203): decode (R204), look up or create (R205), update (R206). -/
def execS3 (s : State) : Result :=
  atStep .s3 s (
    if s.rxpkt.length = helloLen then acceptHello (decodeHello s.cfg.bitmapOrder s.rxpkt) s
    else .next (s.takeError (.protocolError s.rxpkt.length) none none))

/-- `S4` (R207): the snapshot, whole. -/
def execS4 (s : State) : Result :=
  atStep .s4 s (
    match s.image with
    | none => .fault .noImage
    | some x => .next { s with snap := x, spc := .s5 })

/-- `S5` (R208): chunk selection. -/
def execS5 (s : State) : Result :=
  atStep .s5 s (.next {
    s with
      offset := (selectChunk s.hello s.snap.id).1
      flags := (selectChunk s.hello s.snap.id).2
      spc := .s6 })

/-- `S6` (R210): the client's address. -/
def execS6 (s : State) : Result :=
  atStep .s6 s (setIdStep s.hello.clientId .s7 (some s.hello.clientId) (some s.snap.id) s)

/-- `S7` (R211): transmit the reply. -/
def execS7 (s : State) : Result := atStep .s7 s (txOp .loop (buildReply s.snap s.offset s.flags).bytes s)

/-- The event of S8 (R213). -/
def outcomeEvent (s : State) : LogEvent :=
  if s.flags = 1#16 then .complete s.hello.clientId s.snap.id else .progress s.hello.clientId s.snap.id s.offset

/-- `S8` (R213): log the outcome and loop. -/
def execS8 (s : State) : Result := atStep .s8 s (.next { s.logAll [outcomeEvent s] with spc := .s1 })

end Sys2Proof.Machine
end

