-- ==== Sys2Proof/Machine/Dispatch.lean ====
section
/-! DEFINITION. The meaning of each instruction: one arm, one call. -/

namespace Sys2Proof.Machine

def exec (i : Instr) (s : State) : Host.Outcome State Fault Refusal :=
  match i with
  | .wreg a l => Sys2Proof.Machine.execWreg a l s
  | .rreg a n => Sys2Proof.Machine.execRreg a n s
  | .strobe c => Sys2Proof.Machine.execStrobe c s
  | .strobePll => Sys2Proof.Machine.execStrobePll s
  | .strobeRx => Sys2Proof.Machine.execStrobeRx s
  | .strobeTx => Sys2Proof.Machine.execStrobeTx s
  | .strobeWrst => Sys2Proof.Machine.execStrobeWrst s
  | .strobeRrst => Sys2Proof.Machine.execStrobeRrst s
  | .init => Sys2Proof.Machine.execInit s
  | .setch ch => Sys2Proof.Machine.execSetch ch s
  | .setid id => Sys2Proof.Machine.execSetid id s
  | .setlen n => Sys2Proof.Machine.execSetlen n s
  | .tx l => Sys2Proof.Machine.execTx l s
  | .rx => Sys2Proof.Machine.execRx s
  | .opWreg a l => Sys2Proof.Machine.execOpWreg a l s
  | .opRreg a n => Sys2Proof.Machine.execOpRreg a n s
  | .opStrobe c => Sys2Proof.Machine.execOpStrobe c s
  | .opReserved op => Sys2Proof.Machine.execOpReserved op s
  | .boot => Sys2Proof.Machine.execBoot s
  | .s1 => Sys2Proof.Machine.execS1 s
  | .s2 => Sys2Proof.Machine.execS2 s
  | .s3 => Sys2Proof.Machine.execS3 s
  | .s4 => Sys2Proof.Machine.execS4 s
  | .s5 => Sys2Proof.Machine.execS5 s
  | .s6 => Sys2Proof.Machine.execS6 s
  | .s7 => Sys2Proof.Machine.execS7 s
  | .s8 => Sys2Proof.Machine.execS8 s
  | .publish b id => Sys2Proof.Machine.execPublish b id s
  | .idscreen x => Sys2Proof.Machine.execIdscreen x s
  | .idselect => Sys2Proof.Machine.execIdselect s
  | .pktHello p => Sys2Proof.Machine.execPktHello p s
  | .pktDatareply p => Sys2Proof.Machine.execPktDatareply p s

end Sys2Proof.Machine
end

