-- ==== Sys2Proof/Machine/Step.lean ====
section
/-! DEFINITION. One step: the next turn's move, decoded and run. -/

namespace Sys2Proof.Machine

/-- Decodes a word and runs the instruction; a word that is none is refused by name. -/
def runWord (r : Request) (s : State) : Result :=
  match decode s.cfg r with
  | .ok i => exec i s
  | .error e => .refused (.undecodable e)

/-- One step of the machine. -/
def step (s : State) : Host.Outcome State Fault Refusal :=
  match s.nextMove with
  | (.resume h, s') => .next (s'.resume h)
  | (.run r, s') => runWord r s'

/-- The state with one word of the table presented as the next turn (entry 9). -/
def State.withFetchWord (s : State) (nbits w : Nat) : State :=
  { s with agenda := .request (tableRequest nbits w) :: s.agenda }

end Sys2Proof.Machine
end

