-- ==== Sys2Proof/Safety.lean ====
section
/-! DEFINITION. The terms in which claims about runs are stated: the invariants of the machine, the timing of the pins (R295), what a chip
that samples SDO at rising edges sees (R70), the boot requirements (R286), the two agents' contract (R265, R268), a client that keeps its
bitmap (R209). -/

namespace Sys2Proof.Machine

/-! ### The invariant -/

/-- The position of a blocked operation agrees with `TSTATE` (R30, R41) and with the step it is part of. -/
def positionOk (s : State) : Prop :=
  match s.hold with
  | none => s.tstate = .uninitialized ∨ s.tstate = .idle
  | some (.settle c) => s.tstate = .calibrating ∧ (c = .loop → s.spc = .boot)
  | some (.sending c) => s.tstate = .transmitting ∧ (c = .loop → s.spc = .s7)
  | some (.listening n c) => s.tstate = .receiving ∧ 1 ≤ n ∧ n ≤ 64 ∧ (c = .loop → s.spc = .s2)

/-- What holds at reset and after every step: canonical memories, the pins at rest between frames, legal registers, a position that
agrees with `TSTATE`. -/
structure Inv (s : State) : Prop where
  regsCanonical : s.io.chip.regs.wf
  regsInSpace : ∀ x ∈ s.io.chip.regs, x.1 < 64
  fifoCanonical : s.io.chip.fifo.wf
  fifoInSpace : ∀ x ∈ s.io.chip.fifo, x.1 < fifoSize
  sessCanonical : sessWf s.sess
  csnHigh : s.io.csn = true
  sckLow : s.io.sck = false
  pktlenLegal : ∀ n, s.pktlen = some n → 1 ≤ n ∧ n ≤ 64
  imageWhole : ∀ x, s.image = some x → x.bytes.length = imageLen
  snapWhole : s.snap.bytes.length = imageLen
  offsetLegal : s.offset.toNat % chunk = 0 ∧ s.offset.toNat ≤ imageLen
  flagsLegal : s.flags.toNat ≤ 1
  missingLength : s.hello.missing.length = missingFlags
  countsPositive : ∀ x ∈ s.sess, 1 ≤ x.receivedCount.toNat
  position : positionOk s
  started : s.spc ≠ .boot → s.pktlen.isSome = true ∧ s.tstate ≠ .uninitialized

/-! ### Pin timing (R140, R295). The traces are newest first. -/

/-- The level of CSN after a trace; 1 before any event (R55). -/
def csnAfter : List PinEvent → Bool
  | [] => true
  | .csn b :: _ => b
  | _ :: t => csnAfter t

/-- The level of SCK after a trace; 0 before any event (R55). -/
def sckAfter : List PinEvent → Bool
  | [] => false
  | .sck b :: _ => b
  | _ :: t => sckAfter t

/-- Whether an event may follow a trace (R295): CSN changes only while SCK is low; the clock moves, the data line is set (before a rising
edge) and SDI is sampled (while the clock is high) only inside a frame; BUSY is polled only between frames. -/
def eventAllowed (t : List PinEvent) : PinEvent → Bool
  | .csn _ => !sckAfter t
  | .sck b => !csnAfter t && (sckAfter t != b)
  | .sdo _ => !csnAfter t && !sckAfter t
  | .sdi _ => !csnAfter t && sckAfter t
  | .busy _ => csnAfter t

/-- Every event of a trace was allowed when it happened. -/
def wellTimed : List PinEvent → Bool
  | [] => true
  | e :: t => wellTimed t && eventAllowed t e

/-- The pins are where their trace left them, and the trace is well timed (R295). -/
def PinsTimed (s : State) : Prop :=
  wellTimed s.io.pinTrace = true ∧ csnAfter s.io.pinTrace = s.io.csn ∧ sckAfter s.io.pinTrace = s.io.sck ∧ s.io.csn = true ∧ s.io.sck = false

/-- The levels of SDO that were set and then sampled at a rising edge since CSN last fell, newest first (R70). -/
def sampledSdo : List PinEvent → List Bool
  | [] => []
  | .csn false :: _ => []
  | .sck true :: .sdo b :: t => b :: sampledSdo t
  | _ :: t => sampledSdo t

/-- The levels of SDI the block sampled since CSN last fell, newest first (R143). -/
def sampledSdi : List PinEvent → List Bool
  | [] => []
  | .csn false :: _ => []
  | .sdi b :: t => b :: sampledSdi t
  | _ :: t => sampledSdi t

/-- Whole clock pulses since CSN last fell: the falling edges (R68). -/
def pulses : List PinEvent → Nat
  | [] => 0
  | .csn false :: _ => 0
  | .sck false :: t => pulses t + 1
  | _ :: t => pulses t

/-- The events of sending bytes, oldest first: for each bit the data line, then the clock up and down (R142, R144). -/
def sendEvents (l : List Byte) : List PinEvent := (l.flatMap byteBits).flatMap (fun b => [.sdo b, .sck true, .sck false])

/-- The events of receiving bytes, oldest first: for each bit the clock up, the sample, the clock down (R143, R144). -/
def receiveEvents (l : List Byte) : List PinEvent := (l.flatMap byteBits).flatMap (fun b => [.sck true, .sdi b, .sck false])

/-- The events of a frame, oldest first (R141). -/
def frameEvents (out q : List Byte) : List PinEvent := [.csn false] ++ sendEvents out ++ receiveEvents q ++ [.csn true]

/-! ### Frame formats (R101, R104) -/

/-- The record of a write frame. -/
def writeRecord (a : Addr) (l : List Byte) : FrameRecord := ⟨writeByte a :: l, []⟩

/-- The record of a read frame. -/
def readRecord (a : Addr) (q : List Byte) : FrameRecord := ⟨[readByte a], q⟩

/-- The record of a strobe frame. -/
def strobeRecord (k : Nibble) : FrameRecord := ⟨[strobeByte k], []⟩

/-- The frames of INIT before the settle wait (R161, R162). -/
def initProgram (c : Config) : List FrameRecord :=
  c.initSeq.map (fun x => writeRecord x.1 x.2) ++ c.calClearSeq.map (fun x => writeRecord x.1 x.2)
    ++ [strobeRecord c.cPll, writeRecord c.aCalctl [c.vCalctl]]

/-- The chip after some frames, in order (R81). -/
def afterFrames (c : Config) (l : List FrameRecord) (k : Chip) : Chip :=
  l.foldl (fun k r => k.afterFrame c r.out r.q) k

/-- What frames alone decide of the chip, whether it listens or not: registers, identifier, write pointer, read pointer (R62, R74), the mode. -/
def Chip.base (k : Chip) : Memory × Option Word × Option Nat × Option Nat × ChipMode := (k.regs, k.ident, k.wptr, k.rptr, k.mode)

/-- The FIFO bytes known in `m` are known, and the same, in `m'`. -/
def Memory.within (m m' : Memory) : Prop := ∀ a v, m.read a = some v → m'.read a = some v

/-- What frames alone decide of a chip that does not listen: the same, the FIFO, and whether it listens. -/
def Chip.places (k : Chip) : (Memory × Option Word × Option Nat × Option Nat × ChipMode) × Memory × Bool := (k.base, k.fifo, k.listening)

/-- None of the frames is sent while the chip listens, so that no packet arrives before one of them (R76, U11). -/
def unheard (c : Config) : List FrameRecord → Chip → Prop
  | [], _ => True
  | f :: fs, k => k.listening = false ∧ unheard c fs (k.afterFrame c f.out f.q)

/-- Between `s` and `t` exactly the frames `fs` were sent: they join the history; registers, identifier, pointers and mode of the chip are what
these frames leave in them, and so is the FIFO, if none of them was sent while the chip listened; if one was, a packet may have been stored (R76)
or, without CP5, what the FIFO holds need not be known any more, and what is known is what these frames leave (U11); CSN is back at its resting
level, and no premise has changed. -/
structure Sent (s t : State) (fs : List FrameRecord) : Prop where
  history : t.io.history = s.io.history ++ fs
  base : t.io.chip.base = (afterFrames s.cfg fs s.io.chip).base
  places : unheard s.cfg fs s.io.chip → t.io.chip.places = (afterFrames s.cfg fs s.io.chip).places
  fifo : s.io.env.premises.cp5 = false → t.io.chip.fifo.within (afterFrames s.cfg fs s.io.chip).fifo
  csn : s.io.csn = true → t.io.csn = true
  premises : t.io.env.premises = s.io.env.premises

/-- No frame was sent and nothing behind the pins has changed but what the environment will supply next. -/
def NoFrame (s t : State) : Prop := t.io = { s.io with env := t.io.env } ∧ t.io.env.premises = s.io.env.premises

/-- A frame of one of the three formats, with as many bytes received as its format receives. -/
def legalFrame (r : FrameRecord) : Prop :=
  (∃ a l, l ≠ [] ∧ r.out = writeByte a :: l ∧ r.q = []) ∨
  (∃ a, r.out = [readByte a] ∧ r.q ≠ []) ∨
  (∃ k, r.out = [strobeByte k] ∧ r.q = [])

/-- The register programs hold legal writes: no empty byte list (P8, P9). -/
def seqsLegal (c : Config) : Prop :=
  (∀ x ∈ c.initSeq, x.2 ≠ []) ∧ (∀ x ∈ c.calClearSeq, x.2 ≠ [])

/-- Every frame sent so far has one of the three formats, in a machine whose register programs are legal. -/
def FramesLegal (s : State) : Prop := seqsLegal s.cfg ∧ ∀ r ∈ s.io.history, legalFrame r

/-- The step after a completed one (R40). -/
def Spc.advance : Spc → Spc
  | .boot => .s1
  | .s1 => .s2
  | .s2 => .s3
  | .s3 => .s4
  | .s4 => .s5
  | .s5 => .s6
  | .s6 => .s7
  | .s7 => .s8
  | .s8 => .s1

/-! ### Who writes what (R265) -/

/-- The instructions that send frames or sample BUSY: those of unit T, and the steps that issue them. -/
def drivesPins : Instr → Bool
  | .wreg _ _ => true
  | .rreg _ _ => true
  | .strobe _ => true
  | .strobePll => true
  | .strobeRx => true
  | .strobeTx => true
  | .strobeWrst => true
  | .strobeRrst => true
  | .init => true
  | .setch _ => true
  | .setid _ => true
  | .setlen _ => true
  | .tx _ => true
  | .rx => true
  | .opWreg _ _ => true
  | .opRreg _ _ => true
  | .opStrobe _ => true
  | .opReserved _ => false
  | .boot => true
  | .s1 => true
  | .s2 => true
  | .s3 => false
  | .s4 => false
  | .s5 => false
  | .s6 => true
  | .s7 => true
  | .s8 => false
  | .publish _ _ => false
  | .idscreen _ => false
  | .idselect => false
  | .pktHello _ => false
  | .pktDatareply _ => true

/-- A blocked operation that is part of a step of the loop. -/
def Hold.inLoop : Hold → Bool
  | .settle c => decide (c = .loop)
  | .sending c => decide (c = .loop)
  | .listening _ c => decide (c = .loop)

/-! ### Runs -/

/-- The outcome of `n` steps. -/
def afterSteps : Nat → State → Result
  | 0, s => .next s
  | n + 1, s =>
    match step s with
    | .next t => afterSteps n t
    | .fault f => .fault f
    | .refused r => .refused r

/-! ### Numbers in packets (R65 c) -/

/-- The number whose bytes are `l`, the first least significant. -/
def leValue (l : List Byte) : Nat := l.foldr (fun b n => b.toNat + 256 * n) 0

/-! ### Configuration and boot requirements (R8, R286) -/

/-- The constraints of the table of R8. -/
structure LegalConfig (c : Config) : Prop where
  codes : c.codesLegal = true
  crcNonzero : c.mCrcf ≠ 0#8
  fecNonzero : c.mFecf ≠ 0#8
  disjoint : c.mCrcf &&& c.mFecf = 0#8
  calIfNonzero : c.mCalIf ≠ 0#8
  calVcocNonzero : c.mCalVcoc ≠ 0#8
  calVcobNonzero : c.mCalVcob ≠ 0#8
  seqs : seqsLegal c
  pktlen : pktMin ≤ c.pktlenCfg ∧ c.pktlenCfg ≤ pktMax

/-- What must hold before the loop's rules hold, as far as the block's state shows it (R286 a, b, c). -/
structure BootReady (s : State) : Prop where
  legal : LegalConfig s.cfg
  length : s.cfg.pktlenCfg = 40
  published : s.image.isSome = true
  gateway : acceptsIdentifier s.cfg s.cfg.gatewayId = true

/-- An ordinary register of premise CP1 (R72): not the FIFO, not the identifier, not mode/status, not a calibration status register, not the
register the chip is reset through. -/
def ordinary (c : Config) (a : Addr) : Prop :=
  a ≠ c.aFifo ∧ a ≠ c.aId ∧ a ≠ c.aMode ∧ a ≠ c.aCalIf ∧ a ≠ c.aCalVcoc ∧ a ≠ c.aCalVcob ∧ resetReg c ≠ some a

/-- The registers and codes a chip must be able to tell apart, for the statements about a packet sent or received, with the constraints of R8
on the two masks. -/
structure ChipApart (c : Config) : Prop where
  codes : c.codesLegal = true
  fifoMode : c.aFifo ≠ c.aMode
  modeId : c.aMode ≠ c.aId
  masks : c.mCrcf &&& c.mFecf = 0#8
  crcNonzero : c.mCrcf ≠ 0#8
  fecNonzero : c.mFecf ≠ 0#8

/-- The registers a chip must be able to tell apart for premise CP8 (R79), with the constraints of R8 on the three masks. -/
structure CalApart (c : Config) : Prop where
  codes : c.codesLegal = true
  fifo : c.aFifo ∉ [c.aCalctl, c.aCalIf, c.aCalVcoc, c.aCalVcob]
  ident : c.aId ∉ [c.aCalctl, c.aCalIf, c.aCalVcoc, c.aCalVcob]
  mode : c.aMode ∉ [c.aCalIf, c.aCalVcoc, c.aCalVcob]
  status : [c.aCalIf, c.aCalVcoc, c.aCalVcob].Nodup
  reset : resetReg c ≠ some c.aCalctl
  calIfNonzero : c.mCalIf ≠ 0#8
  calVcocNonzero : c.mCalVcoc ≠ 0#8
  calVcobNonzero : c.mCalVcob ≠ 0#8

/-! ### The two agents' contract (R265, R268) -/

/-- A turn the two agents of the block take: the loop moves, or the feed publishes a whole image. -/
def ownTurn (c : Config) : Turn → Prop
  | .loop => True
  | .request r => ∃ b id, decode c r = .ok (.publish b id)

/-- Nobody but the server loop and the feed is scheduled. -/
def OwnAgents (s : State) : Prop := ∀ t ∈ s.agenda, ownTurn s.cfg t

/-! ### A client that keeps its bitmap (R209) -/

/-- The bitmap after one round: the chunk served is no longer missing. -/
def serveOne (l : List Bool) : List Bool :=
  match firstMissing l with
  | some k => l.set k false
  | none => l

/-- The bitmap after some rounds. -/
def serveRounds : Nat → List Bool → List Bool
  | 0, l => l
  | n + 1, l => serveRounds n (serveOne l)

end Sys2Proof.Machine
end

