-- ==== Sys2Proof/Certificates/Slice0/Obligations.lean ====
section
/-! DEFINITION. The statements for the provers. Each is about every state that meets its hypotheses, reachable or not. "Kept" below means: a
field not named in `{ s with ... }` is as before. -/

open Sys2Proof Sys2Proof.Machine

/-! ## Encoding -/

/-- Every well-formed instruction, with every operand, is what the decoder reads from its word. -/
def Obligations.EncodedInstructionsDecodeBack : Prop :=
  ∀ (c : Config) (i : Instr), i.wellFormed c = true → decode c (encode c i) = .ok i

/-- The decoder gives legal instructions only, and each word is the word of the one instruction it decodes to. -/
def Obligations.DecodedWordsAreLegalAndEncodeBack : Prop :=
  ∀ (c : Config) (r : Request) (i : Instr), decode c r = .ok i → i.wellFormed c = true ∧ encode c i = r

/-- Words written out from R101 and R122 decode to what they stand for (V20 to V27). The operand bytes after the command number, those of SETID
and SETLEN, are the model's own (entries 10 and 26). -/
def Obligations.WordsOfTheSpecDecode : Prop :=
  ∀ c : Config,
    decode c ⟨.bus, [0x3F, 0xA5], 0⟩ = .ok (.wreg 0x3F [0xA5]) ∧
    decode c ⟨.bus, [0x46], 4⟩ = .ok (.rreg 0x06 4) ∧
    decode c ⟨.bus, [0xD0], 0⟩ = .ok (.strobe 0xD) ∧
    decode c ⟨.command, [0x05, 0x12, 0x34, 0x56, 0x78], 0⟩ = .ok (.setid 0x12345678) ∧
    decode c ⟨.command, [0x06, 0xFF, 0xFF, 0xFF, 0xFF], 0⟩ = .ok (.setlen (-1)) ∧
    decode c ⟨.phase, [0x05], 0⟩ = .ok .s5 ∧
    decode c ⟨.bus, [0xD1], 0⟩ = .error .reservedFirstByte

/-- The fields of frames (R102): address bytes, strobe nibble, length minus one, the identity's byte order both ways. -/
def Obligations.FrameFieldsAreAssembledAsStated : Prop :=
  (∀ a : Addr, (writeByte a).toNat = a.toNat ∧ (readByte a).toNat = a.toNat + 64) ∧
  (∀ k : Nibble, (strobeByte k).toNat = k.toNat * 16) ∧
  (∀ n : Int, 1 ≤ n → n ≤ 64 → ((lengthByte n).toNat : Int) = n - 1) ∧
  (∀ id : Word, toBe32 id = [id.extractLsb' 24 8, id.extractLsb' 16 8, id.extractLsb' 8 8, id.extractLsb' 0 8]) ∧
  (∀ q0 q1 q2 q3 : Byte, be32List [q0, q1, q2, q3] = q0 ++ q1 ++ q2 ++ q3)

/-! ## Pins and frames -/

/-- R144: a byte sent puts its bits on SDO, bit 7 first, one per rising edge; a byte received is made of eight samples of SDI, the first
one bit 7. The sampled lists are newest first. -/
def Obligations.BytesGoMostSignificantBitFirst : Prop :=
  (∀ (v : Byte) (io : Io), ∃ bits : List Bool, bits.length = 8 ∧ (∀ k < 8, bits[k]? = some (v.getLsbD (7 - k))) ∧
    sampledSdo (io.byteOut v).pinTrace = bits.reverse ++ sampledSdo io.pinTrace ∧
    pulses (io.byteOut v).pinTrace = pulses io.pinTrace + 8) ∧
  (∀ (d : Option Byte) (io : Io), ∃ bits : List Bool, bits.length = 8 ∧
    (∀ k < 8, bits[k]? = some ((io.byteIn d).1.getLsbD (7 - k))) ∧
    sampledSdi (io.byteIn d).2.pinTrace = bits.reverse ++ sampledSdi io.pinTrace ∧
    pulses (io.byteIn d).2.pinTrace = pulses io.pinTrace + 8)

/-- A frame drives exactly its events, in order: CSN low, the bytes out, `n` bytes in, CSN high; it returns the `n` bytes and appends one
record; it does not look at BUSY (R141 to R143; that the falling edge is the last action of each bit is decision D2). The chip performs its
effect (R70, R81; what is kept of it is entry 21): in registers, identifier, pointers and mode; in every place, of a chip that does not listen
as it was, of one that listens as it was, or with a packet received that it hears (R76), or, without CP5, with its FIFO not known (U11, entry
32); and, where no transmission can be under way, in all of the chip. -/
def Obligations.FrameIsOneTransaction : Prop :=
  ∀ (c : Config) (out : List Byte) (n : Nat) (io : Io),
    (io.frame c out n).1.length = n ∧
    (io.frame c out n).2.history = io.history ++ [⟨out, (io.frame c out n).1⟩] ∧
    (io.frame c out n).2.pinTrace.reverse = io.pinTrace.reverse ++ frameEvents out (io.frame c out n).1 ∧
    (io.frame c out n).2.csn = true ∧
    (io.sck = false → (io.frame c out n).2.sck = false) ∧
    (io.frame c out n).2.chip.base = (io.chip.afterFrame c out (io.frame c out n).1).base ∧
    (io.chip.listening = false →
      (io.frame c out n).2.chip.places = (io.chip.afterFrame c out (io.frame c out n).1).places ∧
      (io.chip.mode ≠ .tx ∨ io.env.premises.cp4 = false → (io.frame c out n).2.chip = io.chip.afterFrame c out (io.frame c out n).1)) ∧
    (io.chip.listening = true → io.env.premises.cp5 = true → io.chip.unknown = false →
      (io.frame c out n).2.chip.places = (io.chip.afterFrame c out (io.frame c out n).1).places ∨
      ∃ p ∈ io.env.airIn, hears c io.chip p ≠ some false ∧
        (io.frame c out n).2.chip.places = ((io.chip.receive c p).afterFrame c out (io.frame c out n).1).places) ∧
    (io.chip.listening = true → io.env.premises.cp5 = false ∨ io.chip.unknown = true →
      (io.frame c out n).2.chip = ({ io.chip with fifo := [] } : Chip).afterFrame c out (io.frame c out n).1) ∧
    (io.frame c out n).2.busy = io.busy

/-- Which bytes of the chip's memories a frame changes: a write of register `a` only that register; a write of the FIFO only the bytes from
the write pointer on, whether the chip listens or not (R62), unless nothing is known of the FIFO afterwards (no known pointer, more than 64
bytes: entry 31); a write of `A_ID` the identity. Not so for the register the chip is reset through, the first of INIT_SEQ by entry 21. Reads
and strobes change none. That bytes land at the pointer is premise CP3 (R74). -/
def Obligations.FramesChangeOnlyTheBytesWritten : Prop :=
  ∀ (c : Config) (a : Addr) (l q : List Byte) (b : Nibble) (k : Chip), l ≠ [] → q ≠ [] →
    (resetReg c ≠ some a → ∀ x, x ≠ a.toNat → (k.afterFrame c (writeByte a :: l) []).regs.read x = k.regs.read x) ∧
    (a ≠ c.aFifo → resetReg c ≠ some a → (k.afterFrame c (writeByte a :: l) []).fifo = k.fifo) ∧
    (a ≠ c.aId → resetReg c ≠ some a → (k.afterFrame c (writeByte a :: l) []).ident = k.ident) ∧
    (ordinary c a → ∀ v, l = [v] → (k.afterFrame c (writeByte a :: l) []).regs.read a.toNat = some v) ∧
    (a = c.aId → a ≠ c.aFifo → l.length = 4 → (k.afterFrame c (writeByte a :: l) []).ident = some (be32List l)) ∧
    (a = c.aFifo → (k.afterFrame c (writeByte a :: l) []).regs = k.regs ∧
      (k.afterFrame c (writeByte a :: l) []).wptr = k.wptr.map (fun w => w + l.length) ∧
      (∀ w, k.wptr = some w → w + l.length ≤ 64 →
        (∀ x, x < w ∨ w + l.length ≤ x → (k.afterFrame c (writeByte a :: l) []).fifo.read x = k.fifo.read x) ∧
        (∀ (j : Nat) (h : j < l.length), (k.afterFrame c (writeByte a :: l) []).fifo.read (w + j) = some l[j])) ∧
      (k.wptr = none ∨ (∃ w, k.wptr = some w ∧ 64 < w + l.length) →
        (k.afterFrame c (writeByte a :: l) []).fifo = [])) ∧
    ((k.afterFrame c [readByte a] q).regs = k.regs ∧ (k.afterFrame c [readByte a] q).fifo = k.fifo ∧
      (k.afterFrame c [readByte a] q).ident = k.ident ∧
      (k.afterFrame c [readByte a] q).rptr = if a = c.aFifo then k.rptr.map (fun p => p + q.length) else k.rptr) ∧
    ((k.afterFrame c [strobeByte b] []).regs = k.regs ∧ (k.afterFrame c [strobeByte b] []).ident = k.ident ∧
      (k.afterFrame c [strobeByte b] []).fifo = k.fifo)

/-! ## Bus primitives -/

/-- WREG, on the bus and on the command port, sends one write frame in any `TSTATE` and writes no block state. -/
def Obligations.WriteOperationsComplete : Prop :=
  ∀ (i : Instr) (a : Addr) (l : List Byte) (s : State), (i = .wreg a l ∨ i = .opWreg a l) → l ≠ [] →
    ∃ t, exec i s = .next t ∧ t = { s with io := t.io, ret := .ok } ∧ Sent s t [writeRecord a l]

/-- RREG, on the bus and on the command port, sends one read frame in any `TSTATE`, returns its `n` bytes and writes no block state. -/
def Obligations.ReadOperationsComplete : Prop :=
  ∀ (i : Instr) (a : Addr) (n : Nat) (s : State), (i = .rreg a n ∨ i = .opRreg a n) → 0 < n →
    ∃ t q, exec i s = .next t ∧ q.length = n ∧ t = { s with io := t.io, ret := .bytes q } ∧ Sent s t [readRecord a q]

/-- STROBE, on the bus and on the command port, and the five strobe instances send one strobe frame with their code, in any `TSTATE`, and
write no block state. After a code outside P14 every premise is void (U3); a code of a legal set leaves them as they were. -/
def Obligations.StrobesComplete : Prop :=
  ∀ (i : Instr) (k : Nibble) (s : State),
    (i = .strobe k ∨ i = .opStrobe k ∨ (i = .strobePll ∧ k = s.cfg.cPll) ∨ (i = .strobeRx ∧ k = s.cfg.cRx) ∨
      (i = .strobeTx ∧ k = s.cfg.cTx) ∨ (i = .strobeWrst ∧ k = s.cfg.cWrst) ∨ (i = .strobeRrst ∧ k = s.cfg.cRrst)) →
    ∃ t, exec i s = .next t ∧ t = { s with io := t.io, ret := .ok } ∧ Sent s t [strobeRecord k] ∧
      (k ∉ s.cfg.codes → t.io.chip.unknown = true) ∧
      (k ∈ s.cfg.codes → s.cfg.codesLegal = true → t.io.chip.unknown = s.io.chip.unknown)

/-- As premise CP3 reads them (R74, R152, R153) the pointer strobes set the chip's FIFO pointers to 0 and change nothing else; and a read of the
FIFO returns its bytes from the read pointer on, and moves the pointer past them (R62). This holds of a chip that does not listen, and of one that
listens under CP5 while no packet is on the air. -/
def Obligations.PointerStrobesResetThePointers : Prop :=
  (∀ (c : Config) (k : Chip), c.codesLegal = true →
    k.afterFrame c [strobeByte c.cWrst] [] = { k with wptr := some 0 } ∧
    k.afterFrame c [strobeByte c.cRrst] [] = { k with rptr := some 0 }) ∧
  (∀ (q : List Byte) (p : Nat) (s : State), q ≠ [] → s.io.env.premises.cp3 = true → s.io.chip.unknown = false → s.io.chip.rptr = some p →
    (∀ (j : Nat) (h : j < q.length), s.io.chip.fifo.read (p + j) = some q[j]) →
    s.io.chip.listening = false ∨ s.io.env.premises.cp5 = true ∧ s.io.env.airIn = [] →
    ∃ t, exec (.rreg s.cfg.aFifo q.length) s = .next t ∧ t.ret = .bytes q ∧ t.io.chip.rptr = some (p + q.length))

/-- What is no legal operand (entry 19), a data reply the block does not send (R113; that the row is an operation at all is entry 15), and
what is no operation, is refused by name and nothing else. -/
def Obligations.IllegalOperandsAndReservedCommandsAreRefused : Prop :=
  ∀ (a : Addr) (op : Nibble) (b : List Byte) (id : Word) (p : ReplyPacket) (s : State),
    exec (.wreg a []) s = .refused .illegalOperand ∧ exec (.opWreg a []) s = .refused .illegalOperand ∧
    exec (.rreg a 0) s = .refused .illegalOperand ∧ exec (.opRreg a 0) s = .refused .illegalOperand ∧
    exec (.opReserved op) s = .refused .reservedOperation ∧
    (b.length ≠ imageLen → exec (.publish b id) s = .refused .illegalOperand) ∧
    (p.wellFormed = false → exec (.pktDatareply p) s = .refused .illegalOperand)

/-- Under `ChipAny` (R71), and whatever is assumed once the premises are void (U3), a read returns exactly the levels the environment supplies,
eight to a byte, and uses them up. -/
def Obligations.UnconstrainedReadsReturnWhatSdiSupplies : Prop :=
  ∀ (a : Addr) (q : List Byte) (rest : List Bool) (s : State), q ≠ [] →
    s.io.env.premises = Premises.none ∨ s.io.chip.unknown = true → s.io.env.sdiIn = q.flatMap byteBits ++ rest →
    ∃ t, exec (.rreg a q.length) s = .next t ∧ t.ret = .bytes q ∧ t.io.env.sdiIn = rest

/-! ## Configuration operations -/

/-- INIT from Uninitialized sends its program; when the settle time has passed it reads the three status registers, logs one warning per
register whose masked bits are set, in order, and is Idle in every case. Under premise CP8 (R79) INIT begins the calibration, and a register's
masked bits are clear if and only if that calibration succeeded, which the environment chooses. -/
def Obligations.InitCompletes : Prop :=
  (∀ (r : List Bool) (s : State), s.tstate = .uninitialized → s.hold = none → s.io.env.settleIn = true :: r →
    ∃ t s1 s2 s3, exec .init s = .next t ∧
      Sent s t (initProgram s.cfg ++ [readRecord s.cfg.aCalIf [s1], readRecord s.cfg.aCalVcoc [s2], readRecord s.cfg.aCalVcob [s3]]) ∧
      t = { s with io := t.io, tstate := .idle, ret := .ok, log := s.log ++ calWarnings s.cfg s1 s2 s3 }) ∧
  (∀ s : State, s.tstate = .uninitialized → CalApart s.cfg → seqsLegal s.cfg → s.io.chip.unknown = false →
    ∃ t, exec .init s = .next t ∧ (t.hold = some (.settle .direct) → t.io.chip.cal = .started ∧ t.io.chip.unknown = false)) ∧
  (∀ (b1 b2 b3 : Bool) (r r' : List Bool) (s : State), s.agenda = [] → s.hold = some (.settle .direct) → CalApart s.cfg →
    s.io.env.premises.cp8 = true → s.io.chip.unknown = false → s.io.chip.cal = .started → s.io.env.settleIn = true :: r →
    s.io.env.choiceIn = b1 :: b2 :: b3 :: r' →
    ∃ t s1 s2 s3, step s = .next t ∧ t.tstate = .idle ∧ t.log = s.log ++ calWarnings s.cfg s1 s2 s3 ∧
      (s1 &&& s.cfg.mCalIf = 0 ↔ b1 = true) ∧ (s2 &&& s.cfg.mCalVcoc = 0 ↔ b2 = true) ∧ (s3 &&& s.cfg.mCalVcob = 0 ↔ b3 = true))

/-- INIT always answers a next state from Uninitialized: done, or held in Calibrating at the settle wait with its program sent; and from
there the wait's end does part 4. INIT held as part of BOOT goes on with SETCH and SETLEN and starts the loop, or, with an illegal packet length,
ends start-up (what is left then: entry 17). -/
def Obligations.InitWaitsForTheSettleTime : Prop :=
  (∀ s : State, s.tstate = .uninitialized → ∃ t, exec .init s = .next t ∧
    (t.tstate = .idle ∧ t.hold = none ∨
      t = { s with io := t.io, tstate := .calibrating, hold := some (.settle .direct) } ∧ Sent s t (initProgram s.cfg))) ∧
  (∀ (r : List Bool) (s : State), s.agenda = [] → s.hold = some (.settle .direct) → s.io.env.settleIn = true :: r →
    ∃ t s1 s2 s3, step s = .next t ∧
      Sent s t [readRecord s.cfg.aCalIf [s1], readRecord s.cfg.aCalVcoc [s2], readRecord s.cfg.aCalVcob [s3]] ∧
      t = { s with io := t.io, tstate := .idle, hold := none, ret := .ok, log := s.log ++ calWarnings s.cfg s1 s2 s3 }) ∧
  (∀ (r : List Bool) (s : State), s.agenda = [] → s.hold = some (.settle .loop) → s.io.env.settleIn = true :: r →
    ∃ t s1 s2 s3, step s = .next t ∧
      (pktMin ≤ s.cfg.pktlenCfg ∧ s.cfg.pktlenCfg ≤ pktMax →
        Sent s t [readRecord s.cfg.aCalIf [s1], readRecord s.cfg.aCalVcoc [s2], readRecord s.cfg.aCalVcob [s3],
          writeRecord s.cfg.aChannel [s.cfg.channelCfg], writeRecord s.cfg.aPktlen [lengthByte s.cfg.pktlenCfg]] ∧
        t = { s with
          io := t.io, tstate := .idle, hold := none, channel := some s.cfg.channelCfg, pktlen := some s.cfg.pktlenCfg.toNat, spc := .s1,
          log := s.log ++ calWarnings s.cfg s1 s2 s3 }) ∧
      (s.cfg.pktlenCfg < pktMin ∨ pktMax < s.cfg.pktlenCfg →
        Sent s t [readRecord s.cfg.aCalIf [s1], readRecord s.cfg.aCalVcoc [s2], readRecord s.cfg.aCalVcob [s3],
          writeRecord s.cfg.aChannel [s.cfg.channelCfg]] ∧
        t = { s with
          io := t.io, tstate := .idle, hold := none, channel := some s.cfg.channelCfg, bootFailed := true,
          ret := .err (.packetLengthRange s.cfg.pktlenCfg), log := s.log ++ calWarnings s.cfg s1 s2 s3 }))

/-- SETCH in Idle writes the channel register and the shadow. -/
def Obligations.SetchCompletes : Prop :=
  ∀ (ch : Byte) (s : State), s.tstate = .idle →
    ∃ t, exec (.setch ch) s = .next t ∧ t = { s with io := t.io, channel := some ch, ret := .ok } ∧
      Sent s t [writeRecord s.cfg.aChannel [ch]]

/-- SETID in Idle writes the identity big-endian and reads it back; it returns `ok` exactly when the echo equals it, else `IdMismatch`, and
the shadow says which. That the shadow becomes `none` on a mismatch is the spec's decision D12. After a mismatch the chip's identity is not known
either (R298, U5). -/
def Obligations.SetidCompletesOrReportsTheMismatch : Prop :=
  ∀ (id : Word) (s : State), s.tstate = .idle →
    ∃ t u q0 q1 q2 q3, exec (.setid id) s = .next t ∧
      Sent s u [writeRecord s.cfg.aId (toBe32 id), readRecord s.cfg.aId [q0, q1, q2, q3]] ∧
      (be32 q0 q1 q2 q3 = id → t = { s with io := u.io, deviceId := some id, ret := .ok }) ∧
      (be32 q0 q1 q2 q3 ≠ id → t = { s with
        io := { u.io with chip.ident := none }, deviceId := none, ret := .err (.idMismatch id (be32 q0 q1 q2 q3)) }) ∧
      (s.cfg.aId ≠ s.cfg.aFifo → t.io.chip.ident = if be32 q0 q1 q2 q3 = id then some id else none)

/-- SETLEN in Idle: 1 to 64 writes length minus one and the shadow; any other integer is a range error with no frame and nothing written. -/
def Obligations.SetlenCompletesOrReportsTheRange : Prop :=
  ∀ (n : Int) (s : State), s.tstate = .idle →
    ∃ t, exec (.setlen n) s = .next t ∧
      (1 ≤ n ∧ n ≤ 64 → t = { s with io := t.io, pktlen := some n.toNat, ret := .ok } ∧
        Sent s t [writeRecord s.cfg.aPktlen [lengthByte n]]) ∧
      (n < 1 ∨ 64 < n → t = { s with ret := .err (.packetLengthRange n) })

/-- An operation issued in another `TSTATE` than R31 requires is the model fault `NotInState`, for the driver operations and for the steps
that issue them, BOOT among them; the bus primitives are not among them. The requirement is the spec's decision D19; that TSTATE is tested before
PKTLEN is entry 20; that PKT.DATAREPLY is TX is entry 15. -/
def Obligations.OperationsInTheWrongStateFault : Prop :=
  ∀ (ch : Byte) (id : Word) (n : Int) (l : List Byte) (p : ReplyPacket) (s : State),
    (s.tstate ≠ .uninitialized → exec .init s = .fault .notInState ∧
      (s.spc = .boot → s.hold = none → s.bootFailed = false → s.cfg.codesLegal = true → exec .boot s = .fault .notInState)) ∧
    (s.tstate ≠ .idle →
      exec (.setch ch) s = .fault .notInState ∧ exec (.setid id) s = .fault .notInState ∧
      exec (.setlen n) s = .fault .notInState ∧ exec (.tx l) s = .fault .notInState ∧ exec .rx s = .fault .notInState ∧
      (p.wellFormed = true → exec (.pktDatareply p) s = .fault .notInState) ∧
      (s.hold = none →
        (s.spc = .s1 → exec .s1 s = .fault .notInState) ∧ (s.spc = .s2 → exec .s2 s = .fault .notInState) ∧
        (s.spc = .s6 → exec .s6 s = .fault .notInState) ∧ (s.spc = .s7 → exec .s7 s = .fault .notInState)))

/-- Premise CP1 (R72) and the property of V1: after SETCH a read of the channel register returns the channel. -/
def Obligations.ChannelReadsBackUnderRegisterHold : Prop :=
  ∀ (ch : Byte) (s : State), s.tstate = .idle → s.io.env.premises.cp1 = true → s.io.chip.unknown = false →
    ordinary s.cfg s.cfg.aChannel →
    ∃ t u, exec (.setch ch) s = .next t ∧ exec (.rreg s.cfg.aChannel 1) t = .next u ∧ u.ret = .bytes [ch]

/-- Premise CP2 (R73): when the chip echoes, SETID succeeds for every identity. -/
def Obligations.SetidSucceedsWhenTheChipEchoes : Prop :=
  ∀ (id : Word) (s : State), s.tstate = .idle → s.io.env.premises.cp2 = true → s.io.chip.unknown = false →
    s.cfg.aId ≠ s.cfg.aFifo →
    ∃ t, exec (.setid id) s = .next t ∧ t = { s with io := t.io, deviceId := some id, ret := .ok } ∧
      Sent s t [writeRecord s.cfg.aId (toBe32 id), readRecord s.cfg.aId (toBe32 id)]

/-! ## Packet operations -/

/-- TX of a payload that fits: pointer reset, one padded fill, the TX strobe; then done, or held in Transmitting, as the first sample of
BUSY reads: without CP4 the level supplied (with it: TransmittedPacketIsThePaddedPayload). PKT.DATAREPLY is TX of the packet's 40 bytes
(entry 15, the model's choice). -/
def Obligations.TransmitCompletes : Prop :=
  ∀ (i : Instr) (l : List Byte) (len : Nat) (s : State),
    (i = .tx l ∨ ∃ p : ReplyPacket, i = .pktDatareply p ∧ p.wellFormed = true ∧ l = p.bytes) →
    s.tstate = .idle → s.hold = none → s.pktlen = some len → l.length ≤ len → s.cfg.codesLegal = true →
    ∃ t, exec i s = .next t ∧
      Sent s t [strobeRecord s.cfg.cWrst, writeRecord s.cfg.aFifo (padTo len l), strobeRecord s.cfg.cTx] ∧
      (t = { s with io := t.io, ret := .ok } ∨
        t = { s with io := t.io, tstate := .transmitting, hold := some (.sending .direct) }) ∧
      ∀ b r, s.io.env.busyIn = b :: r → s.io.env.premises.cp4 = false → (t.hold = none ↔ b ≠ s.cfg.busyLevel)

/-- The padded payload (R181): exactly the packet length, the payload first, zeros after it. -/
def Obligations.PaddingKeepsThePayloadAndFillsWithZeros : Prop :=
  ∀ (len : Nat) (l : List Byte), l.length ≤ len →
    (padTo len l).length = len ∧ (∀ k < l.length, (padTo len l)[k]? = l[k]?) ∧
    (∀ k, l.length ≤ k → k < len → (padTo len l)[k]? = some 0)

/-- TX of a payload longer than `PKTLEN` is `SizeError`, before any frame; TX and RX without a length are `NotConfigured`. -/
def Obligations.TransmitAndReceiveChecksComeFirst : Prop :=
  ∀ (l : List Byte) (len : Nat) (s : State), s.tstate = .idle →
    (s.pktlen = some len → len < l.length → exec (.tx l) s = .next { s with ret := .err (.sizeError l.length len) }) ∧
    (s.pktlen = none → exec (.tx l) s = .fault .notConfigured ∧ exec .rx s = .fault .notConfigured)

/-- RX: the strobe, then held in Receiving while BUSY reads asserted; when it first reads deasserted, one status byte, and an error with
nothing more, or the pointer reset and one drain of `PKTLEN` bytes. Without CP5 these frames are all that changes the chip's memories. -/
def Obligations.ReceiveCompletes : Prop :=
  ∀ (len : Nat) (s : State), s.tstate = .idle → s.hold = none → s.pktlen = some len →
    ∃ t, exec .rx s = .next t ∧
      (t = { s with io := t.io, tstate := .receiving, hold := some (.listening len .direct) } ∧ Sent s t [strobeRecord s.cfg.cRx] ∨
        ∃ m q, q.length = len ∧
          (rxError s.cfg m = none ∧ t = { s with io := t.io, ret := .bytes q } ∧
              t.io.history = s.io.history ++
                [strobeRecord s.cfg.cRx, readRecord s.cfg.aMode [m], strobeRecord s.cfg.cRrst, readRecord s.cfg.aFifo q] ∨
            ∃ e, rxError s.cfg m = some e ∧ t = { s with io := t.io, ret := .err e } ∧
              t.io.history = s.io.history ++ [strobeRecord s.cfg.cRx, readRecord s.cfg.aMode [m]])) ∧
      (s.io.env.premises.cp5 = false → Sent s t (t.io.history.drop s.io.history.length)) ∧
      ∀ b r, s.io.env.busyIn = b :: r →
        (b = s.cfg.busyLevel → t.hold ≠ none) ∧ (s.io.env.premises.cp5 = false → b ≠ s.cfg.busyLevel → t.hold = none)

/-- The status test (R185): the CRC bit first, then the FEC bit; the bits outside the two masks are ignored. That CRC comes first is the
spec's decision D17. -/
def Obligations.StatusTestIsCrcThenFec : Prop :=
  ∀ (c : Config) (m : Byte),
    (m &&& c.mCrcf ≠ 0 → rxError c m = some (.crc m)) ∧
    (m &&& c.mCrcf = 0 → m &&& c.mFecf ≠ 0 → rxError c m = some (.fec m)) ∧
    (m &&& c.mCrcf = 0 → m &&& c.mFecf = 0 → rxError c m = none)

/-- A busy wait goes on for as long as BUSY reads asserted, sending nothing and writing nothing, and ends at the first sample that reads
deasserted (R148): TX returns, or S7 goes on to S8; RX reads the status byte and fails, to its caller or to the loop boundary, or drains and
returns, or S2 goes on to S3 (R182, R184, R185, R202, R215). Where neither CP4 nor CP5 is assumed, or the premises are void (U3), a sample reads
the level supplied. -/
def Obligations.BusyWaitEndsAtTheFirstDeassertedSample : Prop :=
  ∀ (h : Hold) (s : State), s.agenda = [] → s.hold = some h → (∀ c, h ≠ .settle c) →
    ∃ t, step s = .next t ∧
      ((s.io.sampleBusy s.cfg).1 = true → t = { s with io := t.io } ∧ Sent s t []) ∧
      ((s.io.sampleBusy s.cfg).1 = false →
        (h = .sending .direct → t = { s with io := t.io, tstate := .idle, hold := none, ret := .ok } ∧ t.io.history = s.io.history) ∧
        (h = .sending .loop → t = { s with io := t.io, tstate := .idle, hold := none, spc := .s8 } ∧ t.io.history = s.io.history) ∧
        (∀ c, h = .sending c → s.io.chip.mode ≠ .rx ∨ s.io.env.premises.cp5 = false → Sent s t []) ∧
        (∀ len c, h = .listening len c → ∃ m q, q.length = len ∧
          (rxError s.cfg m = none →
            t.io.history = s.io.history ++ [readRecord s.cfg.aMode [m], strobeRecord s.cfg.cRrst, readRecord s.cfg.aFifo q] ∧
            (c = .direct → t = { s with io := t.io, tstate := .idle, hold := none, ret := .bytes q }) ∧
            (c = .loop → t = { s with io := t.io, tstate := .idle, hold := none, rxpkt := q, spc := .s3 })) ∧
          (∀ e, rxError s.cfg m = some e →
            t.io.history = s.io.history ++ [readRecord s.cfg.aMode [m]] ∧
            (c = .direct → t = { s with io := t.io, tstate := .idle, hold := none, ret := .err e }) ∧
            (c = .loop → ∃ time, t = { s with
              io := t.io, tstate := .idle, hold := none, spc := .s1, log := s.log ++ [.error e time none none] })))) ∧
      (s.io.env.premises.cp4 = false ∧ s.io.env.premises.cp5 = false ∨ s.io.chip.unknown = true → ∀ b r, s.io.env.busyIn = b :: r →
        (s.io.sampleBusy s.cfg).1 = decide (b = s.cfg.busyLevel))

/-- Premises CP3, CP5, CP6, CP7 (R74, R76 to R78): a packet on the air for the chip's identity and channel and of the configured length is
what RX returns, if it is undamaged; one that failed its CRC, or forward error correction, is that error. (The chip does not listen when RX
begins.) Under CP5 a chip that listens goes on listening over a bare WREG, but to the register it is reset through (entry 35), and over a bare
RREG, until a packet arrives that is for its identity and channel; and while none is on the air BUSY reads asserted. That a packet may arrive
before such a frame, and not within it, is entry 32, the model's choice; it says nothing of strobes. -/
def Obligations.ReceivedPacketIsReturned : Prop :=
  (∀ (p : AirPacket) (rest : List AirPacket) (b : Bool) (r : List Bool) (s : State),
    s.tstate = .idle → s.pktlen = some p.payload.length → s.io.chip.unknown = false → ChipApart s.cfg → s.io.chip.listening = false →
    s.io.env.premises.cp3 = true → s.io.env.premises.cp5 = true → s.io.env.premises.cp6 = true → s.io.env.premises.cp7 = true →
    1 ≤ p.payload.length → p.payload.length ≤ 64 →
    s.io.chip.regs.read s.cfg.aPktlen.toNat = some (lengthByte p.payload.length) →
    s.io.chip.regs.read s.cfg.aChannel.toNat = some p.channel → s.io.chip.ident = some p.identity →
    s.io.env.airIn = p :: rest → s.io.env.busyIn = b :: r → b ≠ s.cfg.busyLevel →
    ∃ t, exec .rx s = .next t ∧ t.io.env.airIn = rest ∧
      (p.crcBad = false → p.fecBad = false → t.ret = .bytes p.payload) ∧
      (p.crcBad = true → ∃ m, t.ret = .err (.crc m)) ∧
      (p.crcBad = false → p.fecBad = true → ∃ m, t.ret = .err (.fec m))) ∧
  (∀ (i : Instr) (a : Addr) (l : List Byte) (k n : Nat) (s : State),
    s.io.env.premises.cp5 = true → s.io.chip.unknown = false → s.io.chip.mode = .rx → s.io.chip.op = .running n →
    (i = .wreg a l ∧ l ≠ [] ∧ resetReg s.cfg ≠ some a ∨ i = .rreg a k ∧ 0 < k) →
    ∃ t, exec i s = .next t ∧ t.io.chip.mode = .rx ∧ t.io.chip.unknown = false ∧
      ((∃ m, t.io.chip.op = .running m) ∨
        t.io.chip.op = .over ∧ ∃ p ∈ s.io.env.airIn, (∀ x, s.io.chip.ident = some x → p.identity = x) ∧
          ∀ ch, s.io.chip.regs.read s.cfg.aChannel.toNat = some ch → p.channel = ch)) ∧
  (∀ (n : Nat) (s : State), s.io.env.premises.cp5 = true → s.io.chip.unknown = false → s.io.chip.mode = .rx → s.io.chip.op = .running n →
    s.io.env.airIn = [] → s.sampleBusy.1 = true ∧ ∃ m, s.sampleBusy.2.io.chip.op = .running m)

/-- Premises CP3, CP4 and CP7 (R74, R75, R78): TX puts one packet on the air, addressed with the identity and on the channel last written,
whose payload is the padded list; and BUSY is asserted for a finite time: with `n` turns of the chip drawn, TX returns after `n` more
samples. (The chip does not listen or send when TX begins; when the packet is taken is entry 34.) -/
def Obligations.TransmittedPacketIsThePaddedPayload : Prop :=
  (∀ (l : List Byte) (len n : Nat) (r : List Nat) (x : Word) (ch : Byte) (s : State),
    s.tstate = .idle → s.agenda = [] → s.pktlen = some len → l.length ≤ len → 1 ≤ len → len ≤ 64 → s.io.chip.unknown = false →
    ChipApart s.cfg → s.io.env.premises.cp3 = true → s.io.env.premises.cp4 = true → s.io.env.premises.cp7 = true →
    s.io.chip.listening = false → s.io.sendingNow = false →
    s.io.chip.regs.read s.cfg.aPktlen.toNat = some (lengthByte len) → s.io.chip.regs.read s.cfg.aChannel.toNat = some ch →
    s.io.chip.ident = some x → s.io.env.countIn = n :: r →
    ∃ t u, exec (.tx l) s = .next t ∧ afterSteps n t = .next u ∧ u.ret = .ok ∧ u.tstate = .idle ∧ u.hold = none ∧
      u.io.chip.sent = s.io.chip.sent ++ [⟨x, ch, padTo len l⟩]) ∧
  (∀ (n : Nat) (c : Caller) (s : State), s.agenda = [] → s.hold = some (.sending c) → s.io.chip.unknown = false →
    s.io.env.premises.cp4 = true → s.io.chip.mode = .tx → s.io.chip.op = .running n →
    ∃ t, afterSteps (n + 1) s = .next t ∧ t.hold = none ∧ t.io.history = s.io.history ∧
      t.io.chip.sent = s.io.chip.sent ++ s.io.chip.sending.toList)

/-! ## Server loop -/

/-- BOOT with a legal strobe-code set answers a next state: held in Calibrating at INIT's settle wait; or, the settle time passed, done.
Done is INIT, SETCH, SETLEN and S1; with a packet length outside 1 to 64 start-up ends: `SPC` stays BOOT and the loop is refused from then
on (that the error stands in `ret` and the log holds the warnings only is entry 17, the model's choice). -/
def Obligations.BootCompletes : Prop :=
  ∀ s : State, s.spc = .boot → s.hold = none → s.bootFailed = false → s.tstate = .uninitialized → s.cfg.codesLegal = true →
    ∃ t, exec .boot s = .next t ∧
      (t = { s with io := t.io, tstate := .calibrating, hold := some (.settle .loop) } ∧ Sent s t (initProgram s.cfg) ∨
        t.hold = none) ∧
      ∀ r, s.io.env.settleIn = true :: r → ∃ s1 s2 s3,
        (pktMin ≤ s.cfg.pktlenCfg ∧ s.cfg.pktlenCfg ≤ pktMax →
          Sent s t (initProgram s.cfg ++ [readRecord s.cfg.aCalIf [s1], readRecord s.cfg.aCalVcoc [s2], readRecord s.cfg.aCalVcob [s3],
            writeRecord s.cfg.aChannel [s.cfg.channelCfg], writeRecord s.cfg.aPktlen [lengthByte s.cfg.pktlenCfg]]) ∧
          t = { s with
            io := t.io, tstate := .idle, channel := some s.cfg.channelCfg, pktlen := some s.cfg.pktlenCfg.toNat, spc := .s1,
            log := s.log ++ calWarnings s.cfg s1 s2 s3 }) ∧
        (s.cfg.pktlenCfg < pktMin ∨ pktMax < s.cfg.pktlenCfg →
          Sent s t (initProgram s.cfg ++ [readRecord s.cfg.aCalIf [s1], readRecord s.cfg.aCalVcoc [s2], readRecord s.cfg.aCalVcob [s3],
            writeRecord s.cfg.aChannel [s.cfg.channelCfg]]) ∧
          t = { s with
            io := t.io, tstate := .idle, channel := some s.cfg.channelCfg, bootFailed := true,
            ret := .err (.packetLengthRange s.cfg.pktlenCfg), log := s.log ++ calWarnings s.cfg s1 s2 s3 } ∧
          (s.agenda = [] → step t = .refused .startupEnded))

/-- S1 and S6: SETID of the gateway, or of the client; on `ok` the next step, on a mismatch one `Error` event, S1, and the chip's identity not
known (R298). SESS is kept. -/
def Obligations.AddressStepsComplete : Prop :=
  ∀ (i : Instr) (id : Word) (nxt : Spc) (cid iid : Option Word) (s : State), s.hold = none → s.tstate = .idle →
    (i = .s1 ∧ s.spc = .s1 ∧ id = s.cfg.gatewayId ∧ nxt = .s2 ∧ cid = none ∧ iid = none ∨
      i = .s6 ∧ s.spc = .s6 ∧ id = s.hello.clientId ∧ nxt = .s7 ∧ cid = some s.hello.clientId ∧ iid = some s.snap.id) →
    ∃ t u q0 q1 q2 q3, exec i s = .next t ∧
      Sent s u [writeRecord s.cfg.aId (toBe32 id), readRecord s.cfg.aId [q0, q1, q2, q3]] ∧
      (be32 q0 q1 q2 q3 = id → t = { s with io := u.io, deviceId := some id, spc := nxt }) ∧
      (be32 q0 q1 q2 q3 ≠ id → ∃ time,
        t = { s with
          io := { u.io with chip.ident := none, env := t.io.env }, deviceId := none, spc := .s1,
          log := s.log ++ [.error (.idMismatch id (be32 q0 q1 q2 q3)) time cid iid] } ∧
        t.io.env.premises = s.io.env.premises)

/-- S2: RX into `RXPKT`, then S3; on a CRC or FEC error one `Error` event and S1; SESS and everything else kept. Held while BUSY reads
asserted. -/
def Obligations.ReceiveStepCompletes : Prop :=
  ∀ (len : Nat) (s : State), s.spc = .s2 → s.hold = none → s.tstate = .idle → s.pktlen = some len →
    ∃ t, exec .s2 s = .next t ∧
      (t = { s with io := t.io, tstate := .receiving, hold := some (.listening len .loop) } ∧ Sent s t [strobeRecord s.cfg.cRx] ∨
        ∃ m q, q.length = len ∧
          (rxError s.cfg m = none ∧ t = { s with io := t.io, rxpkt := q, spc := .s3 } ∧
              t.io.history = s.io.history ++
                [strobeRecord s.cfg.cRx, readRecord s.cfg.aMode [m], strobeRecord s.cfg.cRrst, readRecord s.cfg.aFifo q] ∨
            ∃ e time, rxError s.cfg m = some e ∧
              t = { s with io := t.io, spc := .s1, log := s.log ++ [.error e time none none] } ∧
              t.io.history = s.io.history ++ [strobeRecord s.cfg.cRx, readRecord s.cfg.aMode [m]])) ∧
      (s.io.env.premises.cp5 = false → Sent s t (t.io.history.drop s.io.history.length)) ∧
      ∀ b r, s.io.env.busyIn = b :: r →
        (b = s.cfg.busyLevel → t.hold ≠ none) ∧ (s.io.env.premises.cp5 = false → b ≠ s.cfg.busyLevel → t.hold = none)

/-- S3 on a hello of a client never seen: a record with count 1, the reported image and the time; one `NewClient` event; S4. A finite store that
is full refuses it (U8, R300; the name is entry 23's); an unbounded one, the spec's, is never full. -/
def Obligations.FirstHelloCreatesASession : Prop :=
  ∀ (h : Hello) (s : State), s.spc = .s3 → s.hold = none → s.rxpkt.length = helloLen →
    h = decodeHello s.cfg.bitmapOrder s.rxpkt → sessLookup h.clientId s.sess = none →
    (s.cfg.sessionCapacity = none → storeFull s = false) ∧
    (∀ n, s.cfg.sessionCapacity = some n → (storeFull s = true ↔ n ≤ s.sess.length)) ∧
    (storeFull s = true → exec .s3 s = .refused .sessionStoreFull) ∧
    (storeFull s = false → ∃ t t0 t1, exec .s3 s = .next t ∧ NoFrame s t ∧
      t = { s with
        io := t.io, hello := h, newClient := true, spc := .s4, sess := sessPut ⟨h.clientId, h.reportedImageId, 1, t0⟩ s.sess,
        log := s.log ++ [.newClient h.clientId t1] })

/-- S3 on a later hello: the count goes up by one, the reported image is noted, the first time stays, no event; S4. At 0xFFFFFFFF the model
faults (D23). -/
def Obligations.LaterHelloUpdatesTheSession : Prop :=
  ∀ (h : Hello) (x : Session) (s : State), s.spc = .s3 → s.hold = none → s.rxpkt.length = helloLen →
    h = decodeHello s.cfg.bitmapOrder s.rxpkt → sessLookup h.clientId s.sess = some x →
    (x.receivedCount ≠ 0xFFFFFFFF#32 → exec .s3 s = .next { s with
      hello := h, newClient := false, spc := .s4,
      sess := sessPut ⟨h.clientId, h.reportedImageId, x.receivedCount + 1, x.firstSeenAt⟩ s.sess }) ∧
    (x.receivedCount = 0xFFFFFFFF#32 → exec .s3 s = .fault .countOverflow)

/-- The store under a put: the record put is found, every other client's is untouched. -/
def Obligations.SessionStoreKeepsOtherClients : Prop :=
  ∀ (x : Session) (k : Word) (l : List Session),
    sessLookup x.clientId (sessPut x l) = some x ∧ (k ≠ x.clientId → sessLookup k (sessPut x l) = sessLookup k l) ∧
    (sessWf l → sessWf (sessPut x l))

/-- S3 on a packet of another length than 40: `ProtocolError`, one `Error` event, S1, SESS not touched. That the event carries no client is
the model's reading (entry 16). -/
def Obligations.MalformedHelloLeavesTheSessions : Prop :=
  ∀ s : State, s.spc = .s3 → s.hold = none → s.rxpkt.length ≠ helloLen →
    ∃ t time, exec .s3 s = .next t ∧ NoFrame s t ∧
      t = { s with io := t.io, spc := .s1, log := s.log ++ [.error (.protocolError s.rxpkt.length) time none none] }

/-- Integers in packets are little-endian (R65 c), both ways: the bytes of a word, least significant first, are its value; and the fields
R204 decodes are the values of the bytes at their offsets. Flag `i` is bit `i mod 8` of byte `24 + i div 8` under `lsb_first` (D21), bit `7
- i mod 8` under `msb_first` (R66, P23). -/
def Obligations.HelloFieldsAreLittleEndianAtTheirOffsets : Prop :=
  (∀ x : Word, (toLe32 x).length = 4 ∧ leValue (toLe32 x) = x.toNat) ∧ (∀ x : Half, (toLe16 x).length = 2 ∧ leValue (toLe16 x) = x.toNat) ∧
  (∀ (o : BitmapOrder) (p : List Byte), p.length = helloLen →
    (decodeHello o p).tagType.toNat = leValue (p.take 4) ∧ (decodeHello o p).clientId.toNat = leValue ((p.drop 4).take 4) ∧
    (decodeHello o p).gitHash.toNat = leValue ((p.drop 8).take 4) ∧ (decodeHello o p).installDate.toNat = leValue ((p.drop 12).take 4) ∧
    (decodeHello o p).reserved.toNat = leValue ((p.drop 16).take 4) ∧
    (decodeHello o p).reportedImageId.toNat = leValue ((p.drop 20).take 4) ∧ (decodeHello o p).missing.length = missingFlags ∧
    ∀ i < missingFlags,
      (decodeHello .lsbFirst p).missing[i]? = some ((p.getD (24 + i / 8) 0).getLsbD (i % 8)) ∧
      (decodeHello .msbFirst p).missing[i]? = some ((p.getD (24 + i / 8) 0).getLsbD (7 - i % 8))) ∧
  (∀ p : HelloPacket, p.wellFormed = true →
    p.bytes.length = helloLen ∧
    (decodeHello .lsbFirst p.bytes).tagType = p.tagType ∧ (decodeHello .lsbFirst p.bytes).clientId = p.clientId ∧
    (decodeHello .lsbFirst p.bytes).gitHash = p.gitHash ∧ (decodeHello .lsbFirst p.bytes).installDate = p.installDate ∧
    (decodeHello .lsbFirst p.bytes).reserved = p.reserved ∧
    (decodeHello .lsbFirst p.bytes).reportedImageId = p.reportedImageId ∧
    ∀ i < missingFlags,
      (decodeHello .lsbFirst p.bytes).missing[i]? = some ((p.bitmap.getD (i / 8) 0).getLsbD (i % 8)))

/-- S4 copies the whole image record, or faults when none has been published (D25). -/
def Obligations.SnapshotStepCompletes : Prop :=
  ∀ (x : Image) (s : State), s.spc = .s4 → s.hold = none →
    (s.image = some x → exec .s4 s = .next { s with snap := x, spc := .s5 }) ∧
    (s.image = none → exec .s4 s = .fault .noImage)

/-- S5 (R208): stale gives offset 0 and flags 0 whatever the bitmap; else the least set flag `k` of 0..125 gives `32 * k` and flags 0; else
offset 0 and flags 1. The offset is a multiple of 32 and at most 4000. -/
def Obligations.ChunkSelectionCompletes : Prop :=
  ∀ s : State, s.spc = .s5 → s.hold = none → s.hello.missing.length = missingFlags →
    ∃ t, exec .s5 s = .next t ∧ t = { s with offset := t.offset, flags := t.flags, spc := .s6 } ∧
      (s.hello.reportedImageId ≠ s.snap.id → t.offset = 0 ∧ t.flags = 0) ∧
      (s.hello.reportedImageId = s.snap.id →
        (∀ k < missingFlags, s.hello.missing[k]? = some true → (∀ j < k, s.hello.missing[j]? = some false) →
          t.offset.toNat = 32 * k ∧ t.flags = 0) ∧
        ((∀ k < missingFlags, s.hello.missing[k]? = some false) → t.offset = 0 ∧ t.flags = 1)) ∧
      t.offset.toNat % 32 = 0 ∧ t.offset.toNat ≤ 4000 ∧ (t.flags = 0 ∨ t.flags = 1)

/-- S7: the reply of the snapshot goes through TX; on completion S8, held while BUSY reads asserted; a `PKTLEN` below 40 is `SizeError`, one
`Error` event, S1, no frame. -/
def Obligations.ReplyStepCompletes : Prop :=
  ∀ (len : Nat) (s : State),
    s.spc = .s7 → s.hold = none → s.tstate = .idle → s.pktlen = some len → s.cfg.codesLegal = true →
    ∃ t, exec .s7 s = .next t ∧
      (replyLen ≤ len →
        Sent s t [strobeRecord s.cfg.cWrst,
          writeRecord s.cfg.aFifo (padTo len (toLe32 s.snap.id ++ toLe16 s.offset ++ toLe16 s.flags ++ s.snap.img s.offset.toNat 32)),
          strobeRecord s.cfg.cTx] ∧
        (t = { s with io := t.io, spc := .s8 } ∨ t = { s with io := t.io, tstate := .transmitting, hold := some (.sending .loop) }) ∧
        ∀ b r, s.io.env.busyIn = b :: r → s.io.env.premises.cp4 = false → (t.hold = none ↔ b ≠ s.cfg.busyLevel)) ∧
      (len < replyLen → NoFrame s t ∧ ∃ time,
        t = { s with
          io := t.io, spc := .s1,
          log := s.log ++ [.error (.sizeError replyLen len) time (some s.hello.clientId) (some s.snap.id)] })

/-- `Img(o, n)` (R83): `n` bytes, byte `k` that of the image at `o + k` where `o + k < 4000` and zero otherwise. -/
def Obligations.ImageReadsFillWithZeros : Prop :=
  ∀ (x : Image) (o n : Nat), x.bytes.length = imageLen →
    (x.img o n).length = n ∧
    (∀ k < n, o + k < 4000 → (x.img o n)[k]? = x.bytes[o + k]?) ∧
    (∀ k < n, 4000 ≤ o + k → (x.img o n)[k]? = some 0) ∧
    x.img 4000 32 = List.replicate 32 0

/-- S8: `Complete` when the flags are 1, else `Progress` with the offset; then S1. -/
def Obligations.OutcomeStepCompletes : Prop :=
  ∀ s : State, s.spc = .s8 → s.hold = none →
    (s.flags = 1 → exec .s8 s = .next { s with spc := .s1, log := s.log ++ [.complete s.hello.clientId s.snap.id] }) ∧
    (s.flags ≠ 1 →
      exec .s8 s = .next { s with spc := .s1, log := s.log ++ [.progress s.hello.clientId s.snap.id s.offset] })

/-- A server step is enabled only where `SPC` is at it and the loop is not blocked (entry 18, the model's reading of R40). BOOT with strobe codes
that break P14 is refused (entry 17, the model's choice), and so is BOOT after start-up has ended (R285). -/
def Obligations.ServerStepsAreRefusedAwayFromTheirPhase : Prop :=
  ∀ (i : Instr) (p : Spc) (s : State),
    ((i, p) ∈ [(Instr.boot, Spc.boot), (.s1, .s1), (.s2, .s2), (.s3, .s3), (.s4, .s4), (.s5, .s5), (.s6, .s6), (.s7, .s7), (.s8, .s8)]) →
    ((s.spc ≠ p ∨ s.hold ≠ none) → exec i s = .refused .notEnabled) ∧
    (s.spc = .boot → s.hold = none →
      (s.bootFailed = true → exec .boot s = .refused .startupEnded) ∧
      (s.bootFailed = false → s.cfg.codesLegal = false → exec .boot s = .refused .illegalConfiguration))

/-- Progress (R209): a client that clears the flag of the chunk it was sent has every chunk after as many rounds as flags were missing. -/
def Obligations.EveryMissingChunkIsServedInAsManyRounds : Prop :=
  ∀ l : List Bool, l.length = missingFlags →
    firstMissing (serveRounds (l.count true) l) = none ∧
    ∀ n < l.count true, ∃ k, firstMissing (serveRounds n l) = some k

/-! ## Feed, packets, screen -/

/-- R230: PUBLISH of a legal operand replaces the whole record in one step, at any time, and touches nothing else; a buffer of another length
is no legal operand. -/
def Obligations.PublishCompletes : Prop :=
  ∀ (b : List Byte) (id : Word) (s : State),
    (b.length = imageLen → exec (.publish b id) s = .next { s with image := some ⟨b, id⟩ }) ∧
    (b.length ≠ imageLen → ∀ c : Config, (Instr.publish b id).wellFormed c = false)

/-- A publication before or after any operation but S4 gives the same state: only S4 sees the image (R84, R85, R86), so where inside an
operation it lands cannot matter (entry 3); nor does it matter to a held operation that goes on. -/
def Obligations.PublicationIsSeenOnlyByTheSnapshot : Prop :=
  (∀ (h : Hold) (x : Option Image) (s : State), ({ s with image := x }).resume h = { s.resume h with image := x }) ∧
  ∀ (i : Instr) (x : Option Image) (s : State), i ≠ .s4 → (∀ b id, i ≠ .publish b id) →
    exec i { s with image := x } =
      match exec i s with
      | .next t => .next { t with image := x }
      | .fault f => .fault f
      | .refused r => .refused r

/-- PKT.HELLO: the packet is `RXPKT` and its decoded record is `HELLO` (entry 15, the model's choice of what the row does). -/
def Obligations.HelloPacketIsDecoded : Prop :=
  ∀ (p : HelloPacket) (s : State), p.wellFormed = true →
    exec (.pktHello p) s = .next { s with rxpkt := p.bytes, hello := decodeHello s.cfg.bitmapOrder p.bytes, ret := .ok }

/-- IDSCREEN answers the test of R243 (at a threshold of 32: entry 36) and changes nothing else; `s = 0` scores 32, no score exceeds 32, and
for a threshold below 32 the test says: no other shift exceeds it and at most two equal it. The shifts are those of R241, zero fill and
rotation, and popcount counts the 1 bits, so that the scores at 31 and -31 are those of R242. -/
def Obligations.IdscreenAnswersTheTest : Prop :=
  (∀ (x : Word) (s : State),
    exec (.idscreen x) s = .next { s with ret := .accepted (screenAccepts s.cfg.shiftKind s.cfg.threshold x) }) ∧
  (∀ (k : ShiftKind) (x : Word), score k x 0 = 32 ∧ ∀ d ∈ shifts, score k x d ≤ 32) ∧
  (∀ (k : ShiftKind) (t : Nat) (x : Word), t < 32 →
    (screenAccepts k t x = true ↔ (∀ d ∈ shifts, d ≠ 0 → score k x d ≤ t) ∧ equalCount k t x ≤ 2)) ∧
  (∀ (x : Word) (n : Nat), n ≤ 31 →
    (shift32 .zeroFill x n).toNat = x.toNat * 2 ^ n % 2 ^ 32 ∧ (shift32 .zeroFill x (-n)).toNat = x.toNat / 2 ^ n ∧
    ∀ i < 32, (shift32 .rotate x n).getLsbD ((i + n) % 32) = x.getLsbD i ∧ (shift32 .rotate x (-n)).getLsbD i = x.getLsbD ((i + n) % 32)) ∧
  (∀ x : Word, popcount32 x = (Finset.univ.filter (fun i : Fin 32 => x.getLsbD i = true)).card) ∧
  (∀ x : Word,
    score .zeroFill x 31 = 32 - popcount32 (x ^^^ if x.getLsbD 0 then 0x80000000#32 else 0#32) ∧
    score .zeroFill x (-31) = 32 - popcount32 (x ^^^ if x.getLsbD 31 then 1#32 else 0#32))

/-- IDSELECT draws one candidate with the configured high bits: it returns it when the screen accepts it, and else draws again, behind what is
scheduled already (entry 22, the model's schedule); with nothing scheduled the very next step is the next draw. -/
def Obligations.IdselectReturnsOnlyAcceptedCandidates : Prop :=
  ∀ (d : BitVec 28) (s : State), d = s.io.env.drawRandom.1 →
    ∃ t, exec .idselect s = .next t ∧ t.io = { s.io with env := s.io.env.drawRandom.2 } ∧
      (acceptsIdentifier s.cfg (s.cfg.idPrefix ++ d) = true → t = { s with io := t.io, ret := .ident (s.cfg.idPrefix ++ d) }) ∧
      (acceptsIdentifier s.cfg (s.cfg.idPrefix ++ d) = false → t = { s with io := t.io, agenda := s.agenda ++ selectAgain } ∧
        (s.agenda = [] → step t = exec .idselect { t with agenda := [] }))

/-! ## The step -/

/-- A step runs the decoded instruction: of the word at the head of the schedule, or, where the loop moves and is not blocked, of the word
of its phase; a word that is no instruction is refused by name. -/
def Obligations.StepRunsTheDecodedInstruction : Prop :=
  ∀ (i : Instr) (w : Request) (e : Reject) (rest : List Turn) (s : State),
    (s.agenda = .request w :: rest → decode s.cfg w = .ok i → step s = exec i { s with agenda := rest }) ∧
    (s.agenda = .request w :: rest → decode s.cfg w = .error e → step s = .refused (.undecodable e)) ∧
    (s.agenda = [] → s.hold = none → decode s.cfg s.spc.word = .ok i → step s = exec i s) ∧
    (s.agenda = .loop :: rest → s.hold = none → decode s.cfg s.spc.word = .ok i → step s = exec i { s with agenda := rest })

/-- The loop's move is the step its phase names; a blocked operation goes on instead. -/
def Obligations.LoopMovesByItsPhase : Prop :=
  ∀ (s : State) (h : Hold), s.agenda = [] →
    (s.hold = some h → step s = .next (s.resume h)) ∧
    (s.hold = none →
      (s.spc = .boot → step s = exec .boot s) ∧ (s.spc = .s1 → step s = exec .s1 s) ∧ (s.spc = .s2 → step s = exec .s2 s) ∧
      (s.spc = .s3 → step s = exec .s3 s) ∧ (s.spc = .s4 → step s = exec .s4 s) ∧ (s.spc = .s5 → step s = exec .s5 s) ∧
      (s.spc = .s6 → step s = exec .s6 s) ∧ (s.spc = .s7 → step s = exec .s7 s) ∧ (s.spc = .s8 → step s = exec .s8 s))

/-! ## Whole-machine rules -/

/-- After reset (R55): the values the table gives. -/
def Obligations.ResetStateOfTheTable : Prop :=
  State.reset.io.csn = true ∧ State.reset.io.sck = false ∧ State.reset.channel = none ∧ State.reset.deviceId = none ∧
  State.reset.pktlen = none ∧ State.reset.tstate = .uninitialized ∧ State.reset.spc = .boot ∧ State.reset.sess = [] ∧
  State.reset.image = none ∧ State.reset.log = []

/-- The invariant and the pins' timing hold at reset, for every configuration. That an unnamed register holds what State.reset says is the
model's choice (entries 6 and 7). -/
def Obligations.InvariantHoldsAtReset : Prop :=
  Inv State.reset ∧ PinsTimed State.reset ∧ ∀ c : Config, Inv (State.resetWith c) ∧ PinsTimed (State.resetWith c)

/-- Every step keeps the invariant. -/
def Obligations.EveryStepKeepsTheInvariant : Prop := ∀ s t : State, Inv s → step s = .next t → Inv t

/-- Every step keeps the pins' timing (R295): CSN changes only while the clock is low, data is set and the clock moves only inside a frame,
SDI is sampled only while the clock is high, BUSY only between frames; and between steps CSN is high and the clock low. -/
def Obligations.EveryStepKeepsThePinTiming : Prop := ∀ s t : State, PinsTimed s → step s = .next t → PinsTimed t

/-- From a state with the invariant and legal register programs, every step sends only frames of the three formats (R101, R104). -/
def Obligations.EveryStepSendsOnlyLegalFrames : Prop :=
  ∀ s t : State, Inv s → FramesLegal s → step s = .next t → FramesLegal t

/-- No step changes the configuration or the premises, revives void premises (U3), forgets a frame or a log event, or loses a session: its
record stays, its first time is kept and its count does not go down (R43, R47, R50, R141). -/
def Obligations.NothingRecordedIsLost : Prop :=
  ∀ s t : State, step s = .next t →
    t.cfg = s.cfg ∧ t.io.env.premises = s.io.env.premises ∧ (s.io.chip.unknown = true → t.io.chip.unknown = true) ∧
    s.io.history <+: t.io.history ∧ s.log <+: t.log ∧
    ∀ k x, sessLookup k s.sess = some x →
      ∃ y, sessLookup k t.sess = some y ∧ y.firstSeenAt = x.firstSeenAt ∧ x.receivedCount.toNat ≤ y.receivedCount.toNat

/-- What each instruction may write, and what a held operation that goes on may write (R265, R43 to R46, R26 to R28, R30, R40, R50). That
PKT.HELLO writes HELLO and RXPKT, and that PKT.DATAREPLY is TX, is entry 15, the model's choice. The configuration is written by nothing
(R47). -/
def Obligations.EachRegisterHasItsWriters : Prop :=
  (∀ (i : Instr) (s t : State), exec i s = .next t →
    (t.sess ≠ s.sess → i = .s3) ∧ (t.image ≠ s.image → ∃ b id, i = .publish b id) ∧ (t.snap ≠ s.snap → i = .s4) ∧
    (t.offset ≠ s.offset ∨ t.flags ≠ s.flags → i = .s5) ∧ (t.newClient ≠ s.newClient → i = .s3) ∧
    (t.hello ≠ s.hello → i = .s3 ∨ ∃ p, i = .pktHello p) ∧ (t.rxpkt ≠ s.rxpkt → i = .s2 ∨ ∃ p, i = .pktHello p) ∧
    (t.channel ≠ s.channel → i = .boot ∨ ∃ ch, i = .setch ch) ∧
    (t.pktlen ≠ s.pktlen → i = .boot ∨ ∃ n, i = .setlen n) ∧
    (t.deviceId ≠ s.deviceId → i = .s1 ∨ i = .s6 ∨ ∃ id, i = .setid id) ∧
    (t.tstate ≠ s.tstate ∨ t.hold ≠ s.hold →
      i ∈ [Instr.init, .boot, .rx, .s2, .s7] ∨ (∃ l, i = .tx l) ∨ ∃ p, i = .pktDatareply p) ∧
    (t.spc ≠ s.spc → i ∈ [Instr.boot, .s1, .s2, .s3, .s4, .s5, .s6, .s7, .s8]) ∧
    (t.bootFailed ≠ s.bootFailed → i = .boot) ∧
    (t.log ≠ s.log → i ∈ [Instr.init, .boot, .s1, .s2, .s3, .s6, .s7, .s8]) ∧
    (t.io.pinTrace ≠ s.io.pinTrace ∨ t.io.history ≠ s.io.history ∨ t.io.chip ≠ s.io.chip → drivesPins i = true) ∧
    t.cfg = s.cfg) ∧
  (∀ (h : Hold) (s t : State), t = s.resume h →
    t.sess = s.sess ∧ t.image = s.image ∧ t.snap = s.snap ∧ t.offset = s.offset ∧ t.flags = s.flags ∧ t.newClient = s.newClient ∧
    t.hello = s.hello ∧ t.deviceId = s.deviceId ∧ t.agenda = s.agenda ∧ t.cfg = s.cfg ∧
    (t.rxpkt ≠ s.rxpkt → ∃ n, h = .listening n .loop) ∧
    (t.channel ≠ s.channel ∨ t.pktlen ≠ s.pktlen ∨ t.bootFailed ≠ s.bootFailed → h = .settle .loop) ∧
    (t.spc ≠ s.spc → h.inLoop = true) ∧
    (t.log ≠ s.log → (∃ c, h = .settle c) ∨ ∃ n, h = .listening n .loop))

/-- The transitions of `TSTATE` and of `SPC` over a step (R30, R40): none back to Uninitialized; Calibrating is entered from Uninitialized only,
Transmitting and Receiving from Idle only. Under the invariant, Idle is entered from Calibrating, Transmitting or Receiving, or from Uninitialized
by a step that goes through Calibrating: all of INIT's frames are sent in it, its first look at the settle time having drawn that it has passed
(that one step may do so is entry 5, the model's choice). Under the invariant `SPC` stays, advances by one in the cycle, or goes back to S1; it
never returns to BOOT. -/
def Obligations.PhasesAndTransceiverStatesMoveAsStated : Prop :=
  ∀ s t : State, step s = .next t →
    (t.tstate = .uninitialized → s.tstate = .uninitialized) ∧
    (t.tstate = .calibrating → s.tstate = .uninitialized ∨ s.tstate = .calibrating) ∧
    (t.tstate = .transmitting → s.tstate = .idle ∨ s.tstate = .transmitting) ∧
    (t.tstate = .receiving → s.tstate = .idle ∨ s.tstate = .receiving) ∧
    (Inv s → t.tstate = .idle → s.tstate = .uninitialized → (∀ b r, s.io.env.settleIn = b :: r → b = true) ∧
      ∃ s1 s2 s3, s.io.history ++ initProgram s.cfg ++
        [readRecord s.cfg.aCalIf [s1], readRecord s.cfg.aCalVcoc [s2], readRecord s.cfg.aCalVcob [s3]] <+: t.io.history) ∧
    (t.spc = .boot → s.spc = .boot) ∧
    (Inv s → t.spc = s.spc ∨ t.spc = s.spc.advance ∨ t.spc = .s1 ∧ s.spc ≠ .boot)

/-- From a state with the invariant, with only the loop and the feed scheduled, a step of the loop past BOOT faults only with `NoImage` at S4
or `CountOverflow` at S3: the other model faults are unreachable (R31, R262). -/
def Obligations.LoopFaultsOnlyWithoutImageOrOnOverflow : Prop :=
  ∀ (s : State) (f : Fault), Inv s → OwnAgents s → s.spc ≠ .boot → step s = .fault f →
    f = .noImage ∧ s.spc = .s4 ∧ s.image = none ∨ f = .countOverflow ∧ s.spc = .s3
end

