-- ==== Sys2Proof/Laws/Bytes.lean ====
section
/-! SUPPORT. The byte and bit orders are inverses of each other, and what the first byte of each frame format looks like. -/

namespace Sys2Proof

@[simp] theorem byteBits_length (v : Byte) : (byteBits v).length = 8 := rfl

@[simp] theorem bitsByte_byteBits : ∀ v : Byte, bitsByte (byteBits v) = v := by decide +kernel

theorem byteBits_bitsByte (a b c d e f g h : Bool) : byteBits (bitsByte [a, b, c, d, e, f, g, h]) = [a, b, c, d, e, f, g, h] := by
  revert a b c d e f g h; decide

@[simp] theorem kindOf_writeByte : ∀ a : Addr, kindOf (writeByte a) = 0#2 := by decide +kernel
@[simp] theorem addrOf_writeByte : ∀ a : Addr, addrOf (writeByte a) = a := by decide +kernel
@[simp] theorem kindOf_readByte : ∀ a : Addr, kindOf (readByte a) = 1#2 := by decide +kernel
@[simp] theorem addrOf_readByte : ∀ a : Addr, addrOf (readByte a) = a := by decide +kernel
@[simp] theorem codeOf_strobeByte : ∀ k : Nibble, codeOf (strobeByte k) = k := by decide +kernel
@[simp] theorem lowNibble_strobeByte : ∀ k : Nibble, lowNibble (strobeByte k) = 0#4 := by decide +kernel
theorem writeByte_bit7 : ∀ a : Addr, (writeByte a).getLsbD 7 = false := by decide +kernel
theorem writeByte_bit6 : ∀ a : Addr, (writeByte a).getLsbD 6 = false := by decide +kernel
theorem readByte_bit7 : ∀ a : Addr, (readByte a).getLsbD 7 = false := by decide +kernel
theorem readByte_bit6 : ∀ a : Addr, (readByte a).getLsbD 6 = true := by decide +kernel
theorem strobeByte_bit7 : ∀ k : Nibble, (strobeByte k).getLsbD 7 = k.getLsbD 3 := by decide +kernel

theorem writeByte_of_kind : ∀ b : Byte, kindOf b = 0#2 → writeByte (addrOf b) = b := by decide +kernel
theorem readByte_of_kind : ∀ b : Byte, kindOf b = 1#2 → readByte (addrOf b) = b := by decide +kernel
theorem strobeByte_of_lowNibble : ∀ b : Byte, lowNibble b = 0#4 → strobeByte (codeOf b) = b := by decide +kernel

@[simp] theorem codeOf_zeroNibble : ∀ k : Nibble, codeOf (0#4 ++ k) = 0#4 := by decide
@[simp] theorem lowNibble_zeroNibble : ∀ k : Nibble, lowNibble (0#4 ++ k) = k := by decide
theorem zeroNibble_of_codeOf : ∀ b : Byte, codeOf b = 0#4 → 0#4 ++ lowNibble b = b := by decide +kernel

theorem strobeByte_injective {k k' : Nibble} (h : strobeByte k = strobeByte k') : k = k' := by
  rw [← codeOf_strobeByte k, h, codeOf_strobeByte]

theorem writeByte_injective {a a' : Addr} (h : writeByte a = writeByte a') : a = a' := by
  rw [← addrOf_writeByte a, h, addrOf_writeByte]

@[simp] theorem be32_extract (x : Word) :
    be32 (x.extractLsb' 24 8) (x.extractLsb' 16 8) (x.extractLsb' 8 8) (x.extractLsb' 0 8) = x := by
  simp only [be32]
  ext i hi
  simp only [BitVec.getElem_append, BitVec.getElem_extractLsb']
  split_ifs <;> rw [BitVec.getLsbD_eq_getElem (by omega)] <;> congr 1 <;> omega

@[simp] theorem le32_extract (x : Word) :
    le32 (x.extractLsb' 0 8) (x.extractLsb' 8 8) (x.extractLsb' 16 8) (x.extractLsb' 24 8) = x := be32_extract x

@[simp] theorem be32List_toBe32 (x : Word) : be32List (toBe32 x) = x := be32_extract x

@[simp] theorem le16_extract (x : Half) : le16 (x.extractLsb' 0 8) (x.extractLsb' 8 8) = x := by
  simp only [le16]
  ext i hi
  simp only [BitVec.getElem_append, BitVec.getElem_extractLsb']
  split_ifs <;> simp_all [BitVec.getLsbD_eq_getElem]

@[simp] theorem toBe32_length (x : Word) : (toBe32 x).length = 4 := rfl
@[simp] theorem toLe32_length (x : Word) : (toLe32 x).length = 4 := rfl
@[simp] theorem toLe16_length (x : Half) : (toLe16 x).length = 2 := rfl

theorem HelloPacket.bytes_length (p : HelloPacket) : p.bytes.length = helloHdr + p.bitmap.length := by
  simp only [HelloPacket.bytes, List.length_append, toLe32_length]

theorem ReplyPacket.bytes_length (p : ReplyPacket) : p.bytes.length = 8 + p.payload.length := by
  simp only [ReplyPacket.bytes, List.length_append, toLe32_length, toLe16_length]

/-! Packet fields. -/

theorem le32At_bytes (x : Word) (a b : List Byte) (k : Nat) (h : a.length = k) : le32At (a ++ (toLe32 x ++ b)) k = x := by
  subst h
  have e : ∀ j, j < 4 → (a ++ (toLe32 x ++ b)).getD (a.length + j) 0 = (toLe32 x).getD j 0 := by
    intro j hj
    rw [List.getD_append_right _ _ _ _ (by omega), List.getD_append _ _ _ _ (by simp; omega)]
    congr 1; omega
  unfold le32At
  rw [show a.length = a.length + 0 from rfl, e 0 (by omega), Nat.add_zero, e 1 (by omega), e 2 (by omega), e 3 (by omega)]
  exact le32_extract x

theorem helloFields_bytes (p : HelloPacket) : helloFields p.bytes = p := by
  have h0 : le32At p.bytes 0 = p.tagType := by
    simpa [HelloPacket.bytes, List.append_assoc] using le32At_bytes p.tagType [] _ 0 rfl
  have h1 : le32At p.bytes 4 = p.clientId := by
    simpa only [HelloPacket.bytes, List.append_assoc] using le32At_bytes p.clientId (toLe32 p.tagType) _ 4 rfl
  have h2 : le32At p.bytes 8 = p.gitHash := by
    simpa only [HelloPacket.bytes, List.append_assoc] using le32At_bytes p.gitHash (toLe32 p.tagType ++ toLe32 p.clientId) _ 8 rfl
  have h3 : le32At p.bytes 12 = p.installDate := by
    simpa only [HelloPacket.bytes, List.append_assoc] using
      le32At_bytes p.installDate (toLe32 p.tagType ++ toLe32 p.clientId ++ toLe32 p.gitHash) _ 12 rfl
  have h4 : le32At p.bytes 16 = p.reserved := by
    simpa only [HelloPacket.bytes, List.append_assoc] using
      le32At_bytes p.reserved (toLe32 p.tagType ++ toLe32 p.clientId ++ toLe32 p.gitHash ++ toLe32 p.installDate) _ 16 rfl
  have h5 : le32At p.bytes 20 = p.reportedImageId := by
    simpa only [HelloPacket.bytes, List.append_assoc] using
      le32At_bytes p.reportedImageId
        (toLe32 p.tagType ++ toLe32 p.clientId ++ toLe32 p.gitHash ++ toLe32 p.installDate ++ toLe32 p.reserved) p.bitmap 20 rfl
  have h6 : p.bytes.drop 24 = p.bitmap := by
    unfold HelloPacket.bytes
    exact List.drop_left' (by simp)
  unfold helloFields
  rw [h0, h1, h2, h3, h4, h5, h6]

theorem replyFields_bytes (p : ReplyPacket) : replyFields p.bytes = p := by
  have h0 : le32At p.bytes 0 = p.imageId := by
    simpa [ReplyPacket.bytes, List.append_assoc] using le32At_bytes p.imageId [] _ 0 rfl
  obtain ⟨i, o, f, l⟩ := p
  unfold replyFields
  rw [h0]
  simp [ReplyPacket.bytes, toLe32, toLe16, le16_extract]

theorem toBe32_be32 (q0 q1 q2 q3 : Byte) : toBe32 (be32 q0 q1 q2 q3) = [q0, q1, q2, q3] := by
  simp only [toBe32, be32, List.cons.injEq, and_true]
  refine ⟨?_, ?_, ?_, ?_⟩ <;>
    (ext i hi
     simp only [BitVec.getElem_extractLsb', BitVec.getLsbD_append]
     repeat' split
     all_goals first
       | omega
       | (rw [BitVec.getLsbD_eq_getElem (by omega)]; congr 1; omega))

theorem toLe32_le32 (q0 q1 q2 q3 : Byte) : toLe32 (le32 q0 q1 q2 q3) = [q0, q1, q2, q3] :=
  congrArg List.reverse (toBe32_be32 q3 q2 q1 q0)

theorem toLe16_le16 (q0 q1 : Byte) : toLe16 (le16 q0 q1) = [q0, q1] := by
  simp only [toLe16, le16, List.cons.injEq, and_true]
  refine ⟨?_, ?_⟩ <;>
    (ext i hi
     simp only [BitVec.getElem_extractLsb', BitVec.getLsbD_append]
     repeat' split
     all_goals first
       | omega
       | (rw [BitVec.getLsbD_eq_getElem (by omega)]; congr 1; omega))

theorem toLe32_le32At (l : List Byte) (k : Nat) (h : k + 4 ≤ l.length) : toLe32 (le32At l k) ++ l.drop (k + 4) = l.drop k := by
  unfold le32At
  rw [toLe32_le32]
  rw [List.drop_eq_getElem_cons (i := k) (by omega), List.drop_eq_getElem_cons (i := k + 1) (by omega),
    List.drop_eq_getElem_cons (i := k + 2) (by omega), List.drop_eq_getElem_cons (i := k + 3) (by omega)]
  simp [List.getElem?_eq_getElem (show k < l.length by omega), List.getElem?_eq_getElem (show k + 1 < l.length by omega),
    List.getElem?_eq_getElem (show k + 2 < l.length by omega), List.getElem?_eq_getElem (show k + 3 < l.length by omega)]

theorem bytes_helloFields (l : List Byte) (h : 24 ≤ l.length) : (helloFields l).bytes = l := by
  simp only [HelloPacket.bytes, helloFields, List.append_assoc]
  rw [show helloHdr = 20 + 4 from rfl, toLe32_le32At l 20 (by omega), show 20 = 16 + 4 from rfl, toLe32_le32At l 16 (by omega),
    show 16 = 12 + 4 from rfl, toLe32_le32At l 12 (by omega), show 12 = 8 + 4 from rfl, toLe32_le32At l 8 (by omega),
    show 8 = 4 + 4 from rfl, toLe32_le32At l 4 (by omega), show 4 = 0 + 4 from rfl, toLe32_le32At l 0 (by omega)]
  rfl

theorem bytes_replyFields (l : List Byte) (h : 8 ≤ l.length) : (replyFields l).bytes = l := by
  simp only [ReplyPacket.bytes, replyFields, List.append_assoc, toLe16_le16]
  have e : [l.getD 4 0, l.getD 5 0] ++ ([l.getD 6 0, l.getD 7 0] ++ l.drop 8) = l.drop 4 := by
    rw [List.drop_eq_getElem_cons (i := 4) (by omega), List.drop_eq_getElem_cons (i := 5) (by omega),
      List.drop_eq_getElem_cons (i := 6) (by omega), List.drop_eq_getElem_cons (i := 7) (by omega)]
    simp [List.getElem?_eq_getElem (show 4 < l.length by omega), List.getElem?_eq_getElem (show 5 < l.length by omega),
      List.getElem?_eq_getElem (show 6 < l.length by omega), List.getElem?_eq_getElem (show 7 < l.length by omega)]
  rw [e]
  exact toLe32_le32At l 0 (by omega)

end Sys2Proof
end

