-- ==== Sys2Proof/Laws/Memory.lean ====
section
/-! SUPPORT. The canonical lists: a read after a write, and that every operation keeps the form. -/

namespace Sys2Proof.Machine

@[simp] theorem Memory.read_nil (a : Nat) : Memory.read [] a = none := rfl

/-- Writing makes the address read as what was written. -/
@[simp] theorem Memory.read_write_same (m : Memory) (a : Nat) (v : Byte) : (m.write a v).read a = some v := by
  induction m with
  | nil => simp [Memory.write, Memory.read]
  | cons x r ih =>
    obtain ⟨b, w⟩ := x
    simp only [Memory.write]
    split_ifs with h1 h2
    · simp [Memory.read]
    · simp [Memory.read]
    · simpa [Memory.read, h2] using ih

/-- Writing leaves every other address alone. -/
theorem Memory.read_write_other (m : Memory) {a x : Nat} (v : Byte) (h : x ≠ a) : (m.write a v).read x = m.read x := by
  induction m with
  | nil => simp [Memory.write, Memory.read, h, Memory.unlisted]
  | cons y r ih =>
    obtain ⟨b, w⟩ := y
    simp only [Memory.write]
    split_ifs with h1 h2
    · simp [Memory.read, h]
    · subst h2; simp [Memory.read, h]
    · simp only [Memory.read, ih]

/-- Forgetting an address leaves every other address alone. -/
theorem Memory.read_erase_other (m : Memory) {a x : Nat} (h : x ≠ a) : (m.erase a).read x = m.read x := by
  induction m with
  | nil => rfl
  | cons y r ih =>
    obtain ⟨b, w⟩ := y
    simp only [Memory.erase, ne_eq, decide_not] at ih ⊢
    by_cases hb : b = a
    · subst hb; simp [Memory.read, h, ih]
    · simp [Memory.read, hb, ih]

/-- A forgotten address holds no known byte. -/
@[simp] theorem Memory.read_erase_same (m : Memory) (a : Nat) : (m.erase a).read a = none := by
  induction m with
  | nil => rfl
  | cons y r ih =>
    obtain ⟨b, w⟩ := y
    simp only [Memory.erase, ne_eq, decide_not] at ih ⊢
    by_cases hb : b = a
    · subst hb; simpa using ih
    · simp [Memory.read, hb, Ne.symm hb, ih]

/-- Bytes written at consecutive addresses leave the addresses outside them alone. -/
theorem Memory.read_writeList_other (l : List Byte) :
    ∀ (m : Memory) (a x : Nat), x < a ∨ a + l.length ≤ x → (m.writeList a l).read x = m.read x := by
  induction l with
  | nil => intros; rfl
  | cons v r ih =>
    intro m a x h
    simp only [List.length_cons] at h
    simp only [Memory.writeList]
    rw [ih _ _ _ (by omega), Memory.read_write_other _ _ (by omega)]

/-- Bytes written at consecutive addresses are read back there. -/
theorem Memory.read_writeList_same (l : List Byte) :
    ∀ (m : Memory) (a k : Nat) (h : k < l.length), (m.writeList a l).read (a + k) = some l[k] := by
  induction l with
  | nil => intro _ _ k h; exact absurd h (Nat.not_lt_zero k)
  | cons v r ih =>
    intro m a k h
    simp only [Memory.writeList]
    cases k with
    | zero => rw [Nat.add_zero, Memory.read_writeList_other _ _ _ _ (by omega)]; simp
    | succ k =>
      have := ih (m.write a v) (a + 1) k (by simpa using h)
      rw [show a + (k + 1) = a + 1 + k by omega, this]; rfl

/-- Every address of a memory after a write is the written one or was there. -/
theorem Memory.mem_write {m : Memory} {a : Nat} {v : Byte} {x : Host.Cell} (h : x ∈ m.write a v) : x = (a, v) ∨ x ∈ m := by
  induction m with
  | nil => simpa [Memory.write] using h
  | cons y r ih =>
    obtain ⟨b, w⟩ := y
    simp only [Memory.write] at h
    split_ifs at h with h1 h2
    · simpa using h
    · rcases List.mem_cons.1 h with h | h
      · exact .inl h
      · exact .inr (List.mem_cons_of_mem _ h)
    · rcases List.mem_cons.1 h with h | h
      · exact .inr (by simp [h])
      · rcases ih h with h | h
        · exact .inl h
        · exact .inr (List.mem_cons_of_mem _ h)

/-- A write keeps the canonical form. -/
theorem Memory.wf_write {m : Memory} (h : m.wf) (a : Nat) (v : Byte) : (m.write a v).wf := by
  induction m with
  | nil => simp [Memory.write]
  | cons y r ih =>
    obtain ⟨b, w⟩ := y
    simp only [Memory.wf, List.pairwise_cons] at h
    simp only [Memory.write]
    split_ifs with h1 h2
    · refine List.pairwise_cons.2 ⟨?_, List.pairwise_cons.2 h⟩
      intro z hz
      rcases List.mem_cons.1 hz with rfl | hz
      · exact h1
      · exact lt_trans h1 (h.1 z hz)
    · subst h2; exact List.pairwise_cons.2 ⟨h.1, h.2⟩
    · refine List.pairwise_cons.2 ⟨?_, ih h.2⟩
      intro z hz
      rcases Memory.mem_write hz with rfl | hz
      · show b < a; omega
      · exact h.1 z hz

/-- Forgetting keeps the canonical form. -/
theorem Memory.wf_erase {m : Memory} (h : m.wf) (a : Nat) : (m.erase a).wf := List.Pairwise.filter _ h

/-- Writing a list below a bound keeps every address below it. -/
theorem Memory.space_writeList (l : List Byte) {n : Nat} : ∀ {m : Memory} (_ : ∀ x ∈ m, x.1 < n) (a : Nat), a + l.length ≤ n →
    ∀ x ∈ m.writeList a l, x.1 < n := by
  induction l with
  | nil => intro m h a _; exact h
  | cons v r ih =>
    intro m h a ha
    simp only [List.length_cons] at ha
    refine ih (fun x hx => ?_) (a + 1) (by omega)
    rcases Memory.mem_write hx with rfl | hx
    · show a < n; omega
    · exact h x hx

/-- Writing a list keeps the canonical form. -/
theorem Memory.wf_writeList (l : List Byte) : ∀ {m : Memory} (_ : m.wf) (a : Nat), (m.writeList a l).wf := by
  induction l with
  | nil => intro m h a; exact h
  | cons v r ih => intro m h a; exact ih (Memory.wf_write h a v) (a + 1)

/-! The session store. -/

/-- The record put is the one found. -/
@[simp] theorem sessLookup_put_same (x : Session) (l : List Session) : sessLookup x.clientId (sessPut x l) = some x := by
  induction l with
  | nil => simp [sessPut, sessLookup]
  | cons y r ih =>
    simp only [sessPut]
    split_ifs with h1 h2
    · simp [sessLookup]
    · simp [sessLookup]
    · simp [sessLookup, Ne.symm h2, ih]

/-- The record found has the key looked up. -/
theorem sessLookup_key {k : Word} {x : Session} {l : List Session} (h : sessLookup k l = some x) : x.clientId = k := by
  induction l with
  | nil => cases h
  | cons y r ih =>
    unfold sessLookup at h
    split_ifs at h with hk
    · cases h; exact hk
    · exact ih h

/-- Every other client's record is untouched. -/
theorem sessLookup_put_other {x : Session} {k : Word} (h : k ≠ x.clientId) (l : List Session) :
    sessLookup k (sessPut x l) = sessLookup k l := by
  induction l with
  | nil => simp [sessPut, sessLookup, Ne.symm h]
  | cons y r ih =>
    simp only [sessPut]
    split_ifs with h1 h2
    · simp [sessLookup, Ne.symm h]
    · simp [sessLookup, Ne.symm h, ← h2]
    · simp only [sessLookup, ih]

/-- What is in the store after a put. -/
theorem mem_sessPut {x y : Session} {l : List Session} (h : y ∈ sessPut x l) : y = x ∨ y ∈ l := by
  induction l with
  | nil => simpa [sessPut] using h
  | cons z r ih =>
    simp only [sessPut] at h
    split_ifs at h with h1 h2
    · simpa using h
    · rcases List.mem_cons.1 h with h | h
      · exact .inl h
      · exact .inr (List.mem_cons_of_mem _ h)
    · rcases List.mem_cons.1 h with h | h
      · exact .inr (by simp [h])
      · rcases ih h with h | h
        · exact .inl h
        · exact .inr (List.mem_cons_of_mem _ h)

/-- A put keeps the keys strictly rising. -/
theorem sessWf_put {l : List Session} (h : sessWf l) (x : Session) : sessWf (sessPut x l) := by
  induction l with
  | nil => simp [sessPut, sessWf]
  | cons y r ih =>
    simp only [sessWf, List.pairwise_cons] at h
    simp only [sessPut]
    split_ifs with h1 h2
    · refine List.pairwise_cons.2 ⟨?_, List.pairwise_cons.2 h⟩
      intro z hz
      rcases List.mem_cons.1 hz with rfl | hz
      · exact h1
      · exact lt_trans h1 (h.1 z hz)
    · exact List.pairwise_cons.2 ⟨by rw [h2]; exact h.1, h.2⟩
    · refine List.pairwise_cons.2 ⟨?_, ih h.2⟩
      intro z hz
      rcases mem_sessPut hz with hz | hz
      · subst hz
        have : z.clientId.toNat ≠ y.clientId.toNat := fun e => h2 (BitVec.eq_of_toNat_eq e)
        omega
      · exact h.1 z hz

/-- A record found is in the store, under its key. -/
theorem sessLookup_some {k : Word} {l : List Session} {x : Session} (h : sessLookup k l = some x) : x ∈ l ∧ x.clientId = k := by
  induction l with
  | nil => simp [sessLookup] at h
  | cons y r ih =>
    simp only [sessLookup] at h
    split_ifs at h with hk
    · cases h; exact ⟨List.mem_cons_self, hk⟩
    · exact ⟨List.mem_cons_of_mem _ (ih h).1, (ih h).2⟩

end Sys2Proof.Machine
end

