-- ==== Sys2Proof/Laws/Turns.lean ====
section
/-! SUPPORT. Draws, and a turn of the chip, once: what it can move of the interface, and what it leaves to the frames. -/

namespace Sys2Proof.Machine

/-! ### Draws -/

/-- Of the environment only what frames use up has moved: supplied SDI levels, choices and counts of the chip, packets on the air, and the
free-value counter. -/
def Env.FrameOnly (e e' : Env) : Prop :=
  e' = { e with sdiIn := e'.sdiIn, choiceIn := e'.choiceIn, countIn := e'.countIn, airIn := e'.airIn, draws := e'.draws }

theorem Env.FrameOnly.refl (e : Env) : e.FrameOnly e := rfl

theorem Env.FrameOnly.trans {a b c : Env} (h : a.FrameOnly b) (h' : b.FrameOnly c) : a.FrameOnly c := by
  unfold Env.FrameOnly at *; rw [h', h]

theorem Env.FrameOnly.premises {e e' : Env} (h : e.FrameOnly e') : e'.premises = e.premises := by rw [h]
theorem Env.FrameOnly.busyIn {e e' : Env} (h : e.FrameOnly e') : e'.busyIn = e.busyIn := by rw [h]
theorem Env.FrameOnly.settleIn {e e' : Env} (h : e.FrameOnly e') : e'.settleIn = e.settleIn := by rw [h]
theorem Env.FrameOnly.nowIn {e e' : Env} (h : e.FrameOnly e') : e'.nowIn = e.nowIn := by rw [h]
theorem Env.FrameOnly.rndIn {e e' : Env} (h : e.FrameOnly e') : e'.rndIn = e.rndIn := by rw [h]

/-- The same, and no packet has arrived. -/
def Env.TurnOnly (e e' : Env) : Prop :=
  e' = { e with sdiIn := e'.sdiIn, choiceIn := e'.choiceIn, countIn := e'.countIn, draws := e'.draws }

theorem Env.TurnOnly.refl (e : Env) : e.TurnOnly e := rfl

theorem Env.TurnOnly.trans {a b c : Env} (h : a.TurnOnly b) (h' : b.TurnOnly c) : a.TurnOnly c := by
  unfold Env.TurnOnly at *; rw [h', h]

theorem Env.TurnOnly.frameOnly {e e' : Env} (h : e.TurnOnly e') : e.FrameOnly e' := by
  unfold Env.TurnOnly at h; unfold Env.FrameOnly; rw [h]

theorem Env.TurnOnly.premises {e e' : Env} (h : e.TurnOnly e') : e'.premises = e.premises := by rw [h]
theorem Env.TurnOnly.busyIn {e e' : Env} (h : e.TurnOnly e') : e'.busyIn = e.busyIn := by rw [h]
theorem Env.TurnOnly.airIn {e e' : Env} (h : e.TurnOnly e') : e'.airIn = e.airIn := by rw [h]

/-- Of the environment only what bits use up has moved: supplied SDI levels and the free-value counter. -/
def Env.SdiOnly (e e' : Env) : Prop := e' = { e with sdiIn := e'.sdiIn, draws := e'.draws }

theorem Env.SdiOnly.refl (e : Env) : e.SdiOnly e := rfl

theorem Env.SdiOnly.trans {a b c : Env} (h : a.SdiOnly b) (h' : b.SdiOnly c) : a.SdiOnly c := by
  unfold Env.SdiOnly at *; rw [h', h]

theorem Env.SdiOnly.turnOnly {e e' : Env} (h : e.SdiOnly e') : e.TurnOnly e' := by
  unfold Env.SdiOnly at h; unfold Env.TurnOnly; rw [h]

theorem Env.SdiOnly.premises {e e' : Env} (h : e.SdiOnly e') : e'.premises = e.premises := by rw [h]
theorem Env.SdiOnly.countIn {e e' : Env} (h : e.SdiOnly e') : e'.countIn = e.countIn := by rw [h]

theorem drawSdi_only (e : Env) : e.SdiOnly e.drawSdi.2 := by
  unfold Env.drawSdi; cases e.sdiIn <;> simp [Env.SdiOnly]

theorem drawSdo_only (e : Env) : e.SdiOnly e.drawSdo.2 := rfl

theorem drawChoice_only (e : Env) : e.TurnOnly e.drawChoice.2 := by
  unfold Env.drawChoice; cases e.choiceIn <;> simp [Env.TurnOnly]

theorem drawCount_only (e : Env) : e.TurnOnly e.drawCount.2 := by
  unfold Env.drawCount; cases e.countIn <;> simp [Env.TurnOnly]

theorem knownByte_only (b : Option Byte) (e : Env) : e.TurnOnly (e.knownByte b).2 := by cases b <;> exact rfl

theorem knownIdent_only (x : Option Word) (e : Env) : e.TurnOnly (e.knownIdent x).2 := by cases x <;> exact rfl

theorem knownBytes_only (l : List (Option Byte)) : ∀ e : Env, e.TurnOnly (Env.knownBytes l e).2 := by
  induction l with
  | nil => intro e; rfl
  | cons b r ih => intro e; exact (knownByte_only b e).trans (ih _)

theorem drawBits_only (n : Nat) : ∀ e : Env, e.SdiOnly (Env.drawBits n e).2 := by
  induction n with
  | zero => intro e; rfl
  | succ n ih => intro e; exact (drawSdi_only e).trans (ih _)

theorem drawByte_only (e : Env) : e.SdiOnly e.drawByte.2 := drawBits_only 8 e

theorem drawBusy_cons {e : Env} {b : Bool} {r : List Bool} (h : e.busyIn = b :: r) : e.drawBusy = (b, { e with busyIn := r }) := by
  simp [Env.drawBusy, h]

theorem drawSettle_cons {e : Env} {b : Bool} {r : List Bool} (h : e.settleIn = b :: r) :
    e.drawSettle = (b, { e with settleIn := r }) := by
  simp [Env.drawSettle, h]

theorem drawChoice_cons {e : Env} {b : Bool} {r : List Bool} (h : e.choiceIn = b :: r) :
    e.drawChoice = (b, { e with choiceIn := r }) := by
  simp [Env.drawChoice, h]

theorem drawCount_cons {e : Env} {n : Nat} {r : List Nat} (h : e.countIn = n :: r) : e.drawCount = (n, { e with countIn := r }) := by
  simp [Env.drawCount, h]

@[simp] theorem drawBusy_premises (e : Env) : e.drawBusy.2.premises = e.premises := by
  unfold Env.drawBusy; split <;> rfl

@[simp] theorem drawSettle_premises (e : Env) : e.drawSettle.2.premises = e.premises := by
  unfold Env.drawSettle; split <;> rfl

@[simp] theorem drawNow_premises (e : Env) : e.drawNow.2.premises = e.premises := by
  unfold Env.drawNow; split <;> rfl

@[simp] theorem drawRandom_premises (e : Env) : e.drawRandom.2.premises = e.premises := by
  unfold Env.drawRandom; split <;> rfl

/-- Bytes that are all known are those bytes, and nothing is drawn. -/
theorem knownBytes_some (l : List Byte) (e : Env) : Env.knownBytes (l.map some) e = (l, e) := by
  induction l with
  | nil => rfl
  | cons b r ih => simp [Env.knownBytes, Env.knownByte, ih]

/-! ### A turn of the chip -/

/-- From `a` to `b` the chip has had a turn: draws, how far its operation is, the packet on its way and the packets sent; and whether it listens
is as it was. -/
structure ChipTurn (a b : Io) : Prop where
  io : b = { a with env := b.env, chip := { a.chip with op := b.chip.op, sending := b.chip.sending, sent := b.chip.sent } }
  env : a.env.TurnOnly b.env
  listening : b.chip.listening = a.chip.listening

theorem ChipTurn.refl (a : Io) : ChipTurn a a := ⟨rfl, rfl, rfl⟩

theorem ChipTurn.trans {a b c : Io} (h : ChipTurn a b) (h' : ChipTurn b c) : ChipTurn a c := by
  refine ⟨?_, h.env.trans h'.env, h'.listening.trans h.listening⟩
  have h1 := h.io
  have h2 := h'.io
  rw [h1] at h2
  exact h2

theorem ChipTurn.premises {a b : Io} (h : ChipTurn a b) : b.env.premises = a.env.premises := h.env.premises
theorem ChipTurn.mode {a b : Io} (h : ChipTurn a b) : b.chip.mode = a.chip.mode := by rw [h.io]
theorem ChipTurn.unknown {a b : Io} (h : ChipTurn a b) : b.chip.unknown = a.chip.unknown := by rw [h.io]

theorem ChipTurn.governed {a b : Io} (h : ChipTurn a b) : b.governed = a.governed := by
  unfold Io.governed; rw [h.premises, h.mode, h.unknown]

theorem ChipTurn.places {a b : Io} (h : ChipTurn a b) : b.chip.places = a.chip.places := by
  unfold Chip.places; rw [h.listening, h.io]; rfl

theorem packet_only (c : Config) (io : Io) : io.env.TurnOnly (io.packet c).2 := by
  unfold Io.packet
  exact ((knownIdent_only _ _).trans (knownByte_only _ _)).trans ((knownByte_only _ _).trans (knownBytes_only _ _))

/-- A transmission that begins is a turn of the chip. -/
theorem beginSend_turn (c : Config) {io : Io} (hm : io.chip.mode = .tx) : ChipTurn io (io.beginSend c) := by
  have he := (packet_only c io).trans (drawCount_only (io.packet c).2)
  unfold Io.beginSend
  dsimp only
  split
  · exact ⟨rfl, he, by simp [Chip.listening, Chip.finishSend, hm]⟩
  · exact ⟨rfl, he, by simp [Chip.listening, hm]⟩

/-- The start of the operation strobed is a turn of the chip. -/
theorem begin_turn (c : Config) {io : Io} (h : io.chip.op ≠ .over) : ChipTurn io (io.begin c) := by
  unfold Io.begin
  split_ifs with hm
  · exact beginSend_turn c hm
  · exact ⟨rfl, rfl, by simp [Chip.listening, h]⟩

/-- Every turn the chip takes moves only what `ChipTurn` says. -/
theorem advance_turn (c : Config) (io : Io) : ChipTurn io (io.advance c) := by
  unfold Io.advance
  by_cases hg : io.governed = true
  · rw [if_pos hg]
    split
    · rename_i h
      split
      · exact begin_turn c (by rw [h]; simp)
      · exact ⟨rfl, drawCount_only _, by simp [Chip.listening, h]⟩
    · rename_i h; exact begin_turn c (by rw [h]; simp)
    · rename_i h; exact ⟨rfl, rfl, by simp [Chip.listening, h]⟩
    · split
      · rename_i hm; exact ⟨rfl, rfl, by simp [Chip.listening, Chip.finishSend, hm]⟩
      · exact ChipTurn.refl io
    · rename_i h; exact ⟨rfl, rfl, by simp [Chip.listening, h]⟩
    · exact ChipTurn.refl io
    · exact ChipTurn.refl io
  · rw [if_neg hg]
    exact ChipTurn.refl io

theorem cutOff_turn (c : Config) (io : Io) : ChipTurn io (io.cutOff c) := by
  have hd := drawChoice_only io.env
  unfold Io.cutOff
  dsimp only
  split_ifs
  · split
    · exact ⟨rfl, hd, rfl⟩
    · exact ⟨rfl, hd.trans (packet_only c { io with env := io.env.drawChoice.2 }), rfl⟩
  · exact ⟨rfl, hd, rfl⟩

/-- A chip that neither listens nor sends takes no turn. -/
theorem advance_quiet (c : Config) {io : Io} (hl : io.chip.listening = false) (hs : io.sendingNow = false) : io.advance c = io := by
  unfold Io.advance
  split
  · rename_i hg
    have hop : io.chip.op = .idle ∨ io.chip.op = .over := by
      cases hm : io.chip.mode <;> simp [Io.governed, hm] at hg
      · exact .inr (by simpa [Chip.listening, hm] using hl)
      · have hs' := hs
        unfold Io.sendingNow Io.governed at hs'
        simp [hm, hg] at hs'
        by_cases h : io.chip.op = .idle
        · exact .inl h
        · exact .inr (hs' h)
    rcases hop with h | h <;> rw [h]
  · rfl

/-! ### A packet that arrives -/

/-- Looking for a packet uses up choices only. -/
theorem nextFor_only (c : Config) (k : Chip) (l : List AirPacket) : ∀ e : Env, e.TurnOnly (nextFor c k l e).2 := by
  induction l with
  | nil => intro e; rfl
  | cons p r ih =>
    intro e
    unfold nextFor
    split
    · rfl
    · exact ih e
    · dsimp only
      split_ifs
      · exact drawChoice_only e
      · exact (drawChoice_only e).trans (ih _)

/-- The packet found is one that is on the air, and the chip may hear it. -/
theorem nextFor_mem {c : Config} {k : Chip} {p : AirPacket} {rest : List AirPacket} (l : List AirPacket) :
    ∀ e : Env, (nextFor c k l e).1 = some (p, rest) → p ∈ l ∧ hears c k p ≠ some false := by
  induction l with
  | nil => intro e h; cases h
  | cons a r ih =>
    intro e h
    unfold nextFor at h
    split at h
    · rename_i ha
      cases h; exact ⟨List.mem_cons_self, by rw [ha]; simp⟩
    · exact (ih _ h).imp_left (List.mem_cons_of_mem _)
    · rename_i ha
      dsimp only at h
      split_ifs at h
      · cases h; exact ⟨List.mem_cons_self, by rw [ha]; simp⟩
      · exact (ih _ h).imp_left (List.mem_cons_of_mem _)

/-- A packet the chip may hear is for its identity and on its channel, where these are known. -/
theorem hears_for {c : Config} {k : Chip} {p : AirPacket} (h : hears c k p ≠ some false) :
    (∀ x, k.ident = some x → p.identity = x) ∧ ∀ ch, k.regs.read c.aChannel.toNat = some ch → p.channel = ch := by
  unfold hears at h
  cases hi : k.ident <;> cases hc : k.regs.read c.aChannel.toNat <;> simp_all

/-- Either no packet arrives and choices are used up, or one that is on the air does. -/
theorem arrive_cases (c : Config) (io : Io) :
    (∃ env, io.arrive c = (false, { io with env := env }) ∧ io.env.TurnOnly env) ∨
      ∃ env p, io.arrive c = (true, { io with env := env, chip := io.chip.receive c p }) ∧ io.env.FrameOnly env ∧
        p ∈ io.env.airIn ∧ hears c io.chip p ≠ some false := by
  have h := nextFor_only c io.chip io.env.airIn io.env
  unfold Io.arrive
  dsimp only
  cases hf : (nextFor c io.chip io.env.airIn io.env).1 with
  | none => exact .inl ⟨_, rfl, h⟩
  | some x =>
    refine .inr ⟨_, x.1, rfl, ?_, nextFor_mem (rest := x.2) _ _ (by rw [hf])⟩
    unfold Env.TurnOnly at h
    unfold Env.FrameOnly
    rw [h]

/-- A turn does not change what the chip hears. -/
theorem hears_turn (c : Config) {a b : Io} (h : ChipTurn a b) (p : AirPacket) : hears c b.chip p = hears c a.chip p := by
  unfold hears; rw [h.io]

/-- A chip whose listening goes on listens. -/
theorem governed_running {io : Io} {n : Nat} (hm : io.chip.mode = .rx) (ho : io.chip.op = .running n) : io.chip.listening = true := by
  simp [Chip.listening, hm, ho]

/-- A chip that listens is governed where CP5 is assumed and the premises are not void. -/
theorem governed_listening {io : Io} (hl : io.chip.listening = true) : io.governed = (!io.chip.unknown && io.env.premises.cp5) := by
  have hm : io.chip.mode = .rx := by simp [Chip.listening] at hl; exact hl.1
  simp [Io.governed, hm]

/-- A turn of the chip before a frame: its operation goes on; and, while it listens, a packet that is on the air may arrive under CP5, and without
it nothing is known of the FIFO any more. -/
theorem turn_cases (c : Config) (io : Io) :
    ChipTurn io (io.turn c) ∧ (io.chip.listening = true → io.governed = true) ∨
      io.chip.listening = true ∧ io.governed = true ∧ (∃ b env p, ChipTurn io b ∧ (p ∈ io.env.airIn ∧ hears c io.chip p ≠ some false) ∧
        io.env.FrameOnly env ∧ io.turn c = { b with env := env, chip := b.chip.receive c p }) ∨
      io.chip.listening = true ∧ io.governed = false ∧ io.turn c = { io with chip := { io.chip with fifo := [] } } := by
  have ha := advance_turn c io
  unfold Io.turn Io.hear
  cases hl : io.chip.listening with
  | false => rw [if_neg (by rw [ha.listening, hl]; simp)]; exact .inl ⟨ha, fun h => by cases h⟩
  | true =>
    rw [if_pos (by rw [ha.listening, hl])]
    cases hg : io.governed with
    | false =>
      have e : io.advance c = io := by unfold Io.advance; simp [hg]
      rw [if_neg (by rw [ha.governed, hg]; simp), e]
      exact .inr (.inr ⟨rfl, rfl, rfl⟩)
    | true =>
      rw [if_pos (by rw [ha.governed, hg])]
      split
      · have hd := drawChoice_only (io.advance c).env
        have ht : ChipTurn io { io.advance c with env := (io.advance c).env.drawChoice.2 } := ha.trans ⟨rfl, hd, rfl⟩
        dsimp only
        split_ifs
        · rcases arrive_cases c { io.advance c with env := (io.advance c).env.drawChoice.2 } with ⟨env, h, he⟩ | ⟨env, p, h, he, hp⟩ <;> rw [h]
          · exact .inl ⟨ht.trans ⟨rfl, he, rfl⟩, fun _ => rfl⟩
          · refine .inr (.inl ⟨rfl, rfl, _, env, p, ht, ?_, ht.env.frameOnly.trans he, rfl⟩)
            rw [← ht.env.airIn, ← hears_turn c ht p]; exact hp
        · exact .inl ⟨ht, fun _ => rfl⟩
      all_goals exact .inl ⟨ha, fun _ => rfl⟩

/-- A chip that does not listen hears nothing. -/
theorem turn_deaf (c : Config) {io : Io} (h : io.chip.listening = false) : ChipTurn io (io.turn c) := by
  rcases turn_cases c io with ht | ⟨h1, -⟩ | ⟨h1, -⟩
  · exact ht.1
  all_goals rw [h] at h1; cases h1

/-- A turn touches nothing of the interface but draws and the chip. -/
theorem turn_only (c : Config) (io : Io) :
    io.turn c = { io with env := (io.turn c).env, chip := (io.turn c).chip } ∧ io.env.FrameOnly (io.turn c).env := by
  rcases turn_cases c io with ⟨h, -⟩ | ⟨-, -, b, env, p, hb, -, he, h⟩ | ⟨-, -, h⟩
  · refine ⟨?_, h.env.frameOnly⟩
    have e := h.io
    generalize io.turn c = t at *
    rw [e]
  · rw [h]
    refine ⟨?_, he⟩
    dsimp only
    rw [hb.io]
  · rw [h]; exact ⟨rfl, rfl⟩

theorem turn_quiet (c : Config) {io : Io} (hl : io.chip.listening = false) (hs : io.sendingNow = false) : io.turn c = io := by
  unfold Io.turn Io.hear
  rw [advance_quiet c hl hs, hl]
  simp

/-- Without CP5 the turn of a chip that listens forgets the FIFO and does nothing else. -/
theorem turn_forgets (c : Config) {io : Io} (hl : io.chip.listening = true) (hg : io.governed = false) :
    io.turn c = { io with chip := { io.chip with fifo := [] } } := by
  rcases turn_cases c io with ⟨-, h⟩ | ⟨-, h, -⟩ | ⟨-, -, h⟩
  · rw [h hl] at hg; cases hg
  · rw [h] at hg; cases hg
  · exact h

/-- Where no premise speaks of an operation, a turn uses up nothing, and none does after it. -/
theorem turn_free (c : Config) {io : Io} (h : io.governed = false) :
    (io.turn c).env = io.env ∧ (io.turn c).governed = false := by
  cases hl : io.chip.listening with
  | true => rw [turn_forgets c hl h]; exact ⟨rfl, h⟩
  | false => rw [turn_quiet c hl (by simp [Io.sendingNow, h])]; exact ⟨rfl, h⟩

/-- What a chip is after turns of its own: how far it is, what it sends, and, if a packet arrived, status and FIFO may differ. -/
structure Turned (c : Config) (a k : Chip) : Prop where
  keeps : k = { a with op := k.op, sending := k.sending, sent := k.sent, fifo := k.fifo, status := k.status }
  fifo : k.fifo = a.fifo ∨ (∃ p, k.fifo = (a.receive c p).fifo) ∨ k.fifo = []

theorem ChipTurn.turned {a b : Io} (h : ChipTurn a b) (c : Config) : Turned c a.chip b.chip := by
  rw [h.io]; exact ⟨rfl, .inl rfl⟩

theorem turn_turned (c : Config) (io : Io) : Turned c io.chip (io.turn c).chip := by
  rcases turn_cases c io with ⟨h, -⟩ | ⟨-, -, b, env, p, hb, -, -, h⟩ | ⟨-, -, h⟩
  · exact h.turned c
  · rw [h]
    show Turned c io.chip (b.chip.receive c p)
    rw [hb.io]
    exact ⟨rfl, .inr (.inl ⟨p, rfl⟩)⟩
  · rw [h]; exact ⟨rfl, .inr (.inr rfl)⟩

theorem Turned.base {c : Config} {a k : Chip} (h : Turned c a k) : k.base = a.base := by rw [h.keeps]; rfl
theorem Turned.mode {c : Config} {a k : Chip} (h : Turned c a k) : k.mode = a.mode := by rw [h.keeps]
theorem Turned.regs {c : Config} {a k : Chip} (h : Turned c a k) : k.regs = a.regs := by rw [h.keeps]
theorem Turned.unknown {c : Config} {a k : Chip} (h : Turned c a k) : k.unknown = a.unknown := by rw [h.keeps]

/-! ### The chip performs a frame's effect -/

/-- A frame's effect (R81); before it a transmission may be cut off. -/
theorem perform_turn (c : Config) (out q : List Byte) (io : Io) :
    ∃ b, ChipTurn io b ∧ io.perform c out q = { b with chip := b.chip.afterFrame c out q } := by
  unfold Io.perform
  dsimp only
  split_ifs
  · exact ⟨_, cutOff_turn c io, rfl⟩
  · exact ⟨_, ChipTurn.refl io, rfl⟩

/-- Where no transmission is under way the chip is what `afterFrame` says, and nothing is drawn. -/
theorem perform_still (c : Config) (out q : List Byte) {io : Io} (hs : io.sendingNow = false) :
    io.perform c out q = { io with chip := io.chip.afterFrame c out q } := by
  unfold Io.perform
  simp [hs]

theorem perform_free (c : Config) (out q : List Byte) {io : Io} (h : io.governed = false) :
    io.perform c out q = { io with chip := io.chip.afterFrame c out q } := perform_still c out q (by simp [Io.sendingNow, h])

/-! ### What a frame leaves depends on the places alone -/

theorem base_ext {k k' : Chip} :
    k.base = k'.base ↔ k.regs = k'.regs ∧ k.ident = k'.ident ∧ k.wptr = k'.wptr ∧ k.rptr = k'.rptr ∧ k.mode = k'.mode := by
  simp [Chip.base]

theorem places_ext {k k' : Chip} :
    k.places = k'.places ↔ k.regs = k'.regs ∧ k.ident = k'.ident ∧ k.fifo = k'.fifo ∧ k.wptr = k'.wptr ∧ k.rptr = k'.rptr ∧
      k.mode = k'.mode ∧ k.listening = k'.listening := by
  simp only [Chip.places, Chip.base, Prod.mk.injEq]; tauto

/-- The same, with whether a packet may be stored spelt out. -/
theorem places_ext' {k k' : Chip} :
    k.places = k'.places ↔ k.regs = k'.regs ∧ k.ident = k'.ident ∧ k.fifo = k'.fifo ∧ k.wptr = k'.wptr ∧ k.rptr = k'.rptr ∧
      k.mode = k'.mode ∧ (k'.mode = .rx → (k.op = .over ↔ k'.op = .over)) := by
  rw [places_ext]
  constructor
  · rintro ⟨h1, h2, h3, h4, h5, h6, h7⟩
    refine ⟨h1, h2, h3, h4, h5, h6, fun hm => ?_⟩
    simpa [Chip.listening, h6, hm, not_iff_not] using h7
  · rintro ⟨h1, h2, h3, h4, h5, h6, h7⟩
    refine ⟨h1, h2, h3, h4, h5, h6, ?_⟩
    by_cases hm : k'.mode = .rx
    · simp [Chip.listening, h6, hm, h7 hm]
    · simp [Chip.listening, h6, hm]

/-- What a strobe leaves in the places depends on what was in them, and on nothing else of the chip. -/
theorem chipStrobe_places {k k' : Chip} (h : k.places = k'.places) (c : Config) (b : Byte) :
    (k.strobe c b).places = (k'.strobe c b).places := by
  obtain ⟨h1, h2, h3, h4, h5, h6, h7⟩ := places_ext'.1 h
  unfold Chip.strobe
  split_ifs <;> rw [places_ext'] <;> simp only [h1, h2, h3, h4, h5, h6, true_and] <;> first | exact h7 | simp

theorem fill_places {k k' : Chip} (h : k.places = k'.places) (data : List Byte) : (k.fill data).places = (k'.fill data).places := by
  obtain ⟨h1, h2, h3, h4, h5, h6, h7⟩ := places_ext.1 h
  have h8 := (places_ext'.1 h).2.2.2.2.2.2
  unfold Chip.fill
  rw [h4]
  split <;> rw [places_ext'] <;> simp only [h1, h2, h3, h5, h6, true_and] <;> exact h8

theorem writeReg_places {k k' : Chip} (h : k.places = k'.places) (a : Addr) (data : List Byte) :
    (k.writeReg a data).places = (k'.writeReg a data).places := by
  obtain ⟨h1, h2, h3, h4, h5, h6, h7⟩ := places_ext'.1 h
  unfold Chip.writeReg
  split <;> rw [places_ext'] <;> simp only [h1, h2, h3, h4, h5, h6, true_and] <;> exact h7

theorem chipWrite_places {k k' : Chip} (h : k.places = k'.places) (c : Config) (a : Addr) (data : List Byte) :
    (k.write c a data).places = (k'.write c a data).places := by
  obtain ⟨h1, h2, h3, h4, h5, h6, h7⟩ := places_ext'.1 h
  unfold Chip.write
  rw [h6]
  split_ifs
  · exact fill_places h data
  · rw [places_ext']; simp only [h1, h3, h4, h5, true_and]; exact h7
  · rw [places_ext']; simp [Chip.forget]
  · rw [places_ext']; simp only [h1, h3, h4, h5, true_and]; exact h7
  · obtain ⟨g1, g2, g3, g4, g5, g6, g7⟩ := places_ext'.1 (writeReg_places h a data)
    rw [places_ext']
    exact ⟨g1, g2, g3, g4, g5, g6, g7⟩
  · exact writeReg_places h a data

theorem chipRead_places {k k' : Chip} (h : k.places = k'.places) (c : Config) (a : Addr) (q : List Byte) :
    (k.read c a q).places = (k'.read c a q).places := by
  obtain ⟨h1, h2, h3, h4, h5, h6, h7⟩ := places_ext'.1 h
  unfold Chip.read
  split
  · rw [places_ext']; simp only [h1, h2, h3, h4, h5, h6, true_and]; exact h7
  · split
    · exact h
    · rw [places_ext']; simp only [h1, h2, h3, h4, h5, h6, true_and]; exact h7

/-- What a frame leaves in the places depends on what was in them, and on nothing else of the chip. -/
theorem afterFrame_places {k k' : Chip} (h : k.places = k'.places) (c : Config) (out q : List Byte) :
    (k.afterFrame c out q).places = (k'.afterFrame c out q).places := by
  unfold Chip.afterFrame
  split
  · exact h
  · split_ifs
    · exact chipStrobe_places h c _
    · exact h
    · exact chipRead_places h c _ _
    · exact chipWrite_places h c _ _

/-- What a frame leaves in registers, identifier, pointers and mode depends on what was in them, and not on the FIFO. -/
theorem afterFrame_base {k k' : Chip} (h : k.base = k'.base) (c : Config) (out q : List Byte) :
    (k.afterFrame c out q).base = (k'.afterFrame c out q).base := by
  obtain ⟨h1, h2, h3, h4, h5⟩ := base_ext.1 h
  unfold Chip.afterFrame
  split
  · exact h
  · split_ifs
    · unfold Chip.strobe
      split_ifs <;> rw [base_ext] <;> simp [h1, h2, h3, h4, h5]
    · exact h
    · unfold Chip.read
      split_ifs <;> rw [base_ext] <;> simp [h1, h2, h3, h4, h5]
    · have hw : ∀ a data, (k.writeReg a data).base = (k'.writeReg a data).base := by
        intro a data
        unfold Chip.writeReg
        split <;> rw [base_ext] <;> simp [h1, h2, h3, h4, h5]
      unfold Chip.write
      rw [h5]
      split_ifs
      · unfold Chip.fill
        rw [h3]
        split <;> rw [base_ext] <;> simp [h1, h2, h4, h5]
      · rw [base_ext]; simp [h1, h3, h4]
      · rw [base_ext]; simp [Chip.forget]
      · rw [base_ext]; simp [h1, h3, h4]
      · exact hw _ _
      · exact hw _ _

/-- The chip's part in a frame: its places are what the frame leaves in them. -/
@[simp] theorem perform_places (c : Config) (out q : List Byte) (io : Io) :
    (io.perform c out q).chip.places = (io.chip.afterFrame c out q).places := by
  obtain ⟨b, hb, h⟩ := perform_turn c out q io
  rw [h]
  exact afterFrame_places hb.places c out q

/-- The chip's part in a frame touches nothing of the interface but draws and the chip. -/
theorem perform_only (c : Config) (out q : List Byte) (io : Io) :
    io.perform c out q = { io with env := (io.perform c out q).env, chip := (io.perform c out q).chip } ∧
      io.env.TurnOnly (io.perform c out q).env := by
  obtain ⟨b, hb, h⟩ := perform_turn c out q io
  rw [h]
  refine ⟨?_, hb.env⟩
  have := hb.io
  dsimp only
  rw [this]

end Sys2Proof.Machine
end

