-- ==== Sys2Proof/Laws/Pins.lean ====
section
/-! SUPPORT. What a frame does, once: the pins end at rest, one record joins the history, the chip performs the frame's effect, and of the
environment only what `Env.FrameOnly` names moves. -/

namespace Sys2Proof.Machine

/-- The part of the interface no bit of a frame touches. -/
structure BitOnly (a b : Io) : Prop where
  csn : b.csn = a.csn
  busy : b.busy = a.busy
  history : b.history = a.history
  chip : b.chip = a.chip
  env : a.env.SdiOnly b.env

theorem BitOnly.refl (a : Io) : BitOnly a a := ⟨rfl, rfl, rfl, rfl, rfl⟩

theorem BitOnly.trans {a b c : Io} (h : BitOnly a b) (h' : BitOnly b c) : BitOnly a c :=
  ⟨h'.csn.trans h.csn, h'.busy.trans h.busy, h'.history.trans h.history, h'.chip.trans h.chip, h.env.trans h'.env⟩

/-! ### Sending -/

theorem bitsOut_cons (b : Bool) (r : List Bool) (io : Io) : io.bitsOut (b :: r) = (io.bitOut b).bitsOut r := rfl

theorem bytesOut_cons (v : Byte) (r : List Byte) (io : Io) : io.bytesOut (v :: r) = (io.byteOut v).bytesOut r := by
  simp only [Io.bytesOut, List.foldl_cons]

theorem bitOut_only (b : Bool) (io : Io) : BitOnly io (io.bitOut b) := ⟨rfl, rfl, rfl, rfl, rfl⟩

theorem bitsOut_only (l : List Bool) : ∀ io : Io, BitOnly io (io.bitsOut l) := by
  induction l with
  | nil => exact BitOnly.refl
  | cons b r ih => intro io; exact (bitOut_only b io).trans (ih _)

theorem byteOut_only (io : Io) (v : Byte) : BitOnly io (io.byteOut v) := bitsOut_only _ io

theorem bytesOut_only (l : List Byte) : ∀ io : Io, BitOnly io (io.bytesOut l) := by
  induction l with
  | nil => exact BitOnly.refl
  | cons v r ih => intro io; rw [bytesOut_cons]; exact (byteOut_only io v).trans (ih _)

/-- Sending uses no draw. -/
theorem bitsOut_env (l : List Bool) : ∀ io : Io, (io.bitsOut l).env = io.env := by
  induction l with
  | nil => intro io; rfl
  | cons b r ih => intro io; exact ih (io.bitOut b)

theorem bytesOut_env (l : List Byte) : ∀ io : Io, (io.bytesOut l).env = io.env := by
  induction l with
  | nil => intro io; rfl
  | cons v r ih => intro io; rw [bytesOut_cons, ih]; exact bitsOut_env _ io

/-- Sending samples nothing (R24). -/
theorem bitsOut_sdi (l : List Bool) : ∀ io : Io, (io.bitsOut l).sdi = io.sdi := by
  induction l with
  | nil => intro io; rfl
  | cons b r ih => intro io; exact ih (io.bitOut b)

theorem bytesOut_sdi (l : List Byte) : ∀ io : Io, (io.bytesOut l).sdi = io.sdi := by
  induction l with
  | nil => intro io; rfl
  | cons v r ih => intro io; rw [bytesOut_cons, ih]; exact bitsOut_sdi _ io

theorem bitsOut_sck (l : List Bool) : ∀ io : Io, io.sck = false → (io.bitsOut l).sck = false := by
  induction l with
  | nil => intro io h; exact h
  | cons b r ih => intro io _; exact ih (io.bitOut b) rfl

theorem bytesOut_sck (l : List Byte) : ∀ io : Io, io.sck = false → (io.bytesOut l).sck = false := by
  induction l with
  | nil => intro io h; exact h
  | cons v r ih => intro io h; rw [bytesOut_cons]; exact ih _ (bitsOut_sck _ io h)

/-! ### Receiving -/

theorem floatSdo_only (io : Io) : BitOnly io io.floatSdo := ⟨rfl, rfl, rfl, rfl, drawSdo_only _⟩

theorem sampleSdi_only (d : Option Bool) (io : Io) : BitOnly io (io.sampleSdi d).2 := by
  cases d with
  | some b => exact ⟨rfl, rfl, rfl, rfl, rfl⟩
  | none => exact ⟨rfl, rfl, rfl, rfl, drawSdi_only _⟩

theorem bitIn_only (d : Option Bool) (io : Io) : BitOnly io (io.bitIn d).2 := by
  have h1 : BitOnly io (io.floatSdo.setSck true) := (floatSdo_only io).trans ⟨rfl, rfl, rfl, rfl, rfl⟩
  exact (h1.trans (sampleSdi_only d _)).trans ⟨rfl, rfl, rfl, rfl, rfl⟩

theorem bitsIn_only (l : List (Option Bool)) : ∀ io : Io, BitOnly io (Io.bitsIn l io).2 := by
  induction l with
  | nil => exact BitOnly.refl
  | cons d r ih => intro io; exact (bitIn_only d io).trans (ih _)

theorem bytesIn_only (l : List (Option Byte)) : ∀ io : Io, BitOnly io (Io.bytesIn l io).2 := by
  induction l with
  | nil => exact BitOnly.refl
  | cons d r ih => intro io; exact (bitsIn_only (driveBits d) io).trans (ih _)

theorem bytesIn_length (l : List (Option Byte)) : ∀ io : Io, (Io.bytesIn l io).1.length = l.length := by
  induction l with
  | nil => intro io; rfl
  | cons d r ih => intro io; simp only [Io.bytesIn, List.length_cons, ih]

theorem bitsIn_sck (l : List (Option Bool)) : ∀ io : Io, io.sck = false → (Io.bitsIn l io).2.sck = false := by
  induction l with
  | nil => intro io h; exact h
  | cons d r ih => intro io _; exact ih (io.bitIn d).2 rfl

theorem bytesIn_sck (l : List (Option Byte)) : ∀ io : Io, io.sck = false → (Io.bytesIn l io).2.sck = false := by
  induction l with
  | nil => intro io h; exact h
  | cons d r ih => intro io h; exact ih _ (bitsIn_sck _ io h)

/-! ### The chip's answer -/

/-- The chip's answer moves only the environment's draws. -/
structure DrawOnly (a b : Io) : Prop extends BitOnly a b where
  sck : b.sck = a.sck
  sdo : b.sdo = a.sdo
  sdi : b.sdi = a.sdi
  pinTrace : b.pinTrace = a.pinTrace

theorem DrawOnly.refl (a : Io) : DrawOnly a a := ⟨BitOnly.refl a, rfl, rfl, rfl, rfl⟩

theorem drawStatus_only (f : Byte → Byte) (io : Io) : DrawOnly io (io.drawStatus f).2 :=
  ⟨⟨rfl, rfl, rfl, rfl, drawByte_only _⟩, rfl, rfl, rfl, rfl⟩

theorem drawCal_only (m : Byte) (x : Option Bool) (io : Io) : DrawOnly io (io.drawCal m x).2 := by
  unfold Io.drawCal
  repeat' (first | exact DrawOnly.refl io | exact drawStatus_only _ io | split)

theorem readDrive_only (c : Config) (a : Addr) (n : Nat) (io : Io) : DrawOnly io (io.readDrive c a n).2 := by
  unfold Io.readDrive
  repeat' (first | exact DrawOnly.refl io | exact drawStatus_only _ io | exact drawCal_only _ _ io | split | dsimp only)

theorem answer_only (c : Config) (out : List Byte) (n : Nat) (io : Io) : DrawOnly io (io.answer c out n).2 := by
  unfold Io.answer
  repeat' (first | exact DrawOnly.refl io | exact readDrive_only _ _ _ io | split)

theorem lastIdWrite_length {c : Config} {io : Io} {d : List Byte} (h : io.lastIdWrite c = some d) : d.length = 4 := by
  unfold Io.lastIdWrite at h
  split at h
  · split_ifs at h with hc
    cases h; exact hc.2
  · cases h

@[simp] theorem drawCal_length (m : Byte) (x : Option Bool) (io : Io) : (io.drawCal m x).1.length = 1 := by
  unfold Io.drawCal
  repeat' split
  all_goals rfl

@[simp] theorem drain_length (n : Nat) (k : Chip) : (k.drain n).length = n := by
  unfold Chip.drain
  split <;> simp

theorem readDrive_length (c : Config) (a : Addr) (n : Nat) (io : Io) : (io.readDrive c a n).1.length = n := by
  unfold Io.readDrive
  dsimp only
  repeat' split
  all_goals first
    | (simp; done)
    | (rename_i hd hc; simp [lastIdWrite_length hd, hc.2])
    | (simp only [Io.drawStatus, drawCal_length, List.length_cons, List.length_nil]; omega)

theorem answer_length (c : Config) (out : List Byte) (n : Nat) (io : Io) : (io.answer c out n).1.length = n := by
  unfold Io.answer
  split
  · split_ifs
    · exact readDrive_length _ _ _ _
    · simp
  · simp

/-! ### The frame -/

/-- The interface when the chip has answered and the bytes have been received. -/
theorem exchange_bitOnly (c : Config) (out : List Byte) (n : Nat) (io : Io) :
    BitOnly (io.setCsn false)
      (Io.bytesIn (((io.setCsn false).bytesOut out).answer c out n).1 (((io.setCsn false).bytesOut out).answer c out n).2).2 :=
  ((bytesOut_only out _).trans (answer_only c out n _).toBitOnly).trans (bytesIn_only _ _)

/-- The interface when the record has joined the history, before the chip performs the frame's effect. -/
def Io.recorded (c : Config) (out : List Byte) (n : Nat) (io : Io) : Io :=
  let r := Io.bytesIn (((io.setCsn false).bytesOut out).answer c out n).1 (((io.setCsn false).bytesOut out).answer c out n).2
  { (r.2.setCsn true).floatSdo with history := r.2.history ++ [⟨out, r.1⟩] }

theorem exchange_perform (c : Config) (out : List Byte) (n : Nat) (io : Io) :
    (io.exchange c out n).2 = (io.recorded c out n).perform c out (io.exchange c out n).1 := rfl

theorem recorded_history (c : Config) (out : List Byte) (n : Nat) (io : Io) :
    (io.recorded c out n).history = io.history ++ [⟨out, (io.exchange c out n).1⟩] :=
  congrArg (· ++ [(⟨out, (io.exchange c out n).1⟩ : FrameRecord)]) (exchange_bitOnly c out n io).history

theorem recorded_chip (c : Config) (out : List Byte) (n : Nat) (io : Io) : (io.recorded c out n).chip = io.chip :=
  (exchange_bitOnly c out n io).chip

theorem recorded_env (c : Config) (out : List Byte) (n : Nat) (io : Io) : io.env.SdiOnly (io.recorded c out n).env :=
  (show io.env.SdiOnly _ from (exchange_bitOnly c out n io).env).trans (drawSdo_only _)

theorem recorded_sendingNow (c : Config) (out : List Byte) (n : Nat) (io : Io) : (io.recorded c out n).sendingNow = io.sendingNow := by
  unfold Io.sendingNow Io.governed
  rw [recorded_chip, (recorded_env c out n io).premises]

/-- The chip's turn and the chip's part leave the pins and the history as the block left them. -/
theorem frame_after_record (c : Config) (out : List Byte) (n : Nat) (io : Io) :
    (io.frame c out n).2 =
      { (io.turn c).recorded c out n with env := (io.frame c out n).2.env, chip := (io.frame c out n).2.chip } :=
  (perform_only c out _ _).1

/-- A frame returns as many bytes as it was asked for. -/
@[simp] theorem frame_length (c : Config) (out : List Byte) (n : Nat) (io : Io) : (io.frame c out n).1.length = n := by
  unfold Io.frame Io.exchange
  simp only [bytesIn_length, answer_length]

/-- One record joins the history (R141). -/
@[simp] theorem frame_history (c : Config) (out : List Byte) (n : Nat) (io : Io) :
    (io.frame c out n).2.history = io.history ++ [⟨out, (io.frame c out n).1⟩] := by
  rw [frame_after_record, show io.history = (io.turn c).history by rw [(turn_only c io).1]]
  exact recorded_history c out n (io.turn c)

/-- The chip performs the frame's effect (R81), after turns of its own. -/
theorem frame_chip (c : Config) (out : List Byte) (n : Nat) (io : Io) :
    ∃ k, Turned c io.chip k ∧ (io.frame c out n).2.chip = k.afterFrame c out (io.frame c out n).1 := by
  obtain ⟨b, hb, hp⟩ := perform_turn c out (io.frame c out n).1 ((io.turn c).recorded c out n)
  refine ⟨b.chip, ?_, congrArg Io.chip hp⟩
  have h1 := hb.turned c
  rw [recorded_chip] at h1
  have h2 := turn_turned c io
  refine ⟨by rw [h1.keeps, h2.keeps], ?_⟩
  have hf : b.chip.fifo = (io.turn c).chip.fifo := by rw [hb.io]; dsimp only; rw [recorded_chip]
  rw [hf]
  exact h2.fifo

/-- Registers, identifier, pointers and mode are what the frame leaves in them (R81). -/
@[simp] theorem frame_base (c : Config) (out : List Byte) (n : Nat) (io : Io) :
    (io.frame c out n).2.chip.base = (io.chip.afterFrame c out (io.frame c out n).1).base := by
  obtain ⟨k, hk, h⟩ := frame_chip c out n io
  rw [h]
  exact afterFrame_base hk.base c out _

/-- So are all places of a chip that does not listen. -/
theorem frame_places (c : Config) (out : List Byte) (n : Nat) {io : Io} (h : io.chip.listening = false) :
    (io.frame c out n).2.chip.places = (io.chip.afterFrame c out (io.frame c out n).1).places := by
  show (Io.perform c out _ ((io.turn c).recorded c out n)).chip.places = _
  rw [perform_places, recorded_chip]
  exact afterFrame_places (turn_deaf c h).places c out _

/-- Under CP5 the places of a chip are what the frame leaves in them, or in those of the chip with a packet received (R76). -/
theorem frame_heard (c : Config) (out : List Byte) (n : Nat) {io : Io} (hg : io.governed = true) :
    (io.frame c out n).2.chip.places = (io.chip.afterFrame c out (io.frame c out n).1).places ∨
      ∃ p ∈ io.env.airIn, hears c io.chip p ≠ some false ∧ (io.frame c out n).2.chip.places =
        ((io.chip.receive c p).afterFrame c out (io.frame c out n).1).places := by
  have e : (io.frame c out n).2.chip.places = ((io.turn c).chip.afterFrame c out (io.frame c out n).1).places := by
    show (Io.perform c out _ ((io.turn c).recorded c out n)).chip.places = _
    rw [perform_places, recorded_chip]
    rfl
  rw [e]
  rcases turn_cases c io with ⟨h, -⟩ | ⟨-, -, b, env, p, hb, hp, -, h⟩ | ⟨-, hf, -⟩
  · exact .inl (afterFrame_places h.places c out _)
  · refine .inr ⟨p, hp.1, hp.2, afterFrame_places ?_ c out _⟩
    rw [h, places_ext]
    have hk := hb.io
    exact ⟨by rw [hk]; rfl, by rw [hk]; rfl, by rw [hk]; rfl, by rw [hk]; rfl, by rw [hk]; rfl, by rw [hk]; rfl,
      by rw [hk]; simp [Chip.listening, Chip.receive]⟩
  · rw [hg] at hf; cases hf

/-- Without CP5 a frame sent to a chip that listens leaves what it leaves of the chip with its FIFO forgotten (U11). -/
theorem frame_forgets (c : Config) (out : List Byte) (n : Nat) {io : Io} (hl : io.chip.listening = true) (hg : io.governed = false) :
    (io.frame c out n).2.chip = ({ io.chip with fifo := [] } : Chip).afterFrame c out (io.frame c out n).1 := by
  have ht := turn_forgets c hl hg
  have hs : (io.turn c).governed = false := by rw [ht]; exact hg
  show (Io.perform c out _ ((io.turn c).recorded c out n)).chip = _
  rw [perform_still c out _ (by rw [recorded_sendingNow]; simp [Io.sendingNow, hs])]
  show (Io.recorded c out n (io.turn c)).chip.afterFrame c out (io.frame c out n).1 = _
  rw [recorded_chip, ht]

/-- A frame sent to a chip that neither listens nor sends: the chip is exactly what the frame leaves, and of the environment only bits are used
up. -/
theorem frame_quiet (c : Config) (out : List Byte) (n : Nat) {io : Io} (hl : io.chip.listening = false) (hs : io.sendingNow = false) :
    (io.frame c out n).2.chip = io.chip.afterFrame c out (io.frame c out n).1 ∧ io.env.SdiOnly (io.frame c out n).2.env := by
  have ht : io.frame c out n = io.exchange c out n := by unfold Io.frame; rw [turn_quiet c hl hs]
  rw [ht, exchange_perform, perform_still c out _ (by rw [recorded_sendingNow]; exact hs)]
  exact ⟨by rw [recorded_chip], recorded_env c out n io⟩

/-- Between frames CSN is high (R21). -/
@[simp] theorem frame_csn (c : Config) (out : List Byte) (n : Nat) (io : Io) : (io.frame c out n).2.csn = true := by rw [frame_after_record]; rfl

/-- The last level of BUSY sampled is untouched. -/
@[simp] theorem frame_busy (c : Config) (out : List Byte) (n : Nat) (io : Io) : (io.frame c out n).2.busy = io.busy := by
  rw [frame_after_record, show io.busy = (io.turn c).busy by rw [(turn_only c io).1]]
  exact (exchange_bitOnly c out n (io.turn c)).busy

/-- Between frames SCK is low (R22). -/
theorem frame_sck (c : Config) (out : List Byte) (n : Nat) (io : Io) (h : io.sck = false) : (io.frame c out n).2.sck = false := by
  rw [frame_after_record]
  rw [show io.sck = (io.turn c).sck by rw [(turn_only c io).1]] at h
  exact bytesIn_sck _ _ ((answer_only c out n _).sck.trans (bytesOut_sck out ((io.turn c).setCsn false) h))

/-- Of the environment only what `Env.FrameOnly` names moves. -/
theorem frame_env (c : Config) (out : List Byte) (n : Nat) (io : Io) : io.env.FrameOnly (io.frame c out n).2.env :=
  (turn_only c io).2.trans ((recorded_env c out n (io.turn c)).turnOnly.trans (perform_only c out _ _).2).frameOnly

@[simp] theorem frame_premises (c : Config) (out : List Byte) (n : Nat) (io : Io) :
    (io.frame c out n).2.env.premises = io.env.premises := (frame_env c out n io).premises
@[simp] theorem frame_busyIn (c : Config) (out : List Byte) (n : Nat) (io : Io) : (io.frame c out n).2.env.busyIn = io.env.busyIn :=
  (frame_env c out n io).busyIn
@[simp] theorem frame_settleIn (c : Config) (out : List Byte) (n : Nat) (io : Io) :
    (io.frame c out n).2.env.settleIn = io.env.settleIn := (frame_env c out n io).settleIn
@[simp] theorem frame_nowIn (c : Config) (out : List Byte) (n : Nat) (io : Io) : (io.frame c out n).2.env.nowIn = io.env.nowIn :=
  (frame_env c out n io).nowIn
@[simp] theorem frame_rndIn (c : Config) (out : List Byte) (n : Nat) (io : Io) : (io.frame c out n).2.env.rndIn = io.env.rndIn :=
  (frame_env c out n io).rndIn

/-- No packet arrives at a chip that does not listen. -/
theorem frame_airIn (c : Config) (out : List Byte) (n : Nat) {io : Io} (h : io.chip.listening = false) :
    (io.frame c out n).2.env.airIn = io.env.airIn :=
  ((turn_deaf c h).env.trans ((recorded_env c out n (io.turn c)).turnOnly.trans (perform_only c out _ _).2)).airIn

/-- A frame that receives nothing returns nothing. -/
@[simp] theorem frame_bytes_zero (c : Config) (out : List Byte) (io : Io) : (io.frame c out 0).1 = [] :=
  List.length_eq_zero_iff.1 (frame_length c out 0 io)

/-! ### Pin traces (R142 to R144, R295, R70). -/

/-- Sending keeps the trace well timed and the levels those of the trace. -/
structure Timed (io : Io) : Prop where
  timed : wellTimed io.pinTrace = true
  csn : csnAfter io.pinTrace = io.csn
  sck : sckAfter io.pinTrace = io.sck

theorem setSdo_timed {io : Io} (h : Timed io) (hc : io.csn = false) (hs : io.sck = false) (b : Bool) : Timed (io.setSdo b) :=
  ⟨by simp [Io.setSdo, wellTimed, eventAllowed, h.timed, h.csn, h.sck, hc, hs], h.csn, h.sck⟩

theorem setSck_timed {io : Io} (h : Timed io) (hc : io.csn = false) {b : Bool} (hs : io.sck ≠ b) : Timed (io.setSck b) :=
  ⟨by simp [Io.setSck, wellTimed, eventAllowed, h.timed, h.csn, h.sck, hc, hs], h.csn, rfl⟩

theorem setCsn_timed {io : Io} (h : Timed io) (hs : io.sck = false) (b : Bool) : Timed (io.setCsn b) :=
  ⟨by simp [Io.setCsn, wellTimed, eventAllowed, h.timed, h.sck, hs], rfl, h.sck⟩

theorem floatSdo_timed {io : Io} (h : Timed io) : Timed io.floatSdo := ⟨h.timed, h.csn, h.sck⟩

theorem sampleSdi_timed {io : Io} (h : Timed io) (hc : io.csn = false) (hs : io.sck = true) (d : Option Bool) :
    Timed (io.sampleSdi d).2 := by
  cases d <;>
  exact ⟨by simp [Io.sampleSdi, wellTimed, eventAllowed, h.timed, h.csn, h.sck, hc, hs], h.csn, h.sck⟩

theorem bitOut_timed {io : Io} (h : Timed io) (hc : io.csn = false) (hs : io.sck = false) (b : Bool) : Timed (io.bitOut b) :=
  setSck_timed (setSck_timed (setSdo_timed h hc hs b) hc (by simp [Io.setSdo, hs])) hc (by simp [Io.setSck])

theorem bitIn_timed {io : Io} (h : Timed io) (hc : io.csn = false) (hs : io.sck = false) (d : Option Bool) : Timed (io.bitIn d).2 := by
  have h1 : Timed (io.floatSdo.setSck true) := setSck_timed (floatSdo_timed h) hc (by simp [Io.floatSdo, hs])
  have h2 := sampleSdi_timed h1 hc rfl d
  refine setSck_timed h2 ?_ ?_
  · rw [(sampleSdi_only d _).csn]; exact hc
  · cases d <;> simp [Io.sampleSdi, Io.setSck]

theorem bitsOut_timed (l : List Bool) : ∀ {io : Io}, Timed io → io.csn = false → io.sck = false → Timed (io.bitsOut l) := by
  induction l with
  | nil => intro io h _ _; exact h
  | cons b r ih => intro io h hc hs; exact ih (bitOut_timed h hc hs b) hc rfl

theorem bytesOut_timed (l : List Byte) : ∀ {io : Io}, Timed io → io.csn = false → io.sck = false → Timed (io.bytesOut l) := by
  induction l with
  | nil => intro io h _ _; exact h
  | cons v r ih => intro io h hc hs; rw [bytesOut_cons]; exact ih (bitsOut_timed _ h hc hs) ((bitsOut_only _ io).csn.trans hc) (bitsOut_sck _ io hs)

theorem bitsIn_timed (l : List (Option Bool)) :
    ∀ {io : Io}, Timed io → io.csn = false → io.sck = false → Timed (Io.bitsIn l io).2 := by
  induction l with
  | nil => intro io h _ _; exact h
  | cons d r ih =>
    intro io h hc hs
    exact ih (bitIn_timed h hc hs d) ((bitIn_only d io).csn.trans hc) rfl

theorem bytesIn_timed (l : List (Option Byte)) :
    ∀ {io : Io}, Timed io → io.csn = false → io.sck = false → Timed (Io.bytesIn l io).2 := by
  induction l with
  | nil => intro io h _ _; exact h
  | cons d r ih =>
    intro io h hc hs
    exact ih (bitsIn_timed _ h hc hs) ((bitsIn_only _ io).csn.trans hc) (bitsIn_sck _ io hs)

/-- A turn of the chip touches no pin. -/
theorem turn_timed (c : Config) {io : Io} (h : Timed io) : Timed (io.turn c) := by
  rw [(turn_only c io).1]; exact ⟨h.timed, h.csn, h.sck⟩

/-- A frame keeps the trace well timed (R295). -/
theorem frame_timed (c : Config) (out : List Byte) (n : Nat) {io : Io} (ht : Timed io) (hk : io.sck = false) :
    Timed (io.frame c out n).2 := by
  have h := turn_timed c ht
  have hs : (io.turn c).sck = false := by rw [(turn_only c io).1]; exact hk
  have h1 : Timed (((io.turn c).setCsn false).bytesOut out) := bytesOut_timed out (setCsn_timed h hs false) rfl hs
  have hc1 : (((io.turn c).setCsn false).bytesOut out).csn = false := (bytesOut_only out _).csn
  have hs1 := bytesOut_sck out ((io.turn c).setCsn false) hs
  have h2 := answer_only c out n (((io.turn c).setCsn false).bytesOut out)
  have h3 : Timed ((((io.turn c).setCsn false).bytesOut out).answer c out n).2 :=
    ⟨by rw [h2.pinTrace]; exact h1.timed, by rw [h2.pinTrace, h2.csn]; exact h1.csn, by rw [h2.pinTrace, h2.sck]; exact h1.sck⟩
  have hc3 := h2.csn.trans hc1
  have hs3 := h2.sck.trans hs1
  have h4 := bytesIn_timed ((((io.turn c).setCsn false).bytesOut out).answer c out n).1 h3 hc3 hs3
  have hs4 := bytesIn_sck ((((io.turn c).setCsn false).bytesOut out).answer c out n).1 _ hs3
  have h5 := floatSdo_timed (setCsn_timed h4 hs4 true)
  rw [frame_after_record]
  exact ⟨h5.timed, h5.csn, h5.sck⟩

/-- The bits sent appear at the rising edges, in order (R70, R142). -/
theorem sampledSdo_bitsOut (l : List Bool) : ∀ io : Io, sampledSdo (io.bitsOut l).pinTrace = l.reverse ++ sampledSdo io.pinTrace := by
  induction l with
  | nil => intro io; rfl
  | cons b r ih =>
    intro io
    rw [bitsOut_cons, ih]
    simp [Io.bitOut, Io.setSck, Io.setSdo, sampledSdo]

/-- One clock pulse for each bit sent (R68, R142). -/
theorem pulses_bitsOut (l : List Bool) : ∀ io : Io, pulses (io.bitsOut l).pinTrace = pulses io.pinTrace + l.length := by
  induction l with
  | nil => intro io; rfl
  | cons b r ih =>
    intro io
    rw [bitsOut_cons, ih]
    simp [Io.bitOut, Io.setSck, Io.setSdo, pulses]; omega

theorem bitIn_trace (d : Option Bool) (io : Io) :
    (io.bitIn d).2.pinTrace = .sck false :: .sdi (io.bitIn d).1 :: .sck true :: io.pinTrace := by
  cases d <;> rfl

/-- One pulse and one sample for each bit received (R143). -/
theorem bitsIn_trace (l : List (Option Bool)) : ∀ io : Io,
    pulses (Io.bitsIn l io).2.pinTrace = pulses io.pinTrace + l.length ∧
    sampledSdi (Io.bitsIn l io).2.pinTrace = (Io.bitsIn l io).1.reverse ++ sampledSdi io.pinTrace ∧
    (Io.bitsIn l io).1.length = l.length := by
  induction l with
  | nil => intro io; exact ⟨rfl, rfl, rfl⟩
  | cons d r ih =>
    intro io
    obtain ⟨h1, h2, h3⟩ := ih (io.bitIn d).2
    simp only [Io.bitsIn]
    rw [h1, h2, bitIn_trace]
    refine ⟨by simp [pulses]; omega, by simp [sampledSdi], by simp [h3]⟩

theorem driveBits_length (d : Option Byte) : (driveBits d).length = 8 := by cases d <;> rfl

theorem byteBits_of_length {l : List Bool} (h : l.length = 8) : byteBits (bitsByte l) = l := by
  match l, h with
  | [a, b, c, d, e, f, g, i], _ => exact byteBits_bitsByte a b c d e f g i

theorem bits_index (v : Byte) : (byteBits v).length = 8 ∧ ∀ k < 8, (byteBits v)[k]? = some (v.getLsbD (7 - k)) := by
  refine ⟨rfl, fun k hk => ?_⟩
  interval_cases k <;> rfl

theorem frame_trace (c : Config) (out : List Byte) (n : Nat) (io : Io) :
    (io.frame c out n).2.pinTrace = .csn true ::
      (Io.bytesIn ((((io.turn c).setCsn false).bytesOut out).answer c out n).1
        (((((io.turn c).setCsn false).bytesOut out).answer c out n).2)).2.pinTrace := by
  rw [frame_after_record]; rfl

/-! ### The events of a frame, in order (R141, R142, R143) -/

theorem bitsOut_events (l : List Bool) : ∀ io : Io,
    (io.bitsOut l).pinTrace.reverse = io.pinTrace.reverse ++ l.flatMap (fun b => [.sdo b, .sck true, .sck false]) := by
  induction l with
  | nil => intro io; simp [Io.bitsOut]
  | cons b r ih =>
    intro io
    rw [bitsOut_cons, ih]
    simp [Io.bitOut, Io.setSck, Io.setSdo]

theorem bytesOut_events (l : List Byte) : ∀ io : Io, (io.bytesOut l).pinTrace.reverse = io.pinTrace.reverse ++ sendEvents l := by
  induction l with
  | nil => intro io; simp [Io.bytesOut, sendEvents]
  | cons v r ih =>
    intro io
    rw [bytesOut_cons, ih, Io.byteOut, bitsOut_events]
    simp [sendEvents]

theorem bitsIn_events (l : List (Option Bool)) : ∀ io : Io,
    (Io.bitsIn l io).2.pinTrace.reverse =
      io.pinTrace.reverse ++ (Io.bitsIn l io).1.flatMap (fun b => [.sck true, .sdi b, .sck false]) := by
  induction l with
  | nil => intro io; simp [Io.bitsIn]
  | cons d r ih =>
    intro io
    simp only [Io.bitsIn]
    rw [ih, bitIn_trace]
    simp

theorem bytesIn_events (l : List (Option Byte)) : ∀ io : Io,
    (Io.bytesIn l io).2.pinTrace.reverse = io.pinTrace.reverse ++ receiveEvents (Io.bytesIn l io).1 := by
  induction l with
  | nil => intro io; simp [Io.bytesIn, receiveEvents]
  | cons d r ih =>
    intro io
    simp only [Io.bytesIn]
    rw [ih, Io.byteIn, bitsIn_events]
    have h : byteBits (bitsByte (Io.bitsIn (driveBits d) io).1) = (Io.bitsIn (driveBits d) io).1 :=
      byteBits_of_length (by rw [(bitsIn_trace _ io).2.2, driveBits_length])
    simp [receiveEvents, h]

/-! ### Bytes a premise fixes, and levels the environment supplies -/

theorem bitsIn_driven (l : List Bool) : ∀ io : Io, (Io.bitsIn (l.map some) io).1 = l := by
  induction l with
  | nil => intro io; rfl
  | cons b r ih => intro io; simp only [List.map_cons, Io.bitsIn, ih]; rfl

/-- Bytes the chip drives are the bytes received (R143, R144). -/
theorem bytesIn_driven (l : List Byte) : ∀ io : Io, (Io.bytesIn (l.map some) io).1 = l := by
  induction l with
  | nil => intro io; rfl
  | cons v r ih =>
    intro io
    simp only [List.map_cons, Io.bytesIn, ih, Io.byteIn, driveBits, bitsIn_driven, bitsByte_byteBits]

theorem bitIn_supplied {b : Bool} {r : List Bool} {io : Io} (h : io.env.sdiIn = b :: r) :
    (io.bitIn none).1 = b ∧ (io.bitIn none).2.env.sdiIn = r := by
  have hd : (io.floatSdo.setSck true).env.drawSdi = (b, { io.floatSdo.env with sdiIn := r }) := by
    unfold Env.drawSdi
    rw [show (io.floatSdo.setSck true).env.sdiIn = b :: r from h]
    rfl
  show (io.floatSdo.setSck true).env.drawSdi.1 = b ∧ (io.floatSdo.setSck true).env.drawSdi.2.sdiIn = r
  rw [hd]
  exact ⟨rfl, rfl⟩

theorem bitsIn_supplied (l : List Bool) : ∀ (io : Io) (rest : List Bool), io.env.sdiIn = l ++ rest →
    (Io.bitsIn (List.replicate l.length none) io).1 = l ∧ (Io.bitsIn (List.replicate l.length none) io).2.env.sdiIn = rest := by
  induction l with
  | nil => intro io rest h; exact ⟨rfl, h⟩
  | cons b r ih =>
    intro io rest h
    obtain ⟨h1, h2⟩ := bitIn_supplied h
    obtain ⟨h3, h4⟩ := ih (io.bitIn none).2 rest h2
    simp only [List.length_cons, List.replicate_succ, Io.bitsIn, h1, h3, h4, and_self]

/-- Bytes nothing fixes are the levels the environment supplies, eight to a byte, first level bit 7 (R71, R144). -/
theorem bytesIn_supplied (l : List Byte) : ∀ (io : Io) (rest : List Bool), io.env.sdiIn = l.flatMap byteBits ++ rest →
    (Io.bytesIn (List.replicate l.length none) io).1 = l ∧ (Io.bytesIn (List.replicate l.length none) io).2.env.sdiIn = rest := by
  induction l with
  | nil => intro io rest h; exact ⟨rfl, h⟩
  | cons v r ih =>
    intro io rest h
    obtain ⟨h1, h2⟩ := bitsIn_supplied (byteBits v) io (r.flatMap byteBits ++ rest) (by simpa using h)
    rw [byteBits_length] at h1 h2
    obtain ⟨h3, h4⟩ := ih _ rest h2
    refine ⟨?_, h4⟩
    show bitsByte (Io.bitsIn (List.replicate 8 none) io).1 :: _ = _
    rw [h1, bitsByte_byteBits]
    exact congrArg _ h3

/-- Sending moves nothing a read's answer depends on. -/
theorem sent_same (out : List Byte) (io : Io) :
    ((io.setCsn false).bytesOut out).chip = io.chip ∧ ((io.setCsn false).bytesOut out).env = io.env ∧
      ((io.setCsn false).bytesOut out).history = io.history :=
  ⟨(bytesOut_only out _).chip, bytesOut_env out _, (bytesOut_only out _).history⟩

/-- The chip's answer to a lone read byte is what the premises fix of the read, as the chip is after its turn. -/
theorem frame_read_turn (c : Config) (a : Addr) (n : Nat) (io : Io) :
    ∃ x : Io, x.chip = (io.turn c).chip ∧ x.env = (io.turn c).env ∧ x.history = io.history ∧
      (io.frame c [readByte a] n).1 = (Io.bytesIn (x.readDrive c a n).1 (x.readDrive c a n).2).1 := by
  obtain ⟨h1, h2, h3⟩ := sent_same [readByte a] (io.turn c)
  exact ⟨((io.turn c).setCsn false).bytesOut [readByte a], h1, h2, by rw [h3, (turn_only c io).1],
    by simp [Io.frame, Io.exchange, Io.answer]⟩

/-- The same, by what a turn can leave of the chip. -/
theorem frame_read_bytes (c : Config) (a : Addr) (n : Nat) (io : Io) :
    ∃ x : Io, Turned c io.chip x.chip ∧ io.env.FrameOnly x.env ∧ x.history = io.history ∧
      (io.chip.listening = false → io.sendingNow = false → x.chip = io.chip ∧ x.env = io.env) ∧
      (io.frame c [readByte a] n).1 = (Io.bytesIn (x.readDrive c a n).1 (x.readDrive c a n).2).1 := by
  obtain ⟨x, h1, h2, h3, h4⟩ := frame_read_turn c a n io
  exact ⟨x, by rw [h1]; exact turn_turned c io, by rw [h2]; exact (turn_only c io).2, h3,
    fun hl hs => by rw [h1, h2, turn_quiet c hl hs]; exact ⟨rfl, rfl⟩, h4⟩

/-- The bytes of a read the premises fix, whatever the chip's turn was. -/
theorem frame_read_driven {c : Config} {a : Addr} {n : Nat} {q : List Byte} {io : Io}
    (h : ∀ x : Io, Turned c io.chip x.chip → x.env.premises = io.env.premises → x.history = io.history →
      (x.readDrive c a n).1 = q.map some) : (io.frame c [readByte a] n).1 = q := by
  obtain ⟨x, h1, h2, h3, -, h4⟩ := frame_read_bytes c a n io
  rw [h4, h x h1 h2.premises h3, bytesIn_driven]

/-- The bytes of a read from a chip that neither listens nor sends. -/
theorem frame_read_quiet {c : Config} {a : Addr} {n : Nat} {q : List Byte} {io : Io} (hl : io.chip.listening = false)
    (hs : io.sendingNow = false) (h : ∀ x : Io, x.chip = io.chip → x.env = io.env → (x.readDrive c a n).1 = q.map some) :
    (io.frame c [readByte a] n).1 = q := by
  obtain ⟨x, -, -, -, h3, h4⟩ := frame_read_bytes c a n io
  rw [h4, h x (h3 hl hs).1 (h3 hl hs).2, bytesIn_driven]

end Sys2Proof.Machine
end

