-- ==== Sys2Proof/Laws/Chip.lean ====
section
/-! SUPPORT. The chip's bookkeeping: what a frame, the end of a wait and the settle time leave in it, and what a sample of BUSY can do. -/

namespace Sys2Proof.Machine

/-! ### The chip's memories stay canonical and in their space -/

/-- The chip's memories are canonical, its registers are at addresses 0x00 to 0x3F (R61), and what is known of its FIFO is within the capacity
the spec gives (R62). -/
structure ChipOk (k : Chip) : Prop where
  regs : k.regs.wf
  space : ∀ x ∈ k.regs, x.1 < 64
  fifo : k.fifo.wf
  fifoSpace : ∀ x ∈ k.fifo, x.1 < fifoSize

/-- Only the two memories matter. -/
theorem ChipOk.same {k k' : Chip} (h : ChipOk k) (hr : k'.regs = k.regs) (hf : k'.fifo = k.fifo) : ChipOk k' :=
  ⟨hr ▸ h.regs, hr ▸ h.space, hf ▸ h.fifo, hf ▸ h.fifoSpace⟩

/-- A FIFO of which nothing is known is canonical. -/
theorem ChipOk.noFifo {k k' : Chip} (h : ChipOk k) (hr : k'.regs = k.regs) (hf : k'.fifo = []) : ChipOk k' :=
  ⟨hr ▸ h.regs, hr ▸ h.space, by rw [hf]; exact List.Pairwise.nil, by rw [hf]; simp⟩

theorem writeReg_ok {k : Chip} (h : ChipOk k) (a : Addr) (data : List Byte) : ChipOk (k.writeReg a data) := by
  unfold Chip.writeReg
  split
  · refine ⟨Memory.wf_write h.regs _ _, fun x hx => ?_, h.fifo, h.fifoSpace⟩
    rcases Memory.mem_write hx with rfl | hx
    · exact a.isLt
    · exact h.space x hx
  · exact ⟨Memory.wf_erase h.regs _, fun x hx => h.space x (List.mem_of_mem_filter hx), h.fifo, h.fifoSpace⟩

theorem fill_ok {k : Chip} (h : ChipOk k) (data : List Byte) : ChipOk (k.fill data) := by
  unfold Chip.fill
  split
  · refine ⟨h.regs, h.space, ?_, ?_⟩ <;> dsimp only <;> split_ifs with hc
    · exact Memory.wf_writeList _ h.fifo _
    · exact List.Pairwise.nil
    · exact Memory.space_writeList _ h.fifoSpace _ hc
    · simp
  · exact h.noFifo rfl rfl

theorem chipWrite_ok {k : Chip} (h : ChipOk k) (c : Config) (a : Addr) (data : List Byte) : ChipOk (k.write c a data) := by
  unfold Chip.write
  split_ifs
  · exact fill_ok h data
  · exact h.same rfl rfl
  · exact ⟨List.Pairwise.nil, by simp [Chip.forget], List.Pairwise.nil, by simp [Chip.forget]⟩
  · exact h.same rfl rfl
  · exact (writeReg_ok h a data).same rfl rfl
  · exact writeReg_ok h a data

theorem chipStrobe_ok {k : Chip} (h : ChipOk k) (c : Config) (b : Byte) : ChipOk (k.strobe c b) := by
  unfold Chip.strobe
  split_ifs
  all_goals exact h.same rfl rfl

theorem chipRead_ok {k : Chip} (h : ChipOk k) (c : Config) (a : Addr) (q : List Byte) : ChipOk (k.read c a q) := by
  unfold Chip.read
  repeat' split
  all_goals exact h.same rfl rfl

/-- A frame keeps the chip's memories canonical. -/
theorem afterFrame_ok {k : Chip} (h : ChipOk k) (c : Config) (out q : List Byte) : ChipOk (k.afterFrame c out q) := by
  unfold Chip.afterFrame
  split
  · exact h
  · split_ifs
    · exact chipStrobe_ok h c _
    · exact h.same rfl rfl
    · exact chipRead_ok h c _ _
    · exact chipWrite_ok h c _ _

/-- A turn of the chip keeps them canonical. -/
theorem ChipTurn.ok {a b : Io} (h : ChipTurn a b) (ha : ChipOk a.chip) : ChipOk b.chip :=
  ha.same (by rw [h.io]) (by rw [h.io])

/-- A packet that arrives keeps them canonical. -/
theorem receive_ok {k : Chip} (h : ChipOk k) (c : Config) (p : AirPacket) : ChipOk (k.receive c p) := by
  refine ⟨h.regs, h.space, ?_, ?_⟩ <;> unfold Chip.receive <;> dsimp only <;> split_ifs with hc
  · exact Memory.wf_writeList _ h.fifo _
  · exact List.Pairwise.nil
  · exact Memory.space_writeList _ h.fifoSpace _ (by simpa using hc.2.2)
  · simp

/-- So do its turns, a packet received or a FIFO forgotten among them. -/
theorem Turned.ok {c : Config} {a k : Chip} (h : Turned c a k) (ha : ChipOk a) : ChipOk k := by
  have hr : k.regs = a.regs := h.regs
  rcases h.fifo with hf | ⟨p, hf⟩ | hf
  · exact ha.same hr hf
  · have hp := receive_ok ha c p
    exact ⟨hr ▸ ha.regs, hr ▸ ha.space, hf ▸ hp.fifo, hf ▸ hp.fifoSpace⟩
  · exact ha.noFifo hr hf

/-! ### What the chip makes of each format (R70) -/

theorem afterFrame_write (c : Config) (a : Addr) {l : List Byte} (hl : l ≠ []) (q : List Byte) (k : Chip) :
    k.afterFrame c (writeByte a :: l) q = k.write c a l := by
  simp only [Chip.afterFrame, writeByte_bit7, writeByte_bit6, addrOf_writeByte, hl, false_and, if_false, Bool.false_eq_true]

theorem afterFrame_read (c : Config) (a : Addr) {q : List Byte} (hq : q ≠ []) (k : Chip) :
    k.afterFrame c [readByte a] q = k.read c a q := by
  simp only [Chip.afterFrame, readByte_bit7, readByte_bit6, addrOf_readByte, hq, and_false, if_false, if_true, Bool.false_eq_true]

/-- What the chip makes of a strobe frame with bit 3 of its code set (R70). -/
theorem afterFrame_strobe (c : Config) {n : Nibble} (hn : n.getLsbD 3 = true) (q : List Byte) (k : Chip) :
    k.afterFrame c [strobeByte n] q = k.strobe c (strobeByte n) := by
  simp [Chip.afterFrame, strobeByte_bit7, hn]

@[simp] theorem chipStrobe_regs (c : Config) (b : Byte) (k : Chip) : (k.strobe c b).regs = k.regs := by
  unfold Chip.strobe; split_ifs <;> rfl
@[simp] theorem chipStrobe_ident (c : Config) (b : Byte) (k : Chip) : (k.strobe c b).ident = k.ident := by
  unfold Chip.strobe; split_ifs <;> rfl

@[simp] theorem chipStrobe_fifo (c : Config) (b : Byte) (k : Chip) : (k.strobe c b).fifo = k.fifo := by
  unfold Chip.strobe; split_ifs <;> rfl

@[simp] theorem chipRead_ident (c : Config) (a : Addr) (q : List Byte) (k : Chip) : (k.read c a q).ident = k.ident := by
  unfold Chip.read; repeat' split
  all_goals rfl
@[simp] theorem chipRead_regs (c : Config) (a : Addr) (q : List Byte) (k : Chip) : (k.read c a q).regs = k.regs := by
  unfold Chip.read; repeat' split
  all_goals rfl
@[simp] theorem chipRead_fifo (c : Config) (a : Addr) (q : List Byte) (k : Chip) : (k.read c a q).fifo = k.fifo := by
  unfold Chip.read; repeat' split
  all_goals rfl
@[simp] theorem chipRead_mode (c : Config) (a : Addr) (q : List Byte) (k : Chip) : (k.read c a q).mode = k.mode := by
  unfold Chip.read; repeat' split
  all_goals rfl
@[simp] theorem chipRead_op (c : Config) (a : Addr) (q : List Byte) (k : Chip) : (k.read c a q).op = k.op := by
  unfold Chip.read; repeat' split
  all_goals rfl
@[simp] theorem chipRead_unknown (c : Config) (a : Addr) (q : List Byte) (k : Chip) : (k.read c a q).unknown = k.unknown := by
  unfold Chip.read; repeat' split
  all_goals rfl

/-- Void premises stay void (U3). -/
theorem afterFrame_void {k : Chip} (h : k.unknown = true) (c : Config) (out q : List Byte) : (k.afterFrame c out q).unknown = true := by
  have hs : ∀ b, (k.strobe c b).unknown = true := fun b => by unfold Chip.strobe; split_ifs <;> first | exact h | rfl
  have hw : ∀ a l, (k.write c a l).unknown = true := fun a l => by
    unfold Chip.write Chip.writeReg Chip.fill Chip.forget
    split_ifs <;> first | exact h | (split <;> exact h)
  unfold Chip.afterFrame
  split
  · exact h
  · split_ifs
    · exact hs _
    · rfl
    · rw [chipRead_unknown]; exact h
    · exact hw _ _

/-- A strobe with a code outside P14 makes every premise void (U3). -/
theorem afterFrame_strobe_void {c : Config} {n : Nibble} (h : n ∉ c.codes) (k : Chip) :
    (k.afterFrame c [strobeByte n] []).unknown = true := by
  simp only [Config.codes, List.mem_cons, List.not_mem_nil, or_false, not_or] at h
  obtain ⟨h1, h2, h3, h4, h5⟩ := h
  simp only [Chip.afterFrame, and_self, if_true]
  split_ifs
  · unfold Chip.strobe
    simp only [codeOf_strobeByte, h1, h2, h3, h4, h5, if_false]
    split_ifs <;> rfl
  · rfl

/-- A strobe with a code of a legal P14 leaves the premises as they were. -/
theorem afterFrame_strobe_valid {c : Config} {n : Nibble} (h : n ∈ c.codes) (hc : c.codesLegal = true) (k : Chip) :
    (k.afterFrame c [strobeByte n] []).unknown = k.unknown := by
  have hb : n.getLsbD 3 = true := by
    simp only [Config.codesLegal, Bool.and_eq_true, List.all_eq_true] at hc
    exact hc.2 n h
  rw [afterFrame_strobe c hb]
  simp only [Config.codes, List.mem_cons, List.not_mem_nil, or_false] at h
  unfold Chip.strobe
  simp only [lowNibble_strobeByte, codeOf_strobeByte, ne_eq, not_true_eq_false, if_false]
  split_ifs <;> first | rfl | simp_all

/-- After some frames the places depend on what was in the places before them, and on nothing else of the chip. -/
theorem afterFrames_places (c : Config) (l : List FrameRecord) :
    ∀ {k k' : Chip}, k.places = k'.places → (afterFrames c l k).places = (afterFrames c l k').places := by
  induction l with
  | nil => intro k k' h; exact h
  | cons r t ih => intro k k' h; exact ih (afterFrame_places h c r.out r.q)

/-- The same of registers, identifier, pointers and mode. -/
theorem afterFrames_base (c : Config) (l : List FrameRecord) :
    ∀ {k k' : Chip}, k.base = k'.base → (afterFrames c l k).base = (afterFrames c l k').base := by
  induction l with
  | nil => intro k k' h; exact h
  | cons r t ih => intro k k' h; exact ih (afterFrame_base h c r.out r.q)

theorem afterFrames_append (c : Config) (l m : List FrameRecord) (k : Chip) :
    afterFrames c (l ++ m) k = afterFrames c m (afterFrames c l k) := by
  simp [afterFrames]

@[simp] theorem afterFrames_nil (c : Config) (k : Chip) : afterFrames c [] k = k := rfl

theorem Memory.within_refl (m : Memory) : m.within m := fun _ _ h => h
theorem Memory.nil_within (m : Memory) : Memory.within [] m := fun a v h => by simp [Memory.read, unlisted] at h
theorem Memory.within.trans {m n o : Memory} (h : m.within n) (h' : n.within o) : m.within o := fun a v hv => h' a v (h a v hv)

theorem Memory.writeList_within {m n : Memory} (h : m.within n) (a : Nat) (l : List Byte) : (m.writeList a l).within (n.writeList a l) := by
  intro x v hv
  by_cases hx : x < a ∨ a + l.length ≤ x
  · rw [Memory.read_writeList_other _ _ _ _ hx] at hv ⊢
    exact h x v hv
  · obtain ⟨j, rfl⟩ := Nat.exists_eq_add_of_le (show a ≤ x by omega)
    have hj : j < l.length := by omega
    rw [Memory.read_writeList_same _ _ _ _ hj] at hv ⊢
    exact hv

/-- Of a FIFO of which more is known before a frame no less is known after it. -/
theorem afterFrame_within {k k' : Chip} (hb : k.base = k'.base) (h : k.fifo.within k'.fifo) (c : Config) (out q : List Byte) :
    (k.afterFrame c out q).fifo.within (k'.afterFrame c out q).fifo := by
  obtain ⟨h1, h2, h3, h4, h5⟩ := base_ext.1 hb
  unfold Chip.afterFrame
  split
  · exact h
  · split_ifs
    · simpa using h
    · exact h
    · simpa using h
    · unfold Chip.write
      rw [h5]
      split_ifs
      · unfold Chip.fill
        rw [h3]
        split
        · dsimp only
          split_ifs
          · exact Memory.writeList_within h _ _
          · exact Memory.within_refl _
        · exact Memory.within_refl _
      · exact h
      · exact Memory.within_refl _
      · exact h
      all_goals unfold Chip.writeReg; split <;> exact h

theorem afterFrames_within (c : Config) (l : List FrameRecord) : ∀ {k k' : Chip}, k.base = k'.base → k.fifo.within k'.fifo →
    (afterFrames c l k).fifo.within (afterFrames c l k').fifo := by
  induction l with
  | nil => intro k k' _ h; exact h
  | cons r t ih => intro k k' hb h; exact ih (afterFrame_base hb c r.out r.q) (afterFrame_within hb h c r.out r.q)

/-- Without CP5 what is known of the FIFO after a frame is what the frame leaves in it. -/
theorem frame_within (c : Config) (out : List Byte) (n : Nat) {io : Io} (h5 : io.env.premises.cp5 = false) :
    (io.frame c out n).2.chip.fifo.within (io.chip.afterFrame c out (io.frame c out n).1).fifo := by
  cases hl : io.chip.listening with
  | false => rw [(places_ext.1 (frame_places c out n hl)).2.2.1]; exact Memory.within_refl _
  | true =>
    rw [frame_forgets c out n hl (by rw [governed_listening hl, h5]; simp)]
    exact afterFrame_within (k := { io.chip with fifo := [] }) (k' := io.chip) rfl (Memory.nil_within _) c out _

/-- Whether a frame is sent while the chip listens depends on the places alone. -/
theorem unheard_places (c : Config) (l : List FrameRecord) :
    ∀ {k k' : Chip}, k.places = k'.places → (unheard c l k ↔ unheard c l k') := by
  induction l with
  | nil => intro k k' h; exact Iff.rfl
  | cons r t ih =>
    intro k k' h
    have h1 := ih (afterFrame_places h c r.out r.q)
    have h2 : k.listening = k'.listening := (places_ext.1 h).2.2.2.2.2.2
    simp only [unheard, h1, h2]

theorem unheard_append (c : Config) (l m : List FrameRecord) :
    ∀ k : Chip, unheard c (l ++ m) k ↔ unheard c l k ∧ unheard c m (afterFrames c l k) := by
  induction l with
  | nil => intro k; simp [unheard]
  | cons r t ih =>
    intro k
    simp only [List.cons_append, unheard, ih, and_assoc]
    rfl

/-- Where the chip does not listen and no transmission can be under way, the chip after a frame is exactly what the frame leaves. -/
theorem frame_chip_exact (c : Config) (out : List Byte) (n : Nat) {io : Io} (h4 : io.chip.mode ≠ .tx ∨ io.env.premises.cp4 = false)
    (h5 : io.chip.listening = false) :
    (io.frame c out n).2.chip = io.chip.afterFrame c out (io.frame c out n).1 := by
  have hs : io.sendingNow = false := by
    unfold Io.sendingNow Io.governed
    rcases h4 with h | h <;> cases hm : io.chip.mode <;> simp_all
  exact (frame_quiet c out n h5 hs).1

/-! ### Samples of BUSY -/

/-- A sample while the chip listens uses up draws, or a packet arrives, and then it reads deasserted. -/
theorem listen_cases (c : Config) (io : Io) :
    ∃ env k, (io.listen c).2 = { io with env := env, chip := k } ∧ env.premises = io.env.premises ∧
      ((k = io.chip) ∨ (io.listen c).1 = false ∧ ∃ p, k = io.chip.receive c p) := by
  have hp : (io.freeLevel c).2.env.premises = io.env.premises := drawBusy_premises io.env
  unfold Io.listen
  dsimp only
  split_ifs
  · exact ⟨_, _, rfl, hp, .inl rfl⟩
  · rcases arrive_cases c (io.freeLevel c).2 with ⟨env, h, he⟩ | ⟨env, p, h, he, -, -⟩ <;> rw [h]
    · exact ⟨_, _, rfl, he.premises.trans hp, .inl rfl⟩
    · exact ⟨_, _, rfl, he.premises.trans hp, .inr ⟨rfl, p, rfl⟩⟩

/-- The level after the chip's turn: nothing but draws, or a packet that arrives, and then the level is deasserted. -/
theorem busyLevel_cases (c : Config) (io : Io) :
    ∃ env k, (io.busyLevel c).2 = { io with env := env, chip := k } ∧ env.premises = io.env.premises ∧
      (k = io.chip ∨ (io.busyLevel c).1 = false ∧ (∃ p, k = io.chip.receive c p) ∧ io.chip.mode = .rx ∧ io.env.premises.cp5 = true) := by
  have hf : ∃ env k, (io.freeLevel c).2 = { io with env := env, chip := k } ∧ env.premises = io.env.premises ∧
      (k = io.chip ∨ (io.freeLevel c).1 = false ∧ (∃ p, k = io.chip.receive c p) ∧ io.chip.mode = .rx ∧ io.env.premises.cp5 = true) :=
    ⟨_, _, rfl, by simp, .inl rfl⟩
  unfold Io.busyLevel
  by_cases hg : io.governed = true
  · rw [if_pos hg]
    split
    · by_cases hm : io.chip.mode = .tx
      · rw [if_pos hm]; exact ⟨_, _, rfl, rfl, .inl rfl⟩
      · rw [if_neg hm]
        obtain ⟨env, k, h, he, hk⟩ := listen_cases c io
        refine ⟨env, k, h, he, hk.imp_right fun hk => ⟨hk.1, hk.2, ?_⟩⟩
        unfold Io.governed at hg
        simp [hm] at hg
        exact hg.2
    · exact ⟨_, _, rfl, rfl, .inl rfl⟩
    all_goals exact hf
  · rw [if_neg hg]; exact hf

/-- What a sample of BUSY can do to the interface: record the pin's level, use up draws of the environment, give the chip a turn, and, under CP5,
let a packet arrive; then it reads deasserted. -/
theorem sampleBusy_cases (c : Config) (io : Io) :
    ∃ (b : Io) (env : Env) (k : Chip) (level : Bool), ChipTurn io b ∧
      (io.sampleBusy c).2 = { io with env := env, chip := k, busy := level, pinTrace := .busy level :: io.pinTrace } ∧
      level = (if (io.sampleBusy c).1 then c.busyLevel else !c.busyLevel) ∧ env.premises = io.env.premises ∧
      (k = b.chip ∨ (io.sampleBusy c).1 = false ∧ (∃ p, k = b.chip.receive c p) ∧ io.chip.mode = .rx ∧ io.env.premises.cp5 = true) := by
  have ht := advance_turn c io
  obtain ⟨env, k, h, he, hk⟩ := busyLevel_cases c (io.advance c)
  have hio := ht.io
  refine ⟨_, env, k, _, ht, ?_, rfl, he.trans ht.premises, ?_⟩
  · unfold Io.sampleBusy Io.readBusy
    dsimp only
    rw [h, hio]
  · rw [ht.mode, ht.premises] at hk; exact hk

/-- A sample of BUSY leaves registers, identifier, pointers and mode alone. -/
@[simp] theorem sampleBusy_base (c : Config) (io : Io) : (io.sampleBusy c).2.chip.base = io.chip.base := by
  obtain ⟨b, env, k, level, hb, h, -, -, hk⟩ := sampleBusy_cases c io
  rw [h]
  have e : b.chip.base = io.chip.base := (hb.turned c).base
  rcases hk with rfl | ⟨-, ⟨p, rfl⟩, -⟩ <;> exact e

/-- A sample of BUSY that finds no packet arriving leaves the places of the chip alone. -/
theorem sampleBusy_places (c : Config) (io : Io)
    (hm : io.chip.mode ≠ .rx ∨ io.env.premises.cp5 = false ∨ (io.sampleBusy c).1 = true) :
    (io.sampleBusy c).2.chip.places = io.chip.places := by
  obtain ⟨b, env, k, level, hb, h, -, -, hk⟩ := sampleBusy_cases c io
  rw [h]
  rcases hk with rfl | ⟨h1, -, h2, h3⟩
  · exact hb.places
  · rcases hm with hm | hm | hm
    · exact absurd h2 hm
    · rw [hm] at h3; cases h3
    · rw [hm] at h1; cases h1

/-- Where no premise speaks, a sample of BUSY is the level supplied. -/
theorem sampleBusy_free (c : Config) {io : Io} {b : Bool} {r : List Bool} (hg : io.governed = false) (h : io.env.busyIn = b :: r) :
    (io.sampleBusy c).1 = decide (b = c.busyLevel) := by
  simp [Io.sampleBusy, Io.readBusy, Io.advance, Io.busyLevel, hg, Io.freeLevel, drawBusy_cons h]

/-- No premise speaks of the operation of a chip with a void premise, nor of sending without CP4, nor of listening without CP5. -/
theorem not_governed {io : Io}
    (h : io.chip.unknown = true ∨ (io.chip.mode ≠ .tx ∨ io.env.premises.cp4 = false) ∧ (io.chip.mode ≠ .rx ∨ io.env.premises.cp5 = false)) :
    io.governed = false := by
  unfold Io.governed
  rcases h with h | ⟨h1, h2⟩
  · simp [h]
  · cases hm : io.chip.mode <;> simp_all

/-- No premise speaks of an operation where neither CP4 nor CP5 is assumed. -/
theorem governed_none {io : Io} (h4 : io.env.premises.cp4 = false) (h5 : io.env.premises.cp5 = false) : io.governed = false :=
  not_governed (.inr ⟨.inr h4, .inr h5⟩)

/-- A level of BUSY that no premise fixes is the level supplied. -/
theorem freeLevel_cons (c : Config) {io : Io} {b : Bool} {r : List Bool} (h : io.env.busyIn = b :: r) :
    io.freeLevel c = (decide (b = c.busyLevel), { io with env := { io.env with busyIn := r } }) := by
  simp [Io.freeLevel, drawBusy_cons h]

/-- A listening just strobed is found over only by a sample whose level supplied is deasserted. -/
theorem sampleBusy_listening (c : Config) {io : Io} {b : Bool} {r : List Bool}
    (hm : io.governed = false ∨ io.chip.mode = .rx ∧ io.chip.op = .strobed) (h : io.env.busyIn = b :: r) (hb : b = c.busyLevel) :
    (io.sampleBusy c).1 = true := by
  by_cases hg : io.governed = true
  · obtain ⟨hm, ho⟩ := hm.resolve_left (by rw [hg]; simp)
    have ht := advance_turn c io
    have hbi : (io.advance c).env.busyIn = b :: r := by rw [ht.env.busyIn]; exact h
    have hop : (∃ n, (io.advance c).chip.op = .pending n) ∨ (∃ n, (io.advance c).chip.op = .running n) := by
      unfold Io.advance
      rw [if_pos hg, ho]
      dsimp only
      split_ifs
      · exact .inr ⟨0, by unfold Io.begin; rw [if_neg (by rw [hm]; simp)]⟩
      · exact .inl ⟨_, rfl⟩
    show ((io.advance c).busyLevel c).1 = true
    unfold Io.busyLevel
    rw [if_pos (by rw [ht.governed]; exact hg)]
    rcases hop with ⟨n, hop⟩ | ⟨n, hop⟩ <;> rw [hop] <;> dsimp only
    · rw [freeLevel_cons c hbi]; simp [hb]
    · rw [if_neg (by rw [ht.mode, hm]; simp)]
      unfold Io.listen
      rw [freeLevel_cons c hbi]; simp [hb]
  · rw [sampleBusy_free c (by simpa using hg) h]; simp [hb]

/-- Under CP4 a premise speaks of a transmission. -/
theorem governed_tx {io : Io} (hu : io.chip.unknown = false) (h4 : io.env.premises.cp4 = true) (hm : io.chip.mode = .tx) :
    io.governed = true := by
  simp [Io.governed, hu, h4, hm]

/-- A transmission's turns, as a sample of BUSY sees them (R75). -/
theorem sampleBusy_running (c : Config) {io : Io} {n : Nat} (hg : io.governed = true) (hm : io.chip.mode = .tx) (ho : io.chip.op = .running n) :
    match n with
    | 0 => (io.sampleBusy c).1 = false ∧ (io.sampleBusy c).2.chip = io.chip.finishSend
    | m + 1 => (io.sampleBusy c).1 = true ∧ (io.sampleBusy c).2.chip = { io.chip with op := .running m } ∧
        (io.sampleBusy c).2.env = io.env := by
  cases n with
  | zero =>
    have ha : io.advance c = { io with chip := io.chip.finishSend } := by
      unfold Io.advance; rw [if_pos hg, ho]; dsimp only; rw [if_pos hm]
    have hb : Io.busyLevel c { io with chip := io.chip.finishSend } = (false, { io with chip := io.chip.finishSend }) := by
      unfold Io.busyLevel
      rw [if_pos (show Io.governed { io with chip := io.chip.finishSend } = true from hg)]
      rfl
    unfold Io.sampleBusy
    dsimp only
    rw [ha, hb]
    exact ⟨rfl, rfl⟩
  | succ m =>
    have ha : io.advance c = { io with chip := { io.chip with op := .running m } } := by
      unfold Io.advance; rw [if_pos hg, ho]
    have hb : Io.busyLevel c { io with chip := { io.chip with op := .running m } } = (true, { io with chip := { io.chip with op := .running m } }) := by
      unfold Io.busyLevel
      rw [if_pos (show Io.governed { io with chip := { io.chip with op := .running m } } = true from hg)]
      dsimp only
      rw [if_pos hm]
    unfold Io.sampleBusy
    dsimp only
    rw [ha, hb]
    exact ⟨rfl, rfl, rfl⟩

@[simp] theorem sampleBusy_history (c : Config) (io : Io) : (io.sampleBusy c).2.history = io.history := by
  obtain ⟨b, env, k, level, -, h, -⟩ := sampleBusy_cases c io; rw [h]
@[simp] theorem sampleBusy_csn (c : Config) (io : Io) : (io.sampleBusy c).2.csn = io.csn := by
  obtain ⟨b, env, k, level, -, h, -⟩ := sampleBusy_cases c io; rw [h]
@[simp] theorem sampleBusy_sck (c : Config) (io : Io) : (io.sampleBusy c).2.sck = io.sck := by
  obtain ⟨b, env, k, level, -, h, -⟩ := sampleBusy_cases c io; rw [h]
@[simp] theorem sampleBusy_premises (c : Config) (io : Io) : (io.sampleBusy c).2.env.premises = io.env.premises := by
  obtain ⟨b, env, k, level, -, h, -, he, -⟩ := sampleBusy_cases c io; rw [h]; exact he

@[simp] theorem drawChoice_premises (e : Env) : e.drawChoice.2.premises = e.premises := (drawChoice_only e).premises

/-! ### The settle time -/

/-- A look at the settle time uses up draws, and may let the calibration begun be finished. -/
theorem settled_cases (io : Io) :
    ∃ (env : Env) (cal : CalState) (x y z : Option Bool),
      io.settled.2 = { io with env := env, chip := { io.chip with cal := cal, calIf := x, calVcoc := y, calVcob := z } } ∧
      env.premises = io.env.premises := by
  unfold Io.settled
  dsimp only
  split_ifs
  · exact ⟨_, _, _, _, _, rfl, by simp⟩
  · exact ⟨_, io.chip.cal, io.chip.calIf, io.chip.calVcoc, io.chip.calVcob, rfl, by simp⟩

theorem settled_cons {io : Io} {b : Bool} {r : List Bool} (h : io.env.settleIn = b :: r) : io.settled.1 = b := by
  simp [Io.settled, drawSettle_cons h]

@[simp] theorem settled_history (io : Io) : io.settled.2.history = io.history := by
  obtain ⟨env, k, x, y, z, h, -⟩ := settled_cases io; rw [h]
@[simp] theorem settled_csn (io : Io) : io.settled.2.csn = io.csn := by
  obtain ⟨env, k, x, y, z, h, -⟩ := settled_cases io; rw [h]
@[simp] theorem settled_places (io : Io) : io.settled.2.chip.places = io.chip.places := by
  obtain ⟨env, k, x, y, z, h, -⟩ := settled_cases io; rw [h]; rfl
@[simp] theorem settled_base (io : Io) : io.settled.2.chip.base = io.chip.base := by
  obtain ⟨env, k, x, y, z, h, -⟩ := settled_cases io; rw [h]; rfl
@[simp] theorem settled_premises (io : Io) : io.settled.2.env.premises = io.env.premises := by
  obtain ⟨env, k, x, y, z, h, he⟩ := settled_cases io; rw [h]; exact he

end Sys2Proof.Machine
end

