-- ==== Sys2Proof/Laws/State.lean ====
section
/-! SUPPORT. What each shared operation leaves of the machine: one lemma per field per update, so that no proof unfolds a record update.
They are closed by tactic, not by the term: as terms Lean checks each once more as a definitional rewrite, which takes minutes. -/

namespace Sys2Proof.Machine

/-! `frame` writes `io` only. -/

@[simp] theorem frame_cfg (out : List Byte) (n : Nat) (s : State) : (s.frame out n).2.cfg = s.cfg := by rfl
@[simp] theorem frame_channel (out : List Byte) (n : Nat) (s : State) : (s.frame out n).2.channel = s.channel := by rfl
@[simp] theorem frame_deviceId (out : List Byte) (n : Nat) (s : State) : (s.frame out n).2.deviceId = s.deviceId := by rfl
@[simp] theorem frame_pktlen (out : List Byte) (n : Nat) (s : State) : (s.frame out n).2.pktlen = s.pktlen := by rfl
@[simp] theorem frame_tstate (out : List Byte) (n : Nat) (s : State) : (s.frame out n).2.tstate = s.tstate := by rfl
@[simp] theorem frame_spc (out : List Byte) (n : Nat) (s : State) : (s.frame out n).2.spc = s.spc := by rfl
@[simp] theorem frame_hold (out : List Byte) (n : Nat) (s : State) : (s.frame out n).2.hold = s.hold := by rfl
@[simp] theorem frame_bootFailed (out : List Byte) (n : Nat) (s : State) : (s.frame out n).2.bootFailed = s.bootFailed := by rfl
@[simp] theorem frame_sess (out : List Byte) (n : Nat) (s : State) : (s.frame out n).2.sess = s.sess := by rfl
@[simp] theorem frame_image (out : List Byte) (n : Nat) (s : State) : (s.frame out n).2.image = s.image := by rfl
@[simp] theorem frame_snap (out : List Byte) (n : Nat) (s : State) : (s.frame out n).2.snap = s.snap := by rfl
@[simp] theorem frame_rxpkt (out : List Byte) (n : Nat) (s : State) : (s.frame out n).2.rxpkt = s.rxpkt := by rfl
@[simp] theorem frame_hello (out : List Byte) (n : Nat) (s : State) : (s.frame out n).2.hello = s.hello := by rfl
@[simp] theorem frame_offset (out : List Byte) (n : Nat) (s : State) : (s.frame out n).2.offset = s.offset := by rfl
@[simp] theorem frame_flags (out : List Byte) (n : Nat) (s : State) : (s.frame out n).2.flags = s.flags := by rfl
@[simp] theorem frame_newClient (out : List Byte) (n : Nat) (s : State) : (s.frame out n).2.newClient = s.newClient := by rfl
@[simp] theorem frame_log (out : List Byte) (n : Nat) (s : State) : (s.frame out n).2.log = s.log := by rfl
@[simp] theorem frame_ret (out : List Byte) (n : Nat) (s : State) : (s.frame out n).2.ret = s.ret := by rfl
@[simp] theorem frame_agenda (out : List Byte) (n : Nat) (s : State) : (s.frame out n).2.agenda = s.agenda := by rfl

/-! `wreg` writes `io` only. -/

@[simp] theorem wreg_cfg (a : Addr) (l : List Byte) (s : State) : (s.wreg a l).cfg = s.cfg := by rfl
@[simp] theorem wreg_channel (a : Addr) (l : List Byte) (s : State) : (s.wreg a l).channel = s.channel := by rfl
@[simp] theorem wreg_deviceId (a : Addr) (l : List Byte) (s : State) : (s.wreg a l).deviceId = s.deviceId := by rfl
@[simp] theorem wreg_pktlen (a : Addr) (l : List Byte) (s : State) : (s.wreg a l).pktlen = s.pktlen := by rfl
@[simp] theorem wreg_tstate (a : Addr) (l : List Byte) (s : State) : (s.wreg a l).tstate = s.tstate := by rfl
@[simp] theorem wreg_spc (a : Addr) (l : List Byte) (s : State) : (s.wreg a l).spc = s.spc := by rfl
@[simp] theorem wreg_hold (a : Addr) (l : List Byte) (s : State) : (s.wreg a l).hold = s.hold := by rfl
@[simp] theorem wreg_bootFailed (a : Addr) (l : List Byte) (s : State) : (s.wreg a l).bootFailed = s.bootFailed := by rfl
@[simp] theorem wreg_sess (a : Addr) (l : List Byte) (s : State) : (s.wreg a l).sess = s.sess := by rfl
@[simp] theorem wreg_image (a : Addr) (l : List Byte) (s : State) : (s.wreg a l).image = s.image := by rfl
@[simp] theorem wreg_snap (a : Addr) (l : List Byte) (s : State) : (s.wreg a l).snap = s.snap := by rfl
@[simp] theorem wreg_rxpkt (a : Addr) (l : List Byte) (s : State) : (s.wreg a l).rxpkt = s.rxpkt := by rfl
@[simp] theorem wreg_hello (a : Addr) (l : List Byte) (s : State) : (s.wreg a l).hello = s.hello := by rfl
@[simp] theorem wreg_offset (a : Addr) (l : List Byte) (s : State) : (s.wreg a l).offset = s.offset := by rfl
@[simp] theorem wreg_flags (a : Addr) (l : List Byte) (s : State) : (s.wreg a l).flags = s.flags := by rfl
@[simp] theorem wreg_newClient (a : Addr) (l : List Byte) (s : State) : (s.wreg a l).newClient = s.newClient := by rfl
@[simp] theorem wreg_log (a : Addr) (l : List Byte) (s : State) : (s.wreg a l).log = s.log := by rfl
@[simp] theorem wreg_ret (a : Addr) (l : List Byte) (s : State) : (s.wreg a l).ret = s.ret := by rfl
@[simp] theorem wreg_agenda (a : Addr) (l : List Byte) (s : State) : (s.wreg a l).agenda = s.agenda := by rfl

/-! `rreg` writes `io` only. -/

@[simp] theorem rreg_cfg (a : Addr) (n : Nat) (s : State) : (s.rreg a n).2.cfg = s.cfg := by rfl
@[simp] theorem rreg_channel (a : Addr) (n : Nat) (s : State) : (s.rreg a n).2.channel = s.channel := by rfl
@[simp] theorem rreg_deviceId (a : Addr) (n : Nat) (s : State) : (s.rreg a n).2.deviceId = s.deviceId := by rfl
@[simp] theorem rreg_pktlen (a : Addr) (n : Nat) (s : State) : (s.rreg a n).2.pktlen = s.pktlen := by rfl
@[simp] theorem rreg_tstate (a : Addr) (n : Nat) (s : State) : (s.rreg a n).2.tstate = s.tstate := by rfl
@[simp] theorem rreg_spc (a : Addr) (n : Nat) (s : State) : (s.rreg a n).2.spc = s.spc := by rfl
@[simp] theorem rreg_hold (a : Addr) (n : Nat) (s : State) : (s.rreg a n).2.hold = s.hold := by rfl
@[simp] theorem rreg_bootFailed (a : Addr) (n : Nat) (s : State) : (s.rreg a n).2.bootFailed = s.bootFailed := by rfl
@[simp] theorem rreg_sess (a : Addr) (n : Nat) (s : State) : (s.rreg a n).2.sess = s.sess := by rfl
@[simp] theorem rreg_image (a : Addr) (n : Nat) (s : State) : (s.rreg a n).2.image = s.image := by rfl
@[simp] theorem rreg_snap (a : Addr) (n : Nat) (s : State) : (s.rreg a n).2.snap = s.snap := by rfl
@[simp] theorem rreg_rxpkt (a : Addr) (n : Nat) (s : State) : (s.rreg a n).2.rxpkt = s.rxpkt := by rfl
@[simp] theorem rreg_hello (a : Addr) (n : Nat) (s : State) : (s.rreg a n).2.hello = s.hello := by rfl
@[simp] theorem rreg_offset (a : Addr) (n : Nat) (s : State) : (s.rreg a n).2.offset = s.offset := by rfl
@[simp] theorem rreg_flags (a : Addr) (n : Nat) (s : State) : (s.rreg a n).2.flags = s.flags := by rfl
@[simp] theorem rreg_newClient (a : Addr) (n : Nat) (s : State) : (s.rreg a n).2.newClient = s.newClient := by rfl
@[simp] theorem rreg_log (a : Addr) (n : Nat) (s : State) : (s.rreg a n).2.log = s.log := by rfl
@[simp] theorem rreg_ret (a : Addr) (n : Nat) (s : State) : (s.rreg a n).2.ret = s.ret := by rfl
@[simp] theorem rreg_agenda (a : Addr) (n : Nat) (s : State) : (s.rreg a n).2.agenda = s.agenda := by rfl

/-! `rreg1` writes `io` only. -/

@[simp] theorem rreg1_cfg (a : Addr) (s : State) : (s.rreg1 a).2.cfg = s.cfg := by rfl
@[simp] theorem rreg1_channel (a : Addr) (s : State) : (s.rreg1 a).2.channel = s.channel := by rfl
@[simp] theorem rreg1_deviceId (a : Addr) (s : State) : (s.rreg1 a).2.deviceId = s.deviceId := by rfl
@[simp] theorem rreg1_pktlen (a : Addr) (s : State) : (s.rreg1 a).2.pktlen = s.pktlen := by rfl
@[simp] theorem rreg1_tstate (a : Addr) (s : State) : (s.rreg1 a).2.tstate = s.tstate := by rfl
@[simp] theorem rreg1_spc (a : Addr) (s : State) : (s.rreg1 a).2.spc = s.spc := by rfl
@[simp] theorem rreg1_hold (a : Addr) (s : State) : (s.rreg1 a).2.hold = s.hold := by rfl
@[simp] theorem rreg1_bootFailed (a : Addr) (s : State) : (s.rreg1 a).2.bootFailed = s.bootFailed := by rfl
@[simp] theorem rreg1_sess (a : Addr) (s : State) : (s.rreg1 a).2.sess = s.sess := by rfl
@[simp] theorem rreg1_image (a : Addr) (s : State) : (s.rreg1 a).2.image = s.image := by rfl
@[simp] theorem rreg1_snap (a : Addr) (s : State) : (s.rreg1 a).2.snap = s.snap := by rfl
@[simp] theorem rreg1_rxpkt (a : Addr) (s : State) : (s.rreg1 a).2.rxpkt = s.rxpkt := by rfl
@[simp] theorem rreg1_hello (a : Addr) (s : State) : (s.rreg1 a).2.hello = s.hello := by rfl
@[simp] theorem rreg1_offset (a : Addr) (s : State) : (s.rreg1 a).2.offset = s.offset := by rfl
@[simp] theorem rreg1_flags (a : Addr) (s : State) : (s.rreg1 a).2.flags = s.flags := by rfl
@[simp] theorem rreg1_newClient (a : Addr) (s : State) : (s.rreg1 a).2.newClient = s.newClient := by rfl
@[simp] theorem rreg1_log (a : Addr) (s : State) : (s.rreg1 a).2.log = s.log := by rfl
@[simp] theorem rreg1_ret (a : Addr) (s : State) : (s.rreg1 a).2.ret = s.ret := by rfl
@[simp] theorem rreg1_agenda (a : Addr) (s : State) : (s.rreg1 a).2.agenda = s.agenda := by rfl

/-! `strobe` writes `io` only. -/

@[simp] theorem strobe_cfg (k : Nibble) (s : State) : (s.strobe k).cfg = s.cfg := by rfl
@[simp] theorem strobe_channel (k : Nibble) (s : State) : (s.strobe k).channel = s.channel := by rfl
@[simp] theorem strobe_deviceId (k : Nibble) (s : State) : (s.strobe k).deviceId = s.deviceId := by rfl
@[simp] theorem strobe_pktlen (k : Nibble) (s : State) : (s.strobe k).pktlen = s.pktlen := by rfl
@[simp] theorem strobe_tstate (k : Nibble) (s : State) : (s.strobe k).tstate = s.tstate := by rfl
@[simp] theorem strobe_spc (k : Nibble) (s : State) : (s.strobe k).spc = s.spc := by rfl
@[simp] theorem strobe_hold (k : Nibble) (s : State) : (s.strobe k).hold = s.hold := by rfl
@[simp] theorem strobe_bootFailed (k : Nibble) (s : State) : (s.strobe k).bootFailed = s.bootFailed := by rfl
@[simp] theorem strobe_sess (k : Nibble) (s : State) : (s.strobe k).sess = s.sess := by rfl
@[simp] theorem strobe_image (k : Nibble) (s : State) : (s.strobe k).image = s.image := by rfl
@[simp] theorem strobe_snap (k : Nibble) (s : State) : (s.strobe k).snap = s.snap := by rfl
@[simp] theorem strobe_rxpkt (k : Nibble) (s : State) : (s.strobe k).rxpkt = s.rxpkt := by rfl
@[simp] theorem strobe_hello (k : Nibble) (s : State) : (s.strobe k).hello = s.hello := by rfl
@[simp] theorem strobe_offset (k : Nibble) (s : State) : (s.strobe k).offset = s.offset := by rfl
@[simp] theorem strobe_flags (k : Nibble) (s : State) : (s.strobe k).flags = s.flags := by rfl
@[simp] theorem strobe_newClient (k : Nibble) (s : State) : (s.strobe k).newClient = s.newClient := by rfl
@[simp] theorem strobe_log (k : Nibble) (s : State) : (s.strobe k).log = s.log := by rfl
@[simp] theorem strobe_ret (k : Nibble) (s : State) : (s.strobe k).ret = s.ret := by rfl
@[simp] theorem strobe_agenda (k : Nibble) (s : State) : (s.strobe k).agenda = s.agenda := by rfl

/-! `doubtIdent` writes the chip's identity only. -/

@[simp] theorem doubtIdent_cfg (s : State) : s.doubtIdent.cfg = s.cfg := by rfl
@[simp] theorem doubtIdent_channel (s : State) : s.doubtIdent.channel = s.channel := by rfl
@[simp] theorem doubtIdent_deviceId (s : State) : s.doubtIdent.deviceId = s.deviceId := by rfl
@[simp] theorem doubtIdent_pktlen (s : State) : s.doubtIdent.pktlen = s.pktlen := by rfl
@[simp] theorem doubtIdent_tstate (s : State) : s.doubtIdent.tstate = s.tstate := by rfl
@[simp] theorem doubtIdent_spc (s : State) : s.doubtIdent.spc = s.spc := by rfl
@[simp] theorem doubtIdent_hold (s : State) : s.doubtIdent.hold = s.hold := by rfl
@[simp] theorem doubtIdent_bootFailed (s : State) : s.doubtIdent.bootFailed = s.bootFailed := by rfl
@[simp] theorem doubtIdent_sess (s : State) : s.doubtIdent.sess = s.sess := by rfl
@[simp] theorem doubtIdent_image (s : State) : s.doubtIdent.image = s.image := by rfl
@[simp] theorem doubtIdent_snap (s : State) : s.doubtIdent.snap = s.snap := by rfl
@[simp] theorem doubtIdent_rxpkt (s : State) : s.doubtIdent.rxpkt = s.rxpkt := by rfl
@[simp] theorem doubtIdent_hello (s : State) : s.doubtIdent.hello = s.hello := by rfl
@[simp] theorem doubtIdent_offset (s : State) : s.doubtIdent.offset = s.offset := by rfl
@[simp] theorem doubtIdent_flags (s : State) : s.doubtIdent.flags = s.flags := by rfl
@[simp] theorem doubtIdent_newClient (s : State) : s.doubtIdent.newClient = s.newClient := by rfl
@[simp] theorem doubtIdent_log (s : State) : s.doubtIdent.log = s.log := by rfl
@[simp] theorem doubtIdent_ret (s : State) : s.doubtIdent.ret = s.ret := by rfl
@[simp] theorem doubtIdent_agenda (s : State) : s.doubtIdent.agenda = s.agenda := by rfl
@[simp] theorem doubtIdent_io (s : State) : s.doubtIdent.io = { s.io with chip := { s.io.chip with ident := none } } := by rfl

/-! `sampleBusy` writes `io` only. -/

@[simp] theorem sampleBusy_cfg (s : State) : s.sampleBusy.2.cfg = s.cfg := by rfl
@[simp] theorem sampleBusy_channel (s : State) : s.sampleBusy.2.channel = s.channel := by rfl
@[simp] theorem sampleBusy_deviceId (s : State) : s.sampleBusy.2.deviceId = s.deviceId := by rfl
@[simp] theorem sampleBusy_pktlen (s : State) : s.sampleBusy.2.pktlen = s.pktlen := by rfl
@[simp] theorem sampleBusy_tstate (s : State) : s.sampleBusy.2.tstate = s.tstate := by rfl
@[simp] theorem sampleBusy_spc (s : State) : s.sampleBusy.2.spc = s.spc := by rfl
@[simp] theorem sampleBusy_hold (s : State) : s.sampleBusy.2.hold = s.hold := by rfl
@[simp] theorem sampleBusy_bootFailed (s : State) : s.sampleBusy.2.bootFailed = s.bootFailed := by rfl
@[simp] theorem sampleBusy_sess (s : State) : s.sampleBusy.2.sess = s.sess := by rfl
@[simp] theorem sampleBusy_image (s : State) : s.sampleBusy.2.image = s.image := by rfl
@[simp] theorem sampleBusy_snap (s : State) : s.sampleBusy.2.snap = s.snap := by rfl
@[simp] theorem sampleBusy_rxpkt (s : State) : s.sampleBusy.2.rxpkt = s.rxpkt := by rfl
@[simp] theorem sampleBusy_hello (s : State) : s.sampleBusy.2.hello = s.hello := by rfl
@[simp] theorem sampleBusy_offset (s : State) : s.sampleBusy.2.offset = s.offset := by rfl
@[simp] theorem sampleBusy_flags (s : State) : s.sampleBusy.2.flags = s.flags := by rfl
@[simp] theorem sampleBusy_newClient (s : State) : s.sampleBusy.2.newClient = s.newClient := by rfl
@[simp] theorem sampleBusy_log (s : State) : s.sampleBusy.2.log = s.log := by rfl
@[simp] theorem sampleBusy_ret (s : State) : s.sampleBusy.2.ret = s.ret := by rfl
@[simp] theorem sampleBusy_agenda (s : State) : s.sampleBusy.2.agenda = s.agenda := by rfl

/-! `settled` writes `io` only. -/

@[simp] theorem settled_cfg (s : State) : s.settled.2.cfg = s.cfg := by rfl
@[simp] theorem settled_channel (s : State) : s.settled.2.channel = s.channel := by rfl
@[simp] theorem settled_deviceId (s : State) : s.settled.2.deviceId = s.deviceId := by rfl
@[simp] theorem settled_pktlen (s : State) : s.settled.2.pktlen = s.pktlen := by rfl
@[simp] theorem settled_tstate (s : State) : s.settled.2.tstate = s.tstate := by rfl
@[simp] theorem settled_spc (s : State) : s.settled.2.spc = s.spc := by rfl
@[simp] theorem settled_hold (s : State) : s.settled.2.hold = s.hold := by rfl
@[simp] theorem settled_bootFailed (s : State) : s.settled.2.bootFailed = s.bootFailed := by rfl
@[simp] theorem settled_sess (s : State) : s.settled.2.sess = s.sess := by rfl
@[simp] theorem settled_image (s : State) : s.settled.2.image = s.image := by rfl
@[simp] theorem settled_snap (s : State) : s.settled.2.snap = s.snap := by rfl
@[simp] theorem settled_rxpkt (s : State) : s.settled.2.rxpkt = s.rxpkt := by rfl
@[simp] theorem settled_hello (s : State) : s.settled.2.hello = s.hello := by rfl
@[simp] theorem settled_offset (s : State) : s.settled.2.offset = s.offset := by rfl
@[simp] theorem settled_flags (s : State) : s.settled.2.flags = s.flags := by rfl
@[simp] theorem settled_newClient (s : State) : s.settled.2.newClient = s.newClient := by rfl
@[simp] theorem settled_log (s : State) : s.settled.2.log = s.log := by rfl
@[simp] theorem settled_ret (s : State) : s.settled.2.ret = s.ret := by rfl
@[simp] theorem settled_agenda (s : State) : s.settled.2.agenda = s.agenda := by rfl

/-! `now` writes `io` only. -/

@[simp] theorem now_cfg (s : State) : s.now.2.cfg = s.cfg := by rfl
@[simp] theorem now_channel (s : State) : s.now.2.channel = s.channel := by rfl
@[simp] theorem now_deviceId (s : State) : s.now.2.deviceId = s.deviceId := by rfl
@[simp] theorem now_pktlen (s : State) : s.now.2.pktlen = s.pktlen := by rfl
@[simp] theorem now_tstate (s : State) : s.now.2.tstate = s.tstate := by rfl
@[simp] theorem now_spc (s : State) : s.now.2.spc = s.spc := by rfl
@[simp] theorem now_hold (s : State) : s.now.2.hold = s.hold := by rfl
@[simp] theorem now_bootFailed (s : State) : s.now.2.bootFailed = s.bootFailed := by rfl
@[simp] theorem now_sess (s : State) : s.now.2.sess = s.sess := by rfl
@[simp] theorem now_image (s : State) : s.now.2.image = s.image := by rfl
@[simp] theorem now_snap (s : State) : s.now.2.snap = s.snap := by rfl
@[simp] theorem now_rxpkt (s : State) : s.now.2.rxpkt = s.rxpkt := by rfl
@[simp] theorem now_hello (s : State) : s.now.2.hello = s.hello := by rfl
@[simp] theorem now_offset (s : State) : s.now.2.offset = s.offset := by rfl
@[simp] theorem now_flags (s : State) : s.now.2.flags = s.flags := by rfl
@[simp] theorem now_newClient (s : State) : s.now.2.newClient = s.newClient := by rfl
@[simp] theorem now_log (s : State) : s.now.2.log = s.log := by rfl
@[simp] theorem now_ret (s : State) : s.now.2.ret = s.ret := by rfl
@[simp] theorem now_agenda (s : State) : s.now.2.agenda = s.agenda := by rfl

/-! `random` writes `io` only. -/

@[simp] theorem random_cfg (s : State) : s.random.2.cfg = s.cfg := by rfl
@[simp] theorem random_channel (s : State) : s.random.2.channel = s.channel := by rfl
@[simp] theorem random_deviceId (s : State) : s.random.2.deviceId = s.deviceId := by rfl
@[simp] theorem random_pktlen (s : State) : s.random.2.pktlen = s.pktlen := by rfl
@[simp] theorem random_tstate (s : State) : s.random.2.tstate = s.tstate := by rfl
@[simp] theorem random_spc (s : State) : s.random.2.spc = s.spc := by rfl
@[simp] theorem random_hold (s : State) : s.random.2.hold = s.hold := by rfl
@[simp] theorem random_bootFailed (s : State) : s.random.2.bootFailed = s.bootFailed := by rfl
@[simp] theorem random_sess (s : State) : s.random.2.sess = s.sess := by rfl
@[simp] theorem random_image (s : State) : s.random.2.image = s.image := by rfl
@[simp] theorem random_snap (s : State) : s.random.2.snap = s.snap := by rfl
@[simp] theorem random_rxpkt (s : State) : s.random.2.rxpkt = s.rxpkt := by rfl
@[simp] theorem random_hello (s : State) : s.random.2.hello = s.hello := by rfl
@[simp] theorem random_offset (s : State) : s.random.2.offset = s.offset := by rfl
@[simp] theorem random_flags (s : State) : s.random.2.flags = s.flags := by rfl
@[simp] theorem random_newClient (s : State) : s.random.2.newClient = s.newClient := by rfl
@[simp] theorem random_log (s : State) : s.random.2.log = s.log := by rfl
@[simp] theorem random_ret (s : State) : s.random.2.ret = s.ret := by rfl
@[simp] theorem random_agenda (s : State) : s.random.2.agenda = s.agenda := by rfl

/-! `logAll` writes `log` only. -/

@[simp] theorem logAll_cfg (l : List LogEvent) (s : State) : (s.logAll l).cfg = s.cfg := by rfl
@[simp] theorem logAll_io (l : List LogEvent) (s : State) : (s.logAll l).io = s.io := by rfl
@[simp] theorem logAll_channel (l : List LogEvent) (s : State) : (s.logAll l).channel = s.channel := by rfl
@[simp] theorem logAll_deviceId (l : List LogEvent) (s : State) : (s.logAll l).deviceId = s.deviceId := by rfl
@[simp] theorem logAll_pktlen (l : List LogEvent) (s : State) : (s.logAll l).pktlen = s.pktlen := by rfl
@[simp] theorem logAll_tstate (l : List LogEvent) (s : State) : (s.logAll l).tstate = s.tstate := by rfl
@[simp] theorem logAll_spc (l : List LogEvent) (s : State) : (s.logAll l).spc = s.spc := by rfl
@[simp] theorem logAll_hold (l : List LogEvent) (s : State) : (s.logAll l).hold = s.hold := by rfl
@[simp] theorem logAll_bootFailed (l : List LogEvent) (s : State) : (s.logAll l).bootFailed = s.bootFailed := by rfl
@[simp] theorem logAll_sess (l : List LogEvent) (s : State) : (s.logAll l).sess = s.sess := by rfl
@[simp] theorem logAll_image (l : List LogEvent) (s : State) : (s.logAll l).image = s.image := by rfl
@[simp] theorem logAll_snap (l : List LogEvent) (s : State) : (s.logAll l).snap = s.snap := by rfl
@[simp] theorem logAll_rxpkt (l : List LogEvent) (s : State) : (s.logAll l).rxpkt = s.rxpkt := by rfl
@[simp] theorem logAll_hello (l : List LogEvent) (s : State) : (s.logAll l).hello = s.hello := by rfl
@[simp] theorem logAll_offset (l : List LogEvent) (s : State) : (s.logAll l).offset = s.offset := by rfl
@[simp] theorem logAll_flags (l : List LogEvent) (s : State) : (s.logAll l).flags = s.flags := by rfl
@[simp] theorem logAll_newClient (l : List LogEvent) (s : State) : (s.logAll l).newClient = s.newClient := by rfl
@[simp] theorem logAll_ret (l : List LogEvent) (s : State) : (s.logAll l).ret = s.ret := by rfl
@[simp] theorem logAll_agenda (l : List LogEvent) (s : State) : (s.logAll l).agenda = s.agenda := by rfl

/-! `answer` writes `ret` only. -/

@[simp] theorem answer_cfg (r : Ret) (s : State) : (s.answer r).cfg = s.cfg := by rfl
@[simp] theorem answer_io (r : Ret) (s : State) : (s.answer r).io = s.io := by rfl
@[simp] theorem answer_channel (r : Ret) (s : State) : (s.answer r).channel = s.channel := by rfl
@[simp] theorem answer_deviceId (r : Ret) (s : State) : (s.answer r).deviceId = s.deviceId := by rfl
@[simp] theorem answer_pktlen (r : Ret) (s : State) : (s.answer r).pktlen = s.pktlen := by rfl
@[simp] theorem answer_tstate (r : Ret) (s : State) : (s.answer r).tstate = s.tstate := by rfl
@[simp] theorem answer_spc (r : Ret) (s : State) : (s.answer r).spc = s.spc := by rfl
@[simp] theorem answer_hold (r : Ret) (s : State) : (s.answer r).hold = s.hold := by rfl
@[simp] theorem answer_bootFailed (r : Ret) (s : State) : (s.answer r).bootFailed = s.bootFailed := by rfl
@[simp] theorem answer_sess (r : Ret) (s : State) : (s.answer r).sess = s.sess := by rfl
@[simp] theorem answer_image (r : Ret) (s : State) : (s.answer r).image = s.image := by rfl
@[simp] theorem answer_snap (r : Ret) (s : State) : (s.answer r).snap = s.snap := by rfl
@[simp] theorem answer_rxpkt (r : Ret) (s : State) : (s.answer r).rxpkt = s.rxpkt := by rfl
@[simp] theorem answer_hello (r : Ret) (s : State) : (s.answer r).hello = s.hello := by rfl
@[simp] theorem answer_offset (r : Ret) (s : State) : (s.answer r).offset = s.offset := by rfl
@[simp] theorem answer_flags (r : Ret) (s : State) : (s.answer r).flags = s.flags := by rfl
@[simp] theorem answer_newClient (r : Ret) (s : State) : (s.answer r).newClient = s.newClient := by rfl
@[simp] theorem answer_log (r : Ret) (s : State) : (s.answer r).log = s.log := by rfl
@[simp] theorem answer_agenda (r : Ret) (s : State) : (s.answer r).agenda = s.agenda := by rfl

/-! `returnToLoop` writes `spc` only. -/

@[simp] theorem returnToLoop_cfg (s : State) : s.returnToLoop.cfg = s.cfg := by rfl
@[simp] theorem returnToLoop_io (s : State) : s.returnToLoop.io = s.io := by rfl
@[simp] theorem returnToLoop_channel (s : State) : s.returnToLoop.channel = s.channel := by rfl
@[simp] theorem returnToLoop_deviceId (s : State) : s.returnToLoop.deviceId = s.deviceId := by rfl
@[simp] theorem returnToLoop_pktlen (s : State) : s.returnToLoop.pktlen = s.pktlen := by rfl
@[simp] theorem returnToLoop_tstate (s : State) : s.returnToLoop.tstate = s.tstate := by rfl
@[simp] theorem returnToLoop_hold (s : State) : s.returnToLoop.hold = s.hold := by rfl
@[simp] theorem returnToLoop_bootFailed (s : State) : s.returnToLoop.bootFailed = s.bootFailed := by rfl
@[simp] theorem returnToLoop_sess (s : State) : s.returnToLoop.sess = s.sess := by rfl
@[simp] theorem returnToLoop_image (s : State) : s.returnToLoop.image = s.image := by rfl
@[simp] theorem returnToLoop_snap (s : State) : s.returnToLoop.snap = s.snap := by rfl
@[simp] theorem returnToLoop_rxpkt (s : State) : s.returnToLoop.rxpkt = s.rxpkt := by rfl
@[simp] theorem returnToLoop_hello (s : State) : s.returnToLoop.hello = s.hello := by rfl
@[simp] theorem returnToLoop_offset (s : State) : s.returnToLoop.offset = s.offset := by rfl
@[simp] theorem returnToLoop_flags (s : State) : s.returnToLoop.flags = s.flags := by rfl
@[simp] theorem returnToLoop_newClient (s : State) : s.returnToLoop.newClient = s.newClient := by rfl
@[simp] theorem returnToLoop_log (s : State) : s.returnToLoop.log = s.log := by rfl
@[simp] theorem returnToLoop_ret (s : State) : s.returnToLoop.ret = s.ret := by rfl
@[simp] theorem returnToLoop_agenda (s : State) : s.returnToLoop.agenda = s.agenda := by rfl

/-! What each writes. -/

@[simp] theorem frame_io (out : List Byte) (n : Nat) (s : State) : (s.frame out n).2.io = (s.io.frame s.cfg out n).2 := by rfl
@[simp] theorem frame_bytes (out : List Byte) (n : Nat) (s : State) : (s.frame out n).1 = (s.io.frame s.cfg out n).1 := by rfl
@[simp] theorem wreg_io (a : Addr) (l : List Byte) (s : State) :
    (s.wreg a l).io = (s.io.frame s.cfg (writeByte a :: l) 0).2 := by rfl
@[simp] theorem rreg_io (a : Addr) (n : Nat) (s : State) : (s.rreg a n).2.io = (s.io.frame s.cfg [readByte a] n).2 := by rfl
@[simp] theorem rreg_bytes (a : Addr) (n : Nat) (s : State) : (s.rreg a n).1 = (s.io.frame s.cfg [readByte a] n).1 := by rfl
@[simp] theorem rreg1_io (a : Addr) (s : State) : (s.rreg1 a).2.io = (s.io.frame s.cfg [readByte a] 1).2 := by rfl
@[simp] theorem rreg1_byte (a : Addr) (s : State) : (s.rreg1 a).1 = (s.io.frame s.cfg [readByte a] 1).1.getD 0 0 := by rfl
@[simp] theorem strobe_io (k : Nibble) (s : State) : (s.strobe k).io = (s.io.frame s.cfg [strobeByte k] 0).2 := by rfl
@[simp] theorem sampleBusy_io (s : State) : s.sampleBusy.2.io = (s.io.sampleBusy s.cfg).2 := by rfl
@[simp] theorem sampleBusy_asserted (s : State) : s.sampleBusy.1 = (s.io.sampleBusy s.cfg).1 := by rfl
@[simp] theorem settled_io (s : State) : s.settled.2.io = s.io.settled.2 := by rfl
@[simp] theorem settled_passed (s : State) : s.settled.1 = s.io.settled.1 := by rfl
@[simp] theorem now_io (s : State) : s.now.2.io = { s.io with env := s.io.env.drawNow.2 } := by rfl
@[simp] theorem now_time (s : State) : s.now.1 = s.io.env.drawNow.1 := by rfl
@[simp] theorem random_io (s : State) : s.random.2.io = { s.io with env := s.io.env.drawRandom.2 } := by rfl
@[simp] theorem random_bits (s : State) : s.random.1 = s.io.env.drawRandom.1 := by rfl
@[simp] theorem logAll_log (l : List LogEvent) (s : State) : (s.logAll l).log = s.log ++ l := by rfl
@[simp] theorem answer_ret (r : Ret) (s : State) : (s.answer r).ret = r := by rfl
@[simp] theorem returnToLoop_spc (s : State) : s.returnToLoop.spc = .s1 := by rfl

/-! A list of register writes changes `io` only. -/

@[simp] theorem wregAll_cfg (l : List (Addr × List Byte)) (s : State) : (s.wregAll l).cfg = s.cfg := by
  induction l generalizing s with
  | nil => rfl
  | cons x r ih => exact (ih (s.wreg x.1 x.2)).trans rfl
@[simp] theorem wregAll_channel (l : List (Addr × List Byte)) (s : State) : (s.wregAll l).channel = s.channel := by
  induction l generalizing s with
  | nil => rfl
  | cons x r ih => exact (ih (s.wreg x.1 x.2)).trans rfl
@[simp] theorem wregAll_deviceId (l : List (Addr × List Byte)) (s : State) : (s.wregAll l).deviceId = s.deviceId := by
  induction l generalizing s with
  | nil => rfl
  | cons x r ih => exact (ih (s.wreg x.1 x.2)).trans rfl
@[simp] theorem wregAll_pktlen (l : List (Addr × List Byte)) (s : State) : (s.wregAll l).pktlen = s.pktlen := by
  induction l generalizing s with
  | nil => rfl
  | cons x r ih => exact (ih (s.wreg x.1 x.2)).trans rfl
@[simp] theorem wregAll_tstate (l : List (Addr × List Byte)) (s : State) : (s.wregAll l).tstate = s.tstate := by
  induction l generalizing s with
  | nil => rfl
  | cons x r ih => exact (ih (s.wreg x.1 x.2)).trans rfl
@[simp] theorem wregAll_spc (l : List (Addr × List Byte)) (s : State) : (s.wregAll l).spc = s.spc := by
  induction l generalizing s with
  | nil => rfl
  | cons x r ih => exact (ih (s.wreg x.1 x.2)).trans rfl
@[simp] theorem wregAll_hold (l : List (Addr × List Byte)) (s : State) : (s.wregAll l).hold = s.hold := by
  induction l generalizing s with
  | nil => rfl
  | cons x r ih => exact (ih (s.wreg x.1 x.2)).trans rfl
@[simp] theorem wregAll_bootFailed (l : List (Addr × List Byte)) (s : State) : (s.wregAll l).bootFailed = s.bootFailed := by
  induction l generalizing s with
  | nil => rfl
  | cons x r ih => exact (ih (s.wreg x.1 x.2)).trans rfl
@[simp] theorem wregAll_sess (l : List (Addr × List Byte)) (s : State) : (s.wregAll l).sess = s.sess := by
  induction l generalizing s with
  | nil => rfl
  | cons x r ih => exact (ih (s.wreg x.1 x.2)).trans rfl
@[simp] theorem wregAll_image (l : List (Addr × List Byte)) (s : State) : (s.wregAll l).image = s.image := by
  induction l generalizing s with
  | nil => rfl
  | cons x r ih => exact (ih (s.wreg x.1 x.2)).trans rfl
@[simp] theorem wregAll_snap (l : List (Addr × List Byte)) (s : State) : (s.wregAll l).snap = s.snap := by
  induction l generalizing s with
  | nil => rfl
  | cons x r ih => exact (ih (s.wreg x.1 x.2)).trans rfl
@[simp] theorem wregAll_rxpkt (l : List (Addr × List Byte)) (s : State) : (s.wregAll l).rxpkt = s.rxpkt := by
  induction l generalizing s with
  | nil => rfl
  | cons x r ih => exact (ih (s.wreg x.1 x.2)).trans rfl
@[simp] theorem wregAll_hello (l : List (Addr × List Byte)) (s : State) : (s.wregAll l).hello = s.hello := by
  induction l generalizing s with
  | nil => rfl
  | cons x r ih => exact (ih (s.wreg x.1 x.2)).trans rfl
@[simp] theorem wregAll_offset (l : List (Addr × List Byte)) (s : State) : (s.wregAll l).offset = s.offset := by
  induction l generalizing s with
  | nil => rfl
  | cons x r ih => exact (ih (s.wreg x.1 x.2)).trans rfl
@[simp] theorem wregAll_flags (l : List (Addr × List Byte)) (s : State) : (s.wregAll l).flags = s.flags := by
  induction l generalizing s with
  | nil => rfl
  | cons x r ih => exact (ih (s.wreg x.1 x.2)).trans rfl
@[simp] theorem wregAll_newClient (l : List (Addr × List Byte)) (s : State) : (s.wregAll l).newClient = s.newClient := by
  induction l generalizing s with
  | nil => rfl
  | cons x r ih => exact (ih (s.wreg x.1 x.2)).trans rfl
@[simp] theorem wregAll_log (l : List (Addr × List Byte)) (s : State) : (s.wregAll l).log = s.log := by
  induction l generalizing s with
  | nil => rfl
  | cons x r ih => exact (ih (s.wreg x.1 x.2)).trans rfl
@[simp] theorem wregAll_ret (l : List (Addr × List Byte)) (s : State) : (s.wregAll l).ret = s.ret := by
  induction l generalizing s with
  | nil => rfl
  | cons x r ih => exact (ih (s.wreg x.1 x.2)).trans rfl
@[simp] theorem wregAll_agenda (l : List (Addr × List Byte)) (s : State) : (s.wregAll l).agenda = s.agenda := by
  induction l generalizing s with
  | nil => rfl
  | cons x r ih => exact (ih (s.wreg x.1 x.2)).trans rfl

end Sys2Proof.Machine
end

