-- ==== Sys2Proof/Laws/Ops.lean ====
section
/-! SUPPORT. One lemma per shared operation of the machine: the frames it sends and everything it writes. Callers cite these and unfold nothing. -/

namespace Sys2Proof.Machine

/-! ### Sending frames -/

theorem sent_nil {s t : State} (h : t.io = s.io) : Sent s t [] :=
  ⟨by simp [h], by simp [h], fun _ => by simp [h], fun _ => by rw [h]; exact Memory.within_refl _, by simp [h], by simp [h]⟩

/-- One frame. -/
theorem sent_frame {s t : State} {out : List Byte} {n : Nat} (h : t.io = (s.io.frame s.cfg out n).2) :
    Sent s t [⟨out, (s.io.frame s.cfg out n).1⟩] :=
  ⟨by rw [h, frame_history], by rw [h, frame_base]; rfl, fun hu => by rw [h, frame_places _ _ _ hu.1]; rfl,
    fun h5 => by rw [h]; exact frame_within _ _ _ h5, fun _ => by rw [h, frame_csn], by rw [h, frame_premises]⟩

/-- Frames after frames. -/
theorem Sent.trans {s t u : State} {fs gs : List FrameRecord} (h : Sent s t fs) (h' : Sent t u gs) (hc : t.cfg = s.cfg) :
    Sent s u (fs ++ gs) := by
  refine ⟨by rw [h'.history, h.history, List.append_assoc], ?_, fun hu => ?_, fun h5 => ?_, fun hs => h'.csn (h.csn hs), by rw [h'.premises, h.premises]⟩
  · rw [h'.base, afterFrames_append, hc]; exact afterFrames_base _ _ h.base
  · rw [unheard_append] at hu
    have h1 := h.places hu.1
    rw [h'.places (by rw [hc, unheard_places _ _ h1]; exact hu.2), afterFrames_append, hc]
    exact afterFrames_places _ _ h1
  · rw [afterFrames_append, ← hc]
    refine (h'.fifo (by rw [h.premises]; exact h5)).trans (afterFrames_within _ _ (by rw [h.base, hc]) ?_)
    rw [hc]; exact h.fifo h5

/-- Only the interface of the second state matters. -/
theorem Sent.of_io {s t u : State} {fs : List FrameRecord} (h : Sent s t fs) (hu : u.io = t.io) : Sent s u fs :=
  ⟨by rw [hu]; exact h.history, by rw [hu]; exact h.base, by rw [hu]; exact h.places, by rw [hu]; exact h.fifo, by rw [hu]; exact h.csn,
    by rw [hu]; exact h.premises⟩

/-- Only the interface and the configuration of the first state matter. -/
theorem Sent.of_io_left {s s' t : State} {fs : List FrameRecord} (h : Sent s t fs) (hi : s'.io = s.io) (hc : s'.cfg = s.cfg) :
    Sent s' t fs :=
  ⟨by rw [hi]; exact h.history, by rw [hi, hc]; exact h.base, by rw [hi, hc]; exact h.places, by rw [hi, hc]; exact h.fifo,
    by rw [hi]; exact h.csn, by rw [hi]; exact h.premises⟩

theorem sent_wreg (a : Addr) (l : List Byte) (s : State) : Sent s (s.wreg a l) [writeRecord a l] := by
  have h := sent_frame (wreg_io a l s)
  rwa [frame_bytes_zero] at h

theorem sent_strobe (k : Nibble) (s : State) : Sent s (s.strobe k) [strobeRecord k] := by
  have h := sent_frame (strobe_io k s)
  rwa [frame_bytes_zero] at h

theorem sent_rreg (a : Addr) (n : Nat) (s : State) : Sent s (s.rreg a n).2 [readRecord a (s.rreg a n).1] := sent_frame (rreg_io a n s)

@[simp] theorem rreg_length (a : Addr) (n : Nat) (s : State) : (s.rreg a n).1.length = n := frame_length _ _ _ _

/-- The one byte of a one-byte read is the byte returned. -/
theorem rreg1_bytes (a : Addr) (s : State) : (s.rreg a 1).1 = [(s.rreg1 a).1] := by
  obtain ⟨x, hx⟩ := List.length_eq_one_iff.1 (rreg_length a 1 s)
  simp only [State.rreg1]
  rw [hx]; rfl

theorem sent_rreg1 (a : Addr) (s : State) : Sent s (s.rreg1 a).2 [readRecord a [(s.rreg1 a).1]] := by
  have h := sent_rreg a 1 s
  rw [rreg1_bytes] at h
  exact h.of_io rfl

theorem sent_wregAll (l : List (Addr × List Byte)) :
    ∀ s : State, Sent s (s.wregAll l) (l.map (fun x => writeRecord x.1 x.2)) := by
  induction l with
  | nil => intro s; exact sent_nil rfl
  | cons x r ih => intro s; exact (sent_wreg x.1 x.2 s).trans (ih _) rfl

theorem wregAll_settleIn (l : List (Addr × List Byte)) : ∀ s : State, (s.wregAll l).io.env.settleIn = s.io.env.settleIn := by
  induction l with
  | nil => intro s; rfl
  | cons x r ih => intro s; exact (ih _).trans (by simp)

/-- A list of register writes changes nothing but the interface. -/
theorem wregAll_eq (l : List (Addr × List Byte)) : ∀ s : State, s.wregAll l = { s with io := (s.wregAll l).io } := by
  induction l with
  | nil => intro s; rfl
  | cons x r ih => intro s; exact (ih (s.wreg x.1 x.2)).trans rfl

theorem sent_settled (s : State) : Sent s s.settled.2 [] :=
  ⟨by simp, by simp, fun _ => by simp, fun _ => by rw [settled_io, (places_ext.1 (settled_places s.io)).2.2.1]; exact Memory.within_refl _, by simp, by simp⟩

theorem sent_sampleBusy (s : State)
    (hm : s.io.chip.mode ≠ .rx ∨ s.io.env.premises.cp5 = false ∨ (s.io.sampleBusy s.cfg).1 = true) : Sent s s.sampleBusy.2 [] :=
  ⟨by simp, by simp, fun _ => by simp [sampleBusy_places _ _ hm],
    fun _ => by rw [sampleBusy_io, (places_ext.1 (sampleBusy_places _ _ hm)).2.2.1]; exact Memory.within_refl _, by simp, by simp⟩

/-! ### The four bytes of an identity -/

theorem four_bytes {q : List Byte} (h : q.length = 4) : ∃ q0 q1 q2 q3, q = [q0, q1, q2, q3] := by
  match q, h with
  | [q0, q1, q2, q3], _ => exact ⟨q0, q1, q2, q3, rfl⟩

/-- SETID (R166). -/
theorem setId_spec (id : Word) (s : State) :
    ∃ (u : State) (q0 q1 q2 q3 : Byte),
      Sent s u [writeRecord s.cfg.aId (toBe32 id), readRecord s.cfg.aId [q0, q1, q2, q3]] ∧ u = { s with io := u.io } ∧
      (be32 q0 q1 q2 q3 = id → s.setId id = (none, { u with deviceId := some id })) ∧
      (be32 q0 q1 q2 q3 ≠ id → s.setId id = (some (.idMismatch id (be32 q0 q1 q2 q3)), { u.doubtIdent with deviceId := none })) := by
  obtain ⟨q0, q1, q2, q3, hq⟩ := four_bytes (rreg_length s.cfg.aId 4 (s.wreg s.cfg.aId (toBe32 id)))
  have h2 := sent_rreg s.cfg.aId 4 (s.wreg s.cfg.aId (toBe32 id))
  rw [hq] at h2
  refine ⟨_, q0, q1, q2, q3, (sent_wreg s.cfg.aId (toBe32 id) s).trans h2 rfl, rfl, fun h => ?_, fun h => ?_⟩
  · simp only [State.setId, hq]
    exact if_pos h
  · simp only [State.setId, hq]
    exact if_neg h

/-- SETID's two frames leave the identity written. -/
theorem afterFrames_setId {c : Config} (h : c.aId ≠ c.aFifo) (id : Word) (q0 q1 q2 q3 : Byte) (k : Chip) :
    (afterFrames c [writeRecord c.aId (toBe32 id), readRecord c.aId [q0, q1, q2, q3]] k).ident = some id := by
  show ((k.afterFrame c (writeByte c.aId :: toBe32 id) []).afterFrame c [readByte c.aId] [q0, q1, q2, q3]).ident = _
  rw [afterFrame_read _ _ (by simp), afterFrame_write _ _ (by simp [toBe32]), chipRead_ident]
  unfold Chip.write
  rw [if_neg h, if_pos ⟨rfl, rfl⟩]
  show some (be32List (toBe32 id)) = _
  rw [be32List_toBe32]

/-- SETCH (R165). -/
theorem setChannel_spec (ch : Byte) (s : State) :
    s.setChannel ch = { s with io := (s.setChannel ch).io, channel := some ch } ∧
      Sent s (s.setChannel ch) [writeRecord s.cfg.aChannel [ch]] :=
  ⟨rfl, (sent_wreg s.cfg.aChannel [ch] s).of_io rfl⟩

/-- SETLEN within its range (R167). -/
theorem setLength_ok {n : Int} (h : 1 ≤ n ∧ n ≤ 64) (s : State) :
    (s.setLength n).1 = none ∧ (s.setLength n).2 = { s with io := (s.setLength n).2.io, pktlen := some n.toNat } ∧
      Sent s (s.setLength n).2 [writeRecord s.cfg.aPktlen [lengthByte n]] := by
  have hn : ¬ (n < pktMin ∨ pktMax < n) := by simp only [pktMin, pktMax]; omega
  unfold State.setLength
  rw [if_neg hn]
  exact ⟨rfl, rfl, (sent_wreg _ _ s).of_io rfl⟩

/-- SETLEN outside its range (R167). -/
theorem setLength_range {n : Int} (h : n < 1 ∨ 64 < n) (s : State) : s.setLength n = (some (.packetLengthRange n), s) := if_pos h

/-! ### Errors -/

/-- Taking an error at the loop boundary (R215, R259). -/
theorem takeError_spec (e : Err) (cid iid : Option Word) (s : State) :
    ∃ time, s.takeError e cid iid =
      { s with io := (s.takeError e cid iid).io, spc := .s1, log := s.log ++ [.error e time cid iid] } ∧
      Sent s (s.takeError e cid iid) [] ∧ NoFrame s (s.takeError e cid iid) :=
  ⟨_, rfl, ⟨by simp [State.takeError], by simp [State.takeError], fun _ => by simp [State.takeError],
      fun _ => Memory.within_refl _, by simp [State.takeError], by simp [State.takeError]⟩,
    rfl, by simp [State.takeError]⟩

/-! ### INIT and BOOT -/

/-- INIT up to the settle wait (R161 to R163). -/
theorem initStart_spec (c : Caller) (s : State) :
    ∃ u : State, s.initStart c = u.pollSettle c ∧ u = { s with io := u.io, tstate := .calibrating } ∧
      Sent s u (initProgram s.cfg) ∧ u.io.env.settleIn = s.io.env.settleIn := by
  refine ⟨_, rfl, ?_, ?_, ?_⟩
  · rw [wregAll_eq, wregAll_eq]; rfl
  · have h1 := sent_wregAll s.cfg.initSeq { s with tstate := .calibrating }
    have h2 := sent_wregAll s.cfg.calClearSeq ({ s with tstate := .calibrating }.wregAll s.cfg.initSeq)
    have h3 := sent_strobe s.cfg.cPll (({ s with tstate := .calibrating }.wregAll s.cfg.initSeq).wregAll s.cfg.calClearSeq)
    have h4 := sent_wreg s.cfg.aCalctl [s.cfg.vCalctl]
      ((({ s with tstate := .calibrating }.wregAll s.cfg.initSeq).wregAll s.cfg.calClearSeq).strobe s.cfg.cPll)
    have h := (((h1.trans h2 (by simp)).trans h3 (by simp)).trans h4 (by simp)).of_io_left (s' := s) rfl rfl
    simpa only [initProgram, List.append_assoc, List.cons_append, List.nil_append] using h
  · simp [wregAll_settleIn]

/-- INIT's verification (R164), before it goes back to its caller. -/
theorem initFinish_spec (c : Caller) (s : State) :
    ∃ (u : State) (s1 s2 s3 : Byte),
      Sent s u [readRecord s.cfg.aCalIf [s1], readRecord s.cfg.aCalVcoc [s2], readRecord s.cfg.aCalVcob [s3]] ∧
      u = { s with io := u.io, tstate := .idle, log := s.log ++ calWarnings s.cfg s1 s2 s3 } ∧
      s.initFinish c = match c with
        | .direct => u.answer .ok
        | .loop => u.bootRest := by
  have h1 := sent_rreg1 s.cfg.aCalIf s
  have h2 := sent_rreg1 s.cfg.aCalVcoc (s.rreg1 s.cfg.aCalIf).2
  have h3 := sent_rreg1 s.cfg.aCalVcob ((s.rreg1 s.cfg.aCalIf).2.rreg1 s.cfg.aCalVcoc).2
  have h := (h1.trans h2 rfl).trans h3 rfl
  refine ⟨{ (((s.rreg1 s.cfg.aCalIf).2.rreg1 s.cfg.aCalVcoc).2.rreg1 s.cfg.aCalVcob).2 with
    tstate := .idle, log := s.log ++ calWarnings s.cfg _ _ _ }, _, _, _, h.of_io rfl, rfl, ?_⟩
  cases c <;> rfl

/-- BOOT after INIT, with a legal packet length (R285). -/
theorem bootRest_ok {s : State} (h : pktMin ≤ s.cfg.pktlenCfg ∧ s.cfg.pktlenCfg ≤ pktMax) :
    s.bootRest = { s with
        io := s.bootRest.io, channel := some s.cfg.channelCfg, pktlen := some s.cfg.pktlenCfg.toNat, spc := .s1 } ∧
      Sent s s.bootRest [writeRecord s.cfg.aChannel [s.cfg.channelCfg], writeRecord s.cfg.aPktlen [lengthByte s.cfg.pktlenCfg]] := by
  obtain ⟨h1, h2, h3⟩ := setLength_ok h (s.setChannel s.cfg.channelCfg)
  have h4 := (setChannel_spec s.cfg.channelCfg s).2.trans h3 rfl
  unfold State.bootRest
  dsimp only
  rw [h1]
  exact ⟨by dsimp only; rw [h2]; rfl, h4.of_io rfl⟩

/-- BOOT after INIT, with an illegal packet length (R285). -/
theorem bootRest_range {s : State} (h : s.cfg.pktlenCfg < pktMin ∨ pktMax < s.cfg.pktlenCfg) :
    s.bootRest = { s with
        io := s.bootRest.io, channel := some s.cfg.channelCfg, bootFailed := true, ret := .err (.packetLengthRange s.cfg.pktlenCfg) } ∧
      Sent s s.bootRest [writeRecord s.cfg.aChannel [s.cfg.channelCfg]] := by
  have h1 := setLength_range h (s.setChannel s.cfg.channelCfg)
  unfold State.bootRest
  dsimp only
  rw [h1]
  exact ⟨rfl, (setChannel_spec s.cfg.channelCfg s).2.of_io rfl⟩

/-- A look at the settle time: held, or part 4 (R163). -/
theorem pollSettle_spec (c : Caller) (s : State) :
    ∃ u : State, u = { s with io := u.io } ∧ Sent s u [] ∧
      (s.io.settled.1 = false → s.pollSettle c = { u with hold := some (.settle c) }) ∧
      (s.io.settled.1 = true → s.pollSettle c = ({ u with hold := none }).initFinish c) := by
  refine ⟨s.settled.2, rfl, sent_settled s, fun h => ?_, fun h => ?_⟩
  · simp [State.pollSettle, h]
  · simp [State.pollSettle, h]

/-! ### TX and RX -/

theorem codes_distinct {c : Config} (h : c.codesLegal = true) :
    c.cPll ≠ c.cRx ∧ c.cPll ≠ c.cTx ∧ c.cPll ≠ c.cWrst ∧ c.cPll ≠ c.cRrst ∧ c.cRx ≠ c.cTx ∧ c.cRx ≠ c.cWrst ∧ c.cRx ≠ c.cRrst ∧
      c.cTx ≠ c.cWrst ∧ c.cTx ≠ c.cRrst ∧ c.cWrst ≠ c.cRrst := by
  simp [Config.codesLegal, Config.codes] at h
  obtain ⟨⟨⟨h1, h2, h3, h4⟩, ⟨h5, h6, h7⟩, ⟨h8, h9⟩, h10⟩, -⟩ := h
  exact ⟨h1, h2, h3, h4, h5, h6, h7, h8, h9, h10⟩

theorem codes_bit3 {c : Config} (h : c.codesLegal = true) :
    c.cPll.getLsbD 3 = true ∧ c.cRx.getLsbD 3 = true ∧ c.cTx.getLsbD 3 = true ∧ c.cWrst.getLsbD 3 = true ∧ c.cRrst.getLsbD 3 = true := by
  simp only [Config.codesLegal, Config.codes, List.all_cons, List.all_nil, Bool.and_eq_true, Bool.and_true] at h
  exact h.2

theorem chipStrobe_pll (c : Config) (x : Chip) :
    x.strobe c (strobeByte c.cPll) = { x with mode := .pll, op := .idle, sending := none } := by
  simp [Chip.strobe]

theorem chipStrobe_rx {c : Config} (h : c.codesLegal = true) (x : Chip) :
    x.strobe c (strobeByte c.cRx) = { x with mode := .rx, op := .strobed, sending := none, status := none } := by
  have := codes_distinct h
  simp [Chip.strobe, this.1.symm]

theorem chipStrobe_tx {c : Config} (h : c.codesLegal = true) (x : Chip) :
    x.strobe c (strobeByte c.cTx) = { x with mode := .tx, op := .strobed, sending := none, status := none } := by
  obtain ⟨h1, h2, h3, h4, h5, -⟩ := codes_distinct h
  simp [Chip.strobe, h2.symm, h5.symm]

theorem chipStrobe_wrst {c : Config} (h : c.codesLegal = true) (x : Chip) :
    x.strobe c (strobeByte c.cWrst) = { x with wptr := some 0 } := by
  obtain ⟨h1, h2, h3, h4, h5, h6, h7, h8, -⟩ := codes_distinct h
  simp [Chip.strobe, h3.symm, h6.symm, h8.symm]

theorem chipStrobe_rrst {c : Config} (h : c.codesLegal = true) (x : Chip) :
    x.strobe c (strobeByte c.cRrst) = { x with rptr := some 0 } := by
  obtain ⟨h1, h2, h3, h4, h5, h6, h7, h8, h9, h10⟩ := codes_distinct h
  simp [Chip.strobe, h4.symm, h7.symm, h9.symm, h10.symm]

/-- TX up to its wait (R181, R182). -/
theorem txSend_spec (c : Caller) (len : Nat) (l : List Byte) (s : State) :
    ∃ u : State, s.txSend c len l = u.pollTx c ∧ u = { s with io := u.io, tstate := .transmitting } ∧
      Sent s u [strobeRecord s.cfg.cWrst, writeRecord s.cfg.aFifo (padTo len l), strobeRecord s.cfg.cTx] ∧
      u.io.env.busyIn = s.io.env.busyIn ∧ (s.cfg.codesLegal = true → u.io.chip.mode = .tx) := by
  have h1 := sent_strobe s.cfg.cWrst s
  have h2 := sent_wreg s.cfg.aFifo (padTo len l) (s.strobe s.cfg.cWrst)
  have h3 := sent_strobe s.cfg.cTx { (s.strobe s.cfg.cWrst).wreg s.cfg.aFifo (padTo len l) with tstate := .transmitting }
  refine ⟨_, rfl, rfl, (h1.trans h2 rfl).trans (h3.of_io_left rfl rfl) rfl, by simp, fun h => ?_⟩
  rw [strobe_io]
  refine (base_ext.1 (frame_base _ _ _ _)).2.2.2.2.trans ?_
  show (Chip.afterFrame s.cfg [strobeByte s.cfg.cTx] _ _).mode = _
  rw [afterFrame_strobe _ (codes_bit3 h).2.2.1, chipStrobe_tx h]

/-- One sample of TX's wait (R182). -/
theorem pollTx_spec (c : Caller) (s : State) :
    ∃ u : State, u = { s with io := u.io } ∧ u.io = (s.io.sampleBusy s.cfg).2 ∧
      ((s.io.sampleBusy s.cfg).1 = true → s.pollTx c = { u with hold := some (.sending c) }) ∧
      ((s.io.sampleBusy s.cfg).1 = false → s.pollTx c = ({ u with hold := none, tstate := .idle }).txDone c) := by
  refine ⟨s.sampleBusy.2, rfl, rfl, fun h => ?_, fun h => ?_⟩
  · simp [State.pollTx, h]
  · simp [State.pollTx, h]

/-- What the strobe RX leaves the chip in, whatever its code is. -/
theorem strobeRx_chip (c : Config) (io : Io) {k : Chip} (hk : k = (io.frame c [strobeByte c.cRx] 0).2.chip) :
    k.unknown = true ∨ k.mode = .pll ∨ k.mode = .rx ∧ k.op = .strobed := by
  obtain ⟨b, -, h⟩ := frame_chip c [strobeByte c.cRx] 0 io
  rw [frame_bytes_zero] at h
  rw [hk, h]
  simp only [Chip.afterFrame, and_self, if_true]
  split_ifs
  · unfold Chip.strobe
    simp only [codeOf_strobeByte]
    split_ifs
    · exact .inl rfl
    · exact .inr (.inl rfl)
    · exact .inr (.inr ⟨rfl, rfl⟩)
  · exact .inl rfl

/-- RX up to its wait (R184). -/
theorem rxStart_spec (c : Caller) (len : Nat) (s : State) :
    ∃ u : State, s.rxStart c len = u.pollRx len c ∧ u = { s with io := u.io, tstate := .receiving } ∧
      Sent s u [strobeRecord s.cfg.cRx] ∧ u.io.env.busyIn = s.io.env.busyIn ∧
      (u.io.chip.unknown = true ∨ u.io.chip.mode = .pll ∨ u.io.chip.mode = .rx ∧ u.io.chip.op = .strobed) :=
  ⟨_, rfl, rfl, (sent_strobe s.cfg.cRx { s with tstate := .receiving }).of_io_left rfl rfl, by simp, strobeRx_chip s.cfg s.io rfl⟩

/-- One sample of RX's wait (R184). -/
theorem pollRx_spec (len : Nat) (c : Caller) (s : State) :
    ∃ u : State, u = { s with io := u.io } ∧ u.io = (s.io.sampleBusy s.cfg).2 ∧
      ((s.io.sampleBusy s.cfg).1 = true → s.pollRx len c = { u with hold := some (.listening len c) }) ∧
      ((s.io.sampleBusy s.cfg).1 = false → s.pollRx len c = ({ u with hold := none, tstate := .idle }).rxFinish c len) := by
  refine ⟨s.sampleBusy.2, rfl, rfl, fun h => ?_, fun h => ?_⟩
  · simp [State.pollRx, h]
  · simp [State.pollRx, h]

/-- RX after its wait (R185): the status byte, then the error or the drained bytes, handed to the caller. -/
theorem rxFinish_spec (c : Caller) (len : Nat) (s : State) :
    ∃ (u : State) (m : Byte) (q : List Byte), q.length = len ∧ u = { s with io := u.io } ∧
      (rxError s.cfg m = none → s.rxFinish c len = u.rxDone c q ∧
        Sent s u [readRecord s.cfg.aMode [m], strobeRecord s.cfg.cRrst, readRecord s.cfg.aFifo q]) ∧
      (∀ e, rxError s.cfg m = some e → s.rxFinish c len = u.raiseTo c e (fun s => s.takeError e none none) ∧
        Sent s u [readRecord s.cfg.aMode [m]]) := by
  have h1 := sent_rreg1 s.cfg.aMode s
  cases he : rxError s.cfg (s.rreg1 s.cfg.aMode).1 with
  | none =>
    have h2 := sent_strobe s.cfg.cRrst (s.rreg1 s.cfg.aMode).2
    have h3 := sent_rreg s.cfg.aFifo len ((s.rreg1 s.cfg.aMode).2.strobe s.cfg.cRrst)
    refine ⟨_, (s.rreg1 s.cfg.aMode).1, _, rreg_length s.cfg.aFifo len ((s.rreg1 s.cfg.aMode).2.strobe s.cfg.cRrst), rfl,
      fun _ => ⟨?_, (h1.trans h2 rfl).trans h3 rfl⟩, fun e he' => ?_⟩
    · unfold State.rxFinish; dsimp only; rw [he]
    · rw [he] at he'; cases he'
  | some e =>
    refine ⟨(s.rreg1 s.cfg.aMode).2, (s.rreg1 s.cfg.aMode).1, List.replicate len 0, by simp, rfl, fun h => ?_, fun e' he' => ?_⟩
    · rw [he] at h; cases h
    · rw [he] at he'; cases he'
      refine ⟨?_, h1⟩
      unfold State.rxFinish; dsimp only; rw [he]

end Sys2Proof.Machine
end

