-- ==== Sys2Proof/Laws/Moves.lean ====
section
/-! SUPPORT. Everything a step can do to the interface, said once: legal frames, samples of BUSY, looks at the settle time, draws, and the doubt a
failed SETID leaves. What holds of each holds of every step. -/

namespace Sys2Proof.Machine

/-- What is sent and how much is received has one of the three formats (R101). -/
def legalShape (out : List Byte) (n : Nat) : Prop :=
  (∃ a l, l ≠ [] ∧ out = writeByte a :: l ∧ n = 0) ∨ (∃ a, out = [readByte a] ∧ n ≠ 0) ∨ (∃ k, out = [strobeByte k] ∧ n = 0)

/-- What the block does to the interface; its frames are legal where the side condition `p` holds. -/
inductive IoMoves (c : Config) (p : Prop) : Io → Io → Prop
  | refl (a : Io) : IoMoves c p a a
  | frame {a b : Io} (out : List Byte) (n : Nat) (h : p → legalShape out n) (m : IoMoves c p a b) : IoMoves c p a (b.frame c out n).2
  | busy {a b : Io} (m : IoMoves c p a b) : IoMoves c p a (b.sampleBusy c).2
  | settled {a b : Io} (m : IoMoves c p a b) : IoMoves c p a b.settled.2
  | draw {a b : Io} (env : Env) (h : env.premises = b.env.premises) (m : IoMoves c p a b) : IoMoves c p a { b with env := env }
  | doubt {a b : Io} (m : IoMoves c p a b) : IoMoves c p a { b with chip := { b.chip with ident := none } }

theorem IoMoves.trans {c : Config} {p : Prop} {a b d : Io} (h : IoMoves c p a b) (h' : IoMoves c p b d) : IoMoves c p a d := by
  induction h' with
  | refl => exact h
  | frame out n hl _ ih => exact .frame out n hl ih
  | busy _ ih => exact .busy ih
  | settled _ ih => exact .settled ih
  | draw env he _ ih => exact .draw env he ih
  | doubt _ ih => exact .doubt ih

/-! ### What every move keeps -/

theorem IoMoves.premises {c : Config} {p : Prop} {a b : Io} (h : IoMoves c p a b) : b.env.premises = a.env.premises := by
  induction h with
  | refl => rfl
  | frame out n _ _ ih => rw [frame_premises]; exact ih
  | busy _ ih => rw [sampleBusy_premises]; exact ih
  | settled _ ih => rw [settled_premises]; exact ih
  | draw env he _ ih => exact he.trans ih
  | doubt _ ih => exact ih

/-- Void premises stay void (U3). -/
theorem IoMoves.void {c : Config} {p : Prop} {a b : Io} (h : IoMoves c p a b) (ha : a.chip.unknown = true) : b.chip.unknown = true := by
  induction h with
  | refl => exact ha
  | frame out n _ _ ih =>
    obtain ⟨k, hk, h⟩ := frame_chip c out n _
    rw [h]
    exact afterFrame_void (hk.unknown.trans ih) c out _
  | @busy d _ ih =>
    obtain ⟨b, env, k, level, hb, h, -, -, hk⟩ := sampleBusy_cases c d
    rw [h]
    rcases hk with rfl | ⟨-, ⟨q, rfl⟩, -⟩ <;> exact hb.unknown.trans ih
  | @settled d _ ih =>
    obtain ⟨env, cal, x, y, z, h, -⟩ := settled_cases d
    rw [h]; exact ih
  | draw env he _ ih => exact ih
  | doubt _ ih => exact ih

theorem IoMoves.history {c : Config} {p : Prop} {a b : Io} (h : IoMoves c p a b) : a.history <+: b.history := by
  induction h with
  | refl => exact List.prefix_refl _
  | frame out n _ _ ih => rw [frame_history]; exact ih.trans (List.prefix_append _ _)
  | busy _ ih => rw [sampleBusy_history]; exact ih
  | settled _ ih => rw [settled_history]; exact ih
  | draw env he _ ih => exact ih
  | doubt _ ih => exact ih

theorem legalShape_frame {out q : List Byte} (h : legalShape out q.length) : legalFrame ⟨out, q⟩ := by
  rcases h with ⟨a, l, hl, ho, hn⟩ | ⟨a, ho, hn⟩ | ⟨k, ho, hn⟩
  · exact .inl ⟨a, l, hl, ho, List.length_eq_zero_iff.1 hn⟩
  · exact .inr (.inl ⟨a, ho, fun h => hn (by simp [show q = [] from h])⟩)
  · exact .inr (.inr ⟨k, ho, List.length_eq_zero_iff.1 hn⟩)

theorem IoMoves.legal {c : Config} {p : Prop} {a b : Io} (h : IoMoves c p a b) (hp : p) (ha : ∀ r ∈ a.history, legalFrame r) :
    ∀ r ∈ b.history, legalFrame r := by
  induction h with
  | refl => exact ha
  | frame out n hl _ ih =>
    rw [frame_history]
    intro r hr
    rcases List.mem_append.1 hr with hr | hr
    · exact ih r hr
    · rw [List.mem_singleton.1 hr]
      exact legalShape_frame (by rw [frame_length]; exact hl hp)
  | busy _ ih => rw [sampleBusy_history]; exact ih
  | settled _ ih => rw [settled_history]; exact ih
  | draw env he _ ih => exact ih
  | doubt _ ih => exact ih

/-- What the invariant says of the interface. -/
structure IoOk (a : Io) : Prop where
  chip : ChipOk a.chip
  csn : a.csn = true
  sck : a.sck = false

theorem IoMoves.ok {c : Config} {p : Prop} {a b : Io} (h : IoMoves c p a b) (ha : IoOk a) : IoOk b := by
  induction h with
  | refl => exact ha
  | frame out n _ _ ih =>
    obtain ⟨b, hb, h⟩ := frame_chip c out n _
    refine ⟨by rw [h]; exact afterFrame_ok (hb.ok ih.chip) c out _, frame_csn _ _ _ _, frame_sck _ _ _ _ ih.sck⟩
  | @busy d _ ih =>
    obtain ⟨b, env, k, level, hb, h, -, -, hk⟩ := sampleBusy_cases c d
    rw [h]
    refine ⟨?_, ih.csn, ih.sck⟩
    rcases hk with rfl | ⟨-, ⟨q, rfl⟩, -⟩
    · exact hb.ok ih.chip
    · exact receive_ok (hb.ok ih.chip) c q
  | @settled d _ ih =>
    obtain ⟨env, cal, x, y, z, h, -⟩ := settled_cases d
    rw [h]
    exact ⟨ih.chip.same rfl rfl, ih.csn, ih.sck⟩
  | draw env he _ ih => exact ⟨ih.chip, ih.csn, ih.sck⟩
  | doubt _ ih => exact ⟨ih.chip.same rfl rfl, ih.csn, ih.sck⟩

theorem IoMoves.timed {c : Config} {p : Prop} {a b : Io} (h : IoMoves c p a b) (ha : Timed a ∧ a.csn = true ∧ a.sck = false) :
    Timed b ∧ b.csn = true ∧ b.sck = false := by
  induction h with
  | refl => exact ha
  | frame out n _ _ ih => exact ⟨frame_timed c out n ih.1 ih.2.2, frame_csn _ _ _ _, frame_sck _ _ _ _ ih.2.2⟩
  | @busy d _ ih =>
    obtain ⟨b, env, k, level, -, h, -⟩ := sampleBusy_cases c d
    rw [h]
    exact ⟨⟨by simp [wellTimed, eventAllowed, ih.1.timed, ih.1.csn, ih.2.1], ih.1.csn, ih.1.sck⟩, ih.2⟩
  | @settled d _ ih =>
    obtain ⟨env, cal, x, y, z, h, -⟩ := settled_cases d
    rw [h]
    exact ⟨⟨ih.1.timed, ih.1.csn, ih.1.sck⟩, ih.2⟩
  | draw env he _ ih => exact ⟨⟨ih.1.timed, ih.1.csn, ih.1.sck⟩, ih.2⟩
  | doubt _ ih => exact ⟨⟨ih.1.timed, ih.1.csn, ih.1.sck⟩, ih.2⟩

/-! ### The shared operations move the interface only so -/

/-- From `s` to `t` the interface moves as the block moves it, with legal frames where `p` holds; the configuration is as it was. -/
def Moves (p : Prop) (s t : State) : Prop := t.cfg = s.cfg ∧ IoMoves s.cfg p s.io t.io

variable {p : Prop}

theorem Moves.refl (s : State) : Moves p s s := ⟨rfl, .refl _⟩

theorem Moves.trans {s t u : State} (h : Moves p s t) (h' : Moves p t u) : Moves p s u := by
  refine ⟨h'.1.trans h.1, h.2.trans ?_⟩
  rw [← h.1]; exact h'.2

/-- A state whose interface and configuration are as they were. -/
theorem Moves.same {s t u : State} (h : Moves p s t) (hc : u.cfg = t.cfg) (hi : u.io = t.io) : Moves p s u :=
  ⟨hc.trans h.1, by rw [hi]; exact h.2⟩

theorem wreg_moves (a : Addr) {l : List Byte} (s : State) (hl : p → l ≠ []) : Moves p s (s.wreg a l) :=
  ⟨rfl, .frame _ _ (fun h => .inl ⟨a, l, hl h, rfl, rfl⟩) (.refl _)⟩

theorem rreg_moves (a : Addr) {n : Nat} (s : State) (hn : p → n ≠ 0) : Moves p s (s.rreg a n).2 :=
  ⟨rfl, .frame _ _ (fun h => .inr (.inl ⟨a, rfl, hn h⟩)) (.refl _)⟩

theorem rreg1_moves (a : Addr) (s : State) : Moves p s (s.rreg1 a).2 := rreg_moves a s (fun _ => Nat.one_ne_zero)

theorem strobe_moves (k : Nibble) (s : State) : Moves p s (s.strobe k) :=
  ⟨rfl, .frame _ _ (fun _ => .inr (.inr ⟨k, rfl, rfl⟩)) (.refl _)⟩

theorem wregAll_moves (l : List (Addr × List Byte)) : ∀ s : State, (p → ∀ x ∈ l, x.2 ≠ []) → Moves p s (s.wregAll l) := by
  induction l with
  | nil => intro s _; exact Moves.refl s
  | cons x r ih =>
    intro s h
    exact (wreg_moves x.1 s (fun hs => h hs x (by simp))).trans
      (ih (s.wreg x.1 x.2) (fun hs y hy => h hs y (List.mem_cons_of_mem _ hy)))

theorem sampleBusy_moves (s : State) : Moves p s s.sampleBusy.2 := ⟨rfl, .busy (.refl _)⟩
theorem settled_moves (s : State) : Moves p s s.settled.2 := ⟨rfl, .settled (.refl _)⟩
theorem doubtIdent_moves (s : State) : Moves p s s.doubtIdent := ⟨rfl, .doubt (.refl _)⟩
theorem now_moves (s : State) : Moves p s s.now.2 := ⟨rfl, .draw _ (by simp) (.refl _)⟩
theorem random_moves (s : State) : Moves p s s.random.2 := ⟨rfl, .draw _ (by simp) (.refl _)⟩

theorem takeError_moves (e : Err) (cid iid : Option Word) (s : State) : Moves p s (s.takeError e cid iid) := (now_moves s).same rfl rfl

theorem raiseTo_moves (c : Caller) (e : Err) (f : State → State) (s : State) (hf : Moves p s (f s)) : Moves p s (s.raiseTo c e f) := by
  cases c
  · exact (Moves.refl s).same rfl rfl
  · exact hf

theorem setChannel_moves (ch : Byte) (s : State) : Moves p s (s.setChannel ch) := (wreg_moves _ s (fun _ => by simp)).same rfl rfl

theorem setId_moves (id : Word) (s : State) : Moves p s (s.setId id).2 := by
  have h : Moves p s _ := (wreg_moves s.cfg.aId s (l := toBe32 id) (fun _ => by simp [toBe32])).trans
    (rreg_moves s.cfg.aId (n := 4) (s.wreg s.cfg.aId (toBe32 id)) (fun _ => by simp))
  unfold State.setId
  dsimp only
  split_ifs
  · exact h.same rfl rfl
  · exact (h.trans (doubtIdent_moves _)).same rfl rfl

theorem setLength_moves (n : Int) (s : State) : Moves p s (s.setLength n).2 := by
  unfold State.setLength
  split_ifs
  · exact Moves.refl s
  · exact (wreg_moves _ s (fun _ => by simp)).same rfl rfl

theorem bootRest_moves (s : State) : Moves p s s.bootRest := by
  have h : Moves p s _ := (setChannel_moves s.cfg.channelCfg s).trans (setLength_moves s.cfg.pktlenCfg _)
  unfold State.bootRest
  dsimp only
  split <;> exact h.same rfl rfl

theorem initFinish_moves (c : Caller) (s : State) : Moves p s (s.initFinish c) := by
  have h : Moves p s _ := ((rreg1_moves s.cfg.aCalIf s).trans (rreg1_moves s.cfg.aCalVcoc _)).trans (rreg1_moves s.cfg.aCalVcob _)
  unfold State.initFinish
  cases c
  · exact h.same rfl rfl
  · refine Moves.trans ?_ (bootRest_moves _)
    exact h.same rfl rfl

theorem pollSettle_moves (c : Caller) (s : State) : Moves p s (s.pollSettle c) := by
  have h : Moves p s _ := settled_moves s
  unfold State.pollSettle
  dsimp only
  split_ifs
  · exact (h.same (u := { s.settled.2 with hold := none }) rfl rfl).trans (initFinish_moves c _)
  · exact h.same rfl rfl

theorem initStart_moves (c : Caller) (s : State) (hs : p → seqsLegal s.cfg) : Moves p s (s.initStart c) := by
  have h0 : Moves p s { s with tstate := .calibrating } := (Moves.refl s).same rfl rfl
  have h1 : Moves p s _ := h0.trans (wregAll_moves s.cfg.initSeq _ (fun hp x hx => (hs hp).1 x hx))
  have h2 : Moves p s _ := h1.trans (wregAll_moves s.cfg.calClearSeq _ (fun hp x hx => (hs hp).2 x hx))
  exact ((h2.trans (strobe_moves s.cfg.cPll _)).trans (wreg_moves s.cfg.aCalctl _ (fun _ => by simp))).trans (pollSettle_moves c _)

theorem txDone_moves (c : Caller) (s : State) : Moves p s (s.txDone c) := by cases c <;> exact (Moves.refl s).same rfl rfl

theorem pollTx_moves (c : Caller) (s : State) : Moves p s (s.pollTx c) := by
  have h : Moves p s _ := sampleBusy_moves s
  unfold State.pollTx
  dsimp only
  split_ifs
  · exact h.same rfl rfl
  · exact (h.same (u := { s.sampleBusy.2 with hold := none, tstate := .idle }) rfl rfl).trans (txDone_moves c _)

theorem txSend_moves (c : Caller) {len : Nat} (l : List Byte) (s : State) (hl : p → len ≠ 0) : Moves p s (s.txSend c len l) := by
  have hp : p → padTo len l ≠ [] := fun hp h => by
    have hl := hl hp
    have := congrArg List.length h
    simp only [padTo, List.length_append, List.length_replicate, List.length_nil] at this
    omega
  have h : Moves p s _ := (strobe_moves s.cfg.cWrst s).trans (wreg_moves s.cfg.aFifo _ hp)
  exact ((h.same (u := { (s.strobe s.cfg.cWrst).wreg s.cfg.aFifo (padTo len l) with tstate := .transmitting }) rfl rfl).trans
    (strobe_moves s.cfg.cTx _)).trans (pollTx_moves c _)

theorem rxDone_moves (c : Caller) (q : List Byte) (s : State) : Moves p s (s.rxDone c q) := by cases c <;> exact (Moves.refl s).same rfl rfl

theorem rxFinish_moves (c : Caller) {len : Nat} (s : State) (hl : p → len ≠ 0) : Moves p s (s.rxFinish c len) := by
  have h : Moves p s _ := rreg1_moves s.cfg.aMode s
  unfold State.rxFinish
  dsimp only
  split
  · exact h.trans (raiseTo_moves c _ _ _ (takeError_moves _ _ _ _))
  · exact ((h.trans (strobe_moves s.cfg.cRrst _)).trans (rreg_moves s.cfg.aFifo _ hl)).trans (rxDone_moves c _ _)

theorem pollRx_moves {len : Nat} (c : Caller) (s : State) (hl : p → len ≠ 0) : Moves p s (s.pollRx len c) := by
  have h : Moves p s _ := sampleBusy_moves s
  unfold State.pollRx
  dsimp only
  split_ifs
  · exact h.same rfl rfl
  · exact (h.same (u := { s.sampleBusy.2 with hold := none, tstate := .idle }) rfl rfl).trans (rxFinish_moves c _ hl)

theorem rxStart_moves (c : Caller) {len : Nat} (s : State) (hl : p → len ≠ 0) : Moves p s (s.rxStart c len) := by
  have h0 : Moves p s { s with tstate := .receiving } := (Moves.refl s).same rfl rfl
  exact (h0.trans (strobe_moves s.cfg.cRx _)).trans (pollRx_moves c _ hl)

theorem resume_moves (h : Hold) (s : State) (hl : ∀ len c, h = .listening len c → p → len ≠ 0) : Moves p s (s.resume h) := by
  cases h with
  | settle c => exact pollSettle_moves c s
  | sending c => exact pollTx_moves c s
  | listening len c => exact pollRx_moves c s (hl len c rfl)

/-! ### Every instruction, and every step -/

/-- The driver operations: if they go on, they move the interface only so. -/
theorem initOp_moves {c : Caller} {s t : State} (hs : p → seqsLegal s.cfg) (h : initOp c s = .next t) : Moves p s t := by
  unfold initOp at h
  split_ifs at h
  cases h; exact initStart_moves c s hs

theorem txOp_moves {c : Caller} {l : List Byte} {s t : State} (hl : p → s.pktlen ≠ some 0) (h : txOp c l s = .next t) : Moves p s t := by
  unfold txOp at h
  split_ifs at h
  split at h
  · cases h
  · rename_i len hlen
    cases h
    split_ifs
    · exact raiseTo_moves c _ _ _ (takeError_moves _ _ _ _)
    · exact txSend_moves c l s (fun hp h0 => hl hp (by rw [hlen, h0]))

theorem rxOp_moves {c : Caller} {s t : State} (hl : p → s.pktlen ≠ some 0) (h : rxOp c s = .next t) : Moves p s t := by
  unfold rxOp at h
  split_ifs at h
  split at h
  · cases h
  · rename_i len hlen
    cases h
    exact rxStart_moves c s (fun hp h0 => hl hp (by rw [hlen, h0]))

/-- A step that goes on was enabled (R40). -/
theorem atStep_next {q : Spc} {s t : State} {r : Result} (h : atStep q s r = .next t) : s.spc = q ∧ s.hold = none ∧ r = .next t := by
  unfold atStep at h
  split_ifs at h with hc
  exact ⟨hc.1, hc.2, h⟩

theorem setIdStep_moves {id : Word} {q : Spc} {cid iid : Option Word} {s t : State} (h : setIdStep id q cid iid s = .next t) :
    Moves p s t := by
  unfold setIdStep at h
  split_ifs at h
  cases h
  have hm : Moves p s _ := setId_moves id s
  split
  · exact hm.same rfl rfl
  · exact hm.trans (takeError_moves _ _ _ _)

/-- Everything any instruction can do to the interface. -/
theorem exec_moves {i : Instr} {s t : State} (hs : p → seqsLegal s.cfg) (hl : p → s.pktlen ≠ some 0) (h : exec i s = .next t) :
    Moves p s t := by
  have hd : ∀ u : State, u.cfg = s.cfg → u.io = s.io → Moves p s u := fun u hc hi => (Moves.refl s).same hc hi
  have hw : ∀ a l, directWrite a l s = .next t → Moves p s t := by
    intro a l h
    unfold directWrite at h
    split_ifs at h with hne
    cases h
    exact (wreg_moves a s (fun _ he => hne (by simp [he]))).same rfl rfl
  have hr : ∀ a n, directRead a n s = .next t → Moves p s t := by
    intro a n h
    unfold directRead at h
    split_ifs at h with hn
    cases h
    exact (rreg_moves a s (fun _ => hn)).same rfl rfl
  have hk : ∀ k, directStrobe k s = .next t → Moves p s t := by
    intro k h
    cases h
    exact (strobe_moves k s).same rfl rfl
  have hi : ∀ u, Moves p s u → whenIdle s u = .next t → Moves p s t := by
    intro u hu h
    unfold whenIdle at h
    split_ifs at h
    cases h; exact hu
  have ha : ∀ x : Option Err × State, Moves p s x.2 → Moves p s (answerDirect x) := by
    intro x hx
    unfold answerDirect
    split <;> exact hx.same rfl rfl
  cases i with
  | wreg a l => exact hw a l h
  | rreg a n => exact hr a n h
  | strobe k => exact hk k h
  | strobePll => exact hk _ h
  | strobeRx => exact hk _ h
  | strobeTx => exact hk _ h
  | strobeWrst => exact hk _ h
  | strobeRrst => exact hk _ h
  | init => exact initOp_moves hs h
  | setch ch => exact hi _ ((setChannel_moves ch s).same (u := (s.setChannel ch).answer .ok) rfl rfl) h
  | setid id => exact hi _ (ha _ (setId_moves id s)) h
  | setlen n => exact hi _ (ha _ (setLength_moves n s)) h
  | tx l => exact txOp_moves hl h
  | rx => exact rxOp_moves hl h
  | opWreg a l => exact hw a l h
  | opRreg a n => exact hr a n h
  | opStrobe k => exact hk k h
  | opReserved op => cases h
  | boot =>
    obtain ⟨-, -, h⟩ := atStep_next h
    split_ifs at h
    exact initOp_moves hs h
  | s1 => exact setIdStep_moves (atStep_next h).2.2
  | s2 => exact rxOp_moves hl (atStep_next h).2.2
  | s3 =>
    obtain ⟨-, -, h⟩ := atStep_next h
    split_ifs at h
    · unfold acceptHello at h
      dsimp only at h
      split_ifs at h
      cases h
      have h1 : Moves p s (lookupOrCreate (decodeHello s.cfg.bitmapOrder s.rxpkt) s).2.2 := by
        unfold lookupOrCreate
        split
        · exact Moves.refl s
        · exact now_moves s
      refine h1.trans ?_
      unfold updateSession
      dsimp only
      split_ifs
      · exact ((now_moves _).same rfl rfl)
      · exact (Moves.refl _).same rfl rfl
    · cases h; exact takeError_moves _ _ _ _
  | s4 =>
    obtain ⟨-, -, h⟩ := atStep_next h
    split at h
    · cases h
    · cases h; exact hd _ rfl rfl
  | s5 =>
    obtain ⟨-, -, h⟩ := atStep_next h
    cases h; exact hd _ rfl rfl
  | s6 => exact setIdStep_moves (atStep_next h).2.2
  | s7 => exact txOp_moves hl (atStep_next h).2.2
  | s8 =>
    obtain ⟨-, -, h⟩ := atStep_next h
    cases h; exact hd _ rfl rfl
  | publish b id =>
    replace h : execPublish b id s = .next t := h
    unfold execPublish at h
    split_ifs at h
    cases h; exact hd _ rfl rfl
  | idscreen x => cases h; exact hd _ rfl rfl
  | idselect =>
    replace h : execIdselect s = .next t := h
    unfold execIdselect at h
    cases h
    split_ifs <;> exact (random_moves s).same rfl rfl
  | pktHello q =>
    replace h : execPktHello q s = .next t := h
    unfold execPktHello at h
    cases h
    split_ifs <;> exact hd _ rfl rfl
  | pktDatareply q =>
    replace h : execPktDatareply q s = .next t := h
    unfold execPktDatareply at h
    split_ifs at h
    exact txOp_moves hl h

/-- What a step is: a blocked operation goes on, or a decoded instruction runs, in the state with its turn taken. -/
theorem step_cases {s t : State} (h : step s = .next t) :
    ∃ rest, (∃ k, s.hold = some k ∧ t = ({ s with agenda := rest }).resume k) ∨
      (∃ r i, decode s.cfg r = .ok i ∧ exec i { s with agenda := rest } = .next t) := by
  have hrun : ∀ r rest, runWord r { s with agenda := rest } = .next t →
      ∃ i, decode s.cfg r = .ok i ∧ exec i { s with agenda := rest } = .next t := by
    intro r rest h
    unfold runWord at h
    split at h
    · exact ⟨_, by assumption, h⟩
    · cases h
  have hloop : ∀ rest, (match (s.loopMove, { s with agenda := rest }) with
      | (.resume h, s') => Host.Outcome.next (s'.resume h)
      | (.run r, s') => runWord r s') = .next t →
      (∃ k, s.hold = some k ∧ t = ({ s with agenda := rest }).resume k) ∨
        (∃ r i, decode s.cfg r = .ok i ∧ exec i { s with agenda := rest } = .next t) := by
    intro rest h
    rcases hm : s.loopMove with k | r
    · rw [hm] at h
      cases h
      refine .inl ⟨k, ?_, rfl⟩
      unfold State.loopMove at hm
      split at hm
      · cases hm; assumption
      · cases hm
    · rw [hm] at h
      obtain ⟨i, hi⟩ := hrun r rest h
      exact .inr ⟨r, i, hi⟩
  unfold step State.nextMove at h
  cases ha : s.agenda with
  | nil =>
    rw [ha] at h
    have hs : { s with agenda := [] } = s := by rw [← ha]
    refine ⟨[], ?_⟩
    have := hloop []
    rw [hs] at this ⊢
    exact this h
  | cons x rest =>
    rw [ha] at h
    cases x with
    | loop => exact ⟨rest, hloop rest h⟩
    | request r =>
      obtain ⟨i, hi⟩ := hrun r rest h
      exact ⟨rest, .inr ⟨r, i, hi⟩⟩

/-- Everything a step can do to the interface. -/
theorem step_moves {s t : State} (hs : p → seqsLegal s.cfg) (hl : p → s.pktlen ≠ some 0)
    (hh : p → ∀ c, s.hold ≠ some (.listening 0 c)) (h : step s = .next t) : Moves p s t := by
  obtain ⟨rest, ⟨k, hk, rfl⟩ | ⟨r, i, -, he⟩⟩ := step_cases h
  · refine (((Moves.refl s).same (u := { s with agenda := rest }) rfl rfl)).trans (resume_moves k _ ?_)
    rintro len c rfl hp rfl
    exact hh hp c hk
  · exact (((Moves.refl s).same (u := { s with agenda := rest }) rfl rfl)).trans (exec_moves (s := { s with agenda := rest }) hs hl he)

end Sys2Proof.Machine
end

