-- ==== Sys2Proof/Laws/Operands.lean ====
section
/-! SUPPORT. The operand forms: padding, the packet length byte, the least missing flag, chunk selection, numbers in
packets. -/

namespace Sys2Proof.Machine

/-- A payload that fits is padded to exactly the packet length (R181). -/
theorem padTo_length {len : Nat} {l : List Byte} (h : l.length ≤ len) : (padTo len l).length = len := by
  simp only [padTo, List.length_append, List.length_replicate]
  omega

/-- The packet-length register holds the length minus one (R102, R167). -/
theorem lengthByte_toNat {n : Nat} (h1 : 1 ≤ n) (h2 : n ≤ 64) : (lengthByte n).toNat = n - 1 := by
  unfold lengthByte
  rw [show (n : Int) - 1 = ((n - 1 : Nat) : Int) by omega, BitVec.ofInt_natCast, BitVec.toNat_ofNat]
  omega

/-- The least set flag is the one found (R208). -/
theorem firstMissing_some {l : List Bool} {k : Nat} (hk : k < missingFlags) (h : l[k]? = some true)
    (hj : ∀ j < k, l[j]? = some false) : firstMissing l = some k := by
  unfold firstMissing
  rw [List.findIdx?_eq_some_iff_getElem]
  obtain ⟨hl, he⟩ := List.getElem?_eq_some_iff.1 h
  refine ⟨by rw [List.length_take]; omega, by rw [List.getElem_take]; exact he, fun j hjk => ?_⟩
  obtain ⟨hl', he'⟩ := List.getElem?_eq_some_iff.1 (hj j hjk)
  rw [List.getElem_take, he']; simp

/-- No flag set. -/
theorem firstMissing_none {l : List Bool} (h : ∀ k < missingFlags, l[k]? = some false) : firstMissing l = none := by
  unfold firstMissing
  rw [List.findIdx?_eq_none_iff]
  intro x hx
  obtain ⟨i, hi, rfl⟩ := List.getElem_of_mem hx
  rw [List.length_take] at hi
  obtain ⟨hl', he'⟩ := List.getElem?_eq_some_iff.1 (h i (by omega))
  rw [List.getElem_take]; exact he'

/-- The flag found is one of 0 to 125, and set. -/
theorem firstMissing_lt {l : List Bool} {k : Nat} (h : firstMissing l = some k) : k < missingFlags ∧ l[k]? = some true ∧ k < l.length := by
  unfold firstMissing at h
  rw [List.findIdx?_eq_some_iff_getElem] at h
  obtain ⟨hk, he, -⟩ := h
  rw [List.length_take] at hk
  rw [List.getElem_take] at he
  exact ⟨by omega, List.getElem?_eq_some_iff.2 ⟨by omega, he⟩, by omega⟩

/-- The offset of a chunk does not wrap (R114). -/
theorem chunkOffset_toNat {k : Nat} (h : k < missingFlags) : (chunkOffset k).toNat = 32 * k := by
  simp only [chunkOffset, BitVec.toNat_ofNat, chunk, missingFlags] at *; omega

/-- What chunk selection can answer (R112, R113, R114). -/
theorem selectChunk_cases (h : Hello) (id : Word) :
    (selectChunk h id).1.toNat % 32 = 0 ∧ (selectChunk h id).1.toNat ≤ 4000 ∧ ((selectChunk h id).2 = 0 ∨ (selectChunk h id).2 = 1) := by
  unfold selectChunk
  split_ifs
  · exact ⟨rfl, by simp, .inl rfl⟩
  · cases hf : firstMissing h.missing with
    | none => exact ⟨rfl, by simp, .inr rfl⟩
    | some k =>
      have := (firstMissing_lt hf).1
      refine ⟨?_, ?_, .inl rfl⟩ <;> simp only [chunkOffset_toNat this] <;> simp only [missingFlags] at this <;> omega

/-! ### Numbers in packets (R65 c) -/

theorem leValue_toLe32 (x : Word) : leValue (toLe32 x) = x.toNat := by
  simp only [leValue, toLe32, List.foldr, BitVec.extractLsb'_toNat, Nat.shiftRight_eq_div_pow]
  have := x.isLt
  omega

theorem leValue_toLe16 (x : Half) : leValue (toLe16 x) = x.toNat := by
  simp only [leValue, toLe16, List.foldr, BitVec.extractLsb'_toNat, Nat.shiftRight_eq_div_pow]
  have := x.isLt
  omega

/-- The word at an offset of a packet is the value of its four bytes. -/
theorem leValue_le32At (p : List Byte) (k : Nat) (h : k + 4 ≤ p.length) : (le32At p k).toNat = leValue ((p.drop k).take 4) := by
  rw [← toLe32_le32At p k h, List.take_append_of_le_length (by simp), List.take_of_length_le (by simp), leValue_toLe32]

end Sys2Proof.Machine
end

