-- ==== Sys2Proof/Laws/PerInstr.lean ====
section
/-! SUPPORT. The family EncodedPort, per instruction: the port its word is presented at (entry 10), and that only RREG and OP.RREG receive
bytes (R101, R141). -/

namespace Sys2Proof.Laws.EncodedPort

/-- The port an instruction belongs to. -/
def port : Instr → Port
  | .wreg _ _ => .bus
  | .rreg _ _ => .bus
  | .strobe _ => .bus
  | .strobePll => .strobe
  | .strobeRx => .strobe
  | .strobeTx => .strobe
  | .strobeWrst => .strobe
  | .strobeRrst => .strobe
  | .init => .command
  | .setch _ => .command
  | .setid _ => .command
  | .setlen _ => .command
  | .tx _ => .command
  | .rx => .command
  | .opWreg _ _ => .command
  | .opRreg _ _ => .command
  | .opStrobe _ => .command
  | .opReserved _ => .command
  | .boot => .phase
  | .s1 => .phase
  | .s2 => .phase
  | .s3 => .phase
  | .s4 => .phase
  | .s5 => .phase
  | .s6 => .phase
  | .s7 => .phase
  | .s8 => .phase
  | .publish _ _ => .feed
  | .idscreen _ => .screen
  | .idselect => .select
  | .pktHello _ => .hello
  | .pktDatareply _ => .reply

/-- How many bytes an instruction receives. -/
def received : Instr → Nat
  | .wreg _ _ => 0
  | .rreg _ n => n
  | .strobe _ => 0
  | .strobePll => 0
  | .strobeRx => 0
  | .strobeTx => 0
  | .strobeWrst => 0
  | .strobeRrst => 0
  | .init => 0
  | .setch _ => 0
  | .setid _ => 0
  | .setlen _ => 0
  | .tx _ => 0
  | .rx => 0
  | .opWreg _ _ => 0
  | .opRreg _ n => n
  | .opStrobe _ => 0
  | .opReserved _ => 0
  | .boot => 0
  | .s1 => 0
  | .s2 => 0
  | .s3 => 0
  | .s4 => 0
  | .s5 => 0
  | .s6 => 0
  | .s7 => 0
  | .s8 => 0
  | .publish _ _ => 0
  | .idscreen _ => 0
  | .idselect => 0
  | .pktHello _ => 0
  | .pktDatareply _ => 0

/-- The encoder presents the instruction at its port and receives as many bytes as it says. -/
def Statement (i : Instr) : Prop := ∀ c : Config, (encode c i).port = port i ∧ (encode c i).nIn = received i

theorem wreg (a : Addr) (l : List Byte) : Statement (.wreg a l) := fun _ => ⟨rfl, rfl⟩
theorem rreg (a : Addr) (n : Nat) : Statement (.rreg a n) := fun _ => ⟨rfl, rfl⟩
theorem strobe (k : Nibble) : Statement (.strobe k) := fun _ => ⟨rfl, rfl⟩
theorem strobePll : Statement .strobePll := fun _ => ⟨rfl, rfl⟩
theorem strobeRx : Statement .strobeRx := fun _ => ⟨rfl, rfl⟩
theorem strobeTx : Statement .strobeTx := fun _ => ⟨rfl, rfl⟩
theorem strobeWrst : Statement .strobeWrst := fun _ => ⟨rfl, rfl⟩
theorem strobeRrst : Statement .strobeRrst := fun _ => ⟨rfl, rfl⟩
theorem init : Statement .init := fun _ => ⟨rfl, rfl⟩
theorem setch (ch : Byte) : Statement (.setch ch) := fun _ => ⟨rfl, rfl⟩
theorem setid (id : Word) : Statement (.setid id) := fun _ => ⟨rfl, rfl⟩
theorem setlen (n : Int) : Statement (.setlen n) := fun _ => ⟨rfl, rfl⟩
theorem tx (l : List Byte) : Statement (.tx l) := fun _ => ⟨rfl, rfl⟩
theorem rx : Statement .rx := fun _ => ⟨rfl, rfl⟩
theorem opWreg (a : Addr) (l : List Byte) : Statement (.opWreg a l) := fun _ => ⟨rfl, rfl⟩
theorem opRreg (a : Addr) (n : Nat) : Statement (.opRreg a n) := fun _ => ⟨rfl, rfl⟩
theorem opStrobe (k : Nibble) : Statement (.opStrobe k) := fun _ => ⟨rfl, rfl⟩
theorem opReserved (op : Nibble) : Statement (.opReserved op) := fun _ => ⟨rfl, rfl⟩
theorem boot : Statement .boot := fun _ => ⟨rfl, rfl⟩
theorem s1 : Statement .s1 := fun _ => ⟨rfl, rfl⟩
theorem s2 : Statement .s2 := fun _ => ⟨rfl, rfl⟩
theorem s3 : Statement .s3 := fun _ => ⟨rfl, rfl⟩
theorem s4 : Statement .s4 := fun _ => ⟨rfl, rfl⟩
theorem s5 : Statement .s5 := fun _ => ⟨rfl, rfl⟩
theorem s6 : Statement .s6 := fun _ => ⟨rfl, rfl⟩
theorem s7 : Statement .s7 := fun _ => ⟨rfl, rfl⟩
theorem s8 : Statement .s8 := fun _ => ⟨rfl, rfl⟩
theorem publish (b : List Byte) (id : Word) : Statement (.publish b id) := fun _ => ⟨rfl, rfl⟩
theorem idscreen (x : Word) : Statement (.idscreen x) := fun _ => ⟨rfl, rfl⟩
theorem idselect : Statement .idselect := fun _ => ⟨rfl, rfl⟩
theorem pktHello (p : HelloPacket) : Statement (.pktHello p) := fun _ => ⟨rfl, rfl⟩
theorem pktDatareply (p : ReplyPacket) : Statement (.pktDatareply p) := fun _ => ⟨rfl, rfl⟩

end Sys2Proof.Laws.EncodedPort
end

