-- ==== Sys2Proof/Laws/Premises.lean ====
section
/-! SUPPORT. What the premises on the chip give a read, a transmission and a status byte (R71 to R79). -/

namespace Sys2Proof.Machine

theorem drawCal_none (m : Byte) (x : Option Bool) {io : Io} (h : io.env.premises.cp8 = false) : io.drawCal m x = ([none], io) := by
  unfold Io.drawCal
  rw [h]
  split <;> rfl

/-- With no premise nothing of a read is fixed: `ChipAny` (R71). -/
theorem readDrive_none (c : Config) (a : Addr) (n : Nat) {io : Io} (h : io.env.premises = Premises.none) :
    io.readDrive c a n = (List.replicate n none, io) := by
  have h8 : io.env.premises.cp8 = false := by rw [h]; rfl
  unfold Io.readDrive
  simp only [drawCal_none _ _ h8]
  rw [h]
  simp only [Premises.none]
  repeat' split
  all_goals first
    | rfl
    | simp_all

/-- Nor is it once the premises are void (U3). -/
theorem readDrive_void (c : Config) (a : Addr) (n : Nat) {io : Io} (h : io.chip.unknown = true) :
    io.readDrive c a n = (List.replicate n none, io) := by
  unfold Io.readDrive
  simp [h]

/-- A write leaves the validity of the premises alone. -/
theorem chipWrite_unknown (c : Config) (a : Addr) (l : List Byte) (k : Chip) : (k.write c a l).unknown = k.unknown := by
  unfold Chip.write Chip.writeReg Chip.fill Chip.forget
  split_ifs <;> first | rfl | (split <;> rfl)

/-- An ordinary register holds the byte last written to it (R72). -/
theorem chipWrite_read {c : Config} {a : Addr} (h : ordinary c a) (v : Byte) (k : Chip) : (k.write c a [v]).regs.read a.toNat = some v := by
  obtain ⟨h1, h2, h3, h4, h5, h6, h7⟩ := h
  unfold Chip.write
  rw [if_neg h1, if_neg (by simp), if_neg h7, if_neg h2]
  split_ifs <;> simp [Chip.writeReg]

/-- A drained FIFO gives the bytes filled in, in order (R74). -/
theorem read_filled (l : List Byte) (m : Memory) :
    (List.range l.length).map (fun k => (m.writeList 0 l).read (0 + k)) = l.map some := by
  apply List.ext_getElem
  · simp
  · intro i h1 h2
    have hi : i < l.length := by simpa using h1
    simp only [List.getElem_map, List.getElem_range, Memory.read_writeList_same l m 0 i hi]

/-- Reading a list of known bytes gives the list. -/
theorem mapM_of_map {α β : Type} (f : α → Option β) (l : List α) (q : List β) (h : l.map f = q.map some) : l.mapM f = some q := by
  induction l generalizing q with
  | nil => cases q with
    | nil => rfl
    | cons => simp at h
  | cons a r ih => cases q with
    | nil => simp at h
    | cons b q =>
      simp at h
      simp [h.1, ih q h.2]

/-- The bits of a status field that is good are clear (R77). -/
theorem fixStatus_good (m : Byte) (d : Byte) : fixStatus m false d &&& m = 0 := by
  simp [fixStatus]; ext i; simp

/-- The bits of a status field that is bad are not all clear (R77, R79). -/
theorem fixStatus_bad {m : Byte} (hm : m ≠ 0) (d : Byte) : fixStatus m true d &&& m ≠ 0 := by
  unfold fixStatus
  simp only [if_true]
  split_ifs with h
  · intro h'
    rw [show (d ||| m) &&& m = m by ext i; simp; tauto] at h'
    exact hm h'
  · exact h

/-- Setting one field leaves a disjoint one as it was. -/
theorem fixStatus_other {m n : Byte} (hmn : m &&& n = 0) (b : Bool) (d : Byte) : fixStatus m b d &&& n = d &&& n := by
  have hb : ∀ i : Nat, m.getLsbD i = true → n.getLsbD i = false := fun i hi => by
    have := congrArg (fun x => BitVec.getLsbD x i) hmn
    simpa [hi] using this
  unfold fixStatus
  split_ifs
  · apply BitVec.eq_of_getLsbD_eq
    intro i hi
    simp only [BitVec.getLsbD_and, BitVec.getLsbD_or]
    have := hb i
    cases hmi : m.getLsbD i <;> simp_all
  · rfl
  · apply BitVec.eq_of_getLsbD_eq
    intro i hi
    simp only [BitVec.getLsbD_and, BitVec.getLsbD_not]
    have := hb i
    cases hmi : m.getLsbD i <;> simp_all

/-- The status byte of a packet that arrived so (R77). -/
theorem rxError_status {c : Config} (h : ChipApart c) (crc fec : Bool) (d : Byte) {m : Byte}
    (hm : m = fixStatus c.mFecf fec (fixStatus c.mCrcf crc d)) :
    rxError c m = if crc then some (.crc m) else if fec then some (.fec m) else none := by
  have e1 : m &&& c.mCrcf = fixStatus c.mCrcf crc d &&& c.mCrcf := by
    rw [hm]; exact fixStatus_other (by rw [BitVec.and_comm]; exact h.masks) _ _
  unfold rxError crcFailed fecFailed
  rw [e1, hm]
  have g1 : ¬ fixStatus c.mCrcf true d &&& c.mCrcf = 0#8 := fixStatus_bad h.crcNonzero d
  have g2 : ∀ e, ¬ fixStatus c.mFecf true e &&& c.mFecf = 0#8 := fixStatus_bad h.fecNonzero
  cases crc <;> cases fec <;> simp [fixStatus_good, g1, g2]

/-- The packet a transmission sends, where all of it is known (R75). -/
theorem packet_known {c : Config} {io : Io} {x : Word} {ch n : Byte} {l : List Byte} (hi : io.chip.ident = some x)
    (hch : io.chip.regs.read c.aChannel.toNat = some ch) (hn : io.chip.regs.read c.aPktlen.toNat = some n) (h3 : io.env.premises.cp3 = true)
    (hl : (List.range (n.toNat + 1)).map (fun j => io.chip.fifo.read j) = l.map some) : io.packet c = (⟨x, ch, l⟩, io.env) := by
  unfold Io.packet
  rw [hi, hch, hn]
  simp only [Env.knownIdent, Env.knownByte, h3, if_true]
  rw [hl, knownBytes_some]

/-! ### Calibration (R79) -/

/-- What is known of the three calibrations, in a chip whose premises hold. -/
structure KnowsCal (k : Chip) (x y z : Option Bool) : Prop where
  unknown : k.unknown = false
  calIf : k.calIf = x
  calVcoc : k.calVcoc = y
  calVcob : k.calVcob = z

/-- The chip's turns leave what is known of the calibrations. -/
theorem Turned.knowsCal {c : Config} {a k : Chip} (h : Turned c a k) {x y z : Option Bool} (ha : KnowsCal a x y z) : KnowsCal k x y z := by
  rw [h.keeps]; exact ⟨ha.1, ha.2, ha.3, ha.4⟩

/-- Under CP8 the masked bits of a calibration status byte are clear if and only if that calibration succeeded. -/
theorem frame_calRead {c : Config} {a : Addr} {m : Byte} {ok : Bool} {x y z : Option Bool} {io : Io} (hm : m ≠ 0)
    (h8 : io.env.premises.cp8 = true) (hk : KnowsCal io.chip x y z)
    (hd : ∀ i : Io, KnowsCal i.chip x y z → i.readDrive c a 1 = i.drawCal m (some ok)) :
    ((io.frame c [readByte a] 1).1.getD 0 0 &&& m = 0 ↔ ok = true) := by
  obtain ⟨i, h1, h2, -, -, h3⟩ := frame_read_bytes c a 1 io
  have e : (i.readDrive c a 1).1 = [fixStatus m (!ok) i.env.drawByte.1].map some := by
    rw [hd i (h1.knowsCal hk)]
    unfold Io.drawCal
    simp only [h2.premises, h8, if_true, Io.drawStatus, List.map_cons, List.map_nil]
  rw [h3, e, bytesIn_driven, List.getD_cons_zero]
  cases ok with
  | true => exact ⟨fun _ => rfl, fun _ => fixStatus_good m _⟩
  | false => exact ⟨fun h => absurd h (fixStatus_bad hm _), fun h => by cases h⟩

/-- A read leaves what is known of the calibrations, but for the register read (entry 33). -/
theorem frame_knowsCal {c : Config} {a : Addr} {x y z : Option Bool} {io : Io} (h : KnowsCal io.chip x y z)
    (h1 : a ≠ c.aFifo) (h2 : a ≠ c.aId) :
    KnowsCal (io.frame c [readByte a] 1).2.chip (if a = c.aCalIf then none else x) (if a = c.aCalVcoc then none else y)
      (if a = c.aCalVcob then none else z) := by
  obtain ⟨k, hk, h'⟩ := frame_chip c [readByte a] 1 io
  have hq : (io.frame c [readByte a] 1).1 ≠ [] := fun e => by simpa using congrArg List.length e
  have hk := hk.knowsCal h
  rw [h', afterFrame_read _ _ hq]
  refine ⟨by rw [chipRead_unknown]; exact hk.1, ?_, ?_, ?_⟩ <;>
    (unfold Chip.read; rw [if_neg h1, if_neg h2]; dsimp only)
  · rw [hk.2]
  · rw [hk.3]
  · rw [hk.4]

/-- Reading the three status registers under what is known of them. -/
theorem readDrive_calIf {c : Config} (hc : CalApart c) {b : Bool} {y z : Option Bool} {io : Io} (h : KnowsCal io.chip (some b) y z) :
    io.readDrive c c.aCalIf 1 = io.drawCal c.mCalIf (some b) := by
  have h1 := hc.fifo; have h2 := hc.ident; have h3 := hc.mode
  simp only [List.mem_cons, List.not_mem_nil, or_false, not_or] at h1 h2 h3
  unfold Io.readDrive
  dsimp only
  rw [h.unknown, h.calIf]
  simp [(Ne.symm h1.2.1), (Ne.symm h2.2.1), (Ne.symm h3.1)]

theorem readDrive_calVcoc {c : Config} (hc : CalApart c) {b : Bool} {x z : Option Bool} {io : Io} (h : KnowsCal io.chip x (some b) z) :
    io.readDrive c c.aCalVcoc 1 = io.drawCal c.mCalVcoc (some b) := by
  have h1 := hc.fifo; have h2 := hc.ident; have h3 := hc.mode; have h4 := hc.status
  simp only [List.mem_cons, List.not_mem_nil, or_false, not_or, List.nodup_cons] at h1 h2 h3 h4
  unfold Io.readDrive
  dsimp only
  rw [h.unknown, h.calVcoc]
  simp [(Ne.symm h1.2.2.1), (Ne.symm h2.2.2.1), (Ne.symm h3.2.1), Ne.symm h4.1.1]

theorem readDrive_calVcob {c : Config} (hc : CalApart c) {b : Bool} {x y : Option Bool} {io : Io} (h : KnowsCal io.chip x y (some b)) :
    io.readDrive c c.aCalVcob 1 = io.drawCal c.mCalVcob (some b) := by
  have h1 := hc.fifo; have h2 := hc.ident; have h3 := hc.mode; have h4 := hc.status
  simp only [List.mem_cons, List.not_mem_nil, or_false, not_or, List.nodup_cons] at h1 h2 h3 h4
  unfold Io.readDrive
  dsimp only
  rw [h.unknown, h.calVcob]
  simp [(Ne.symm h1.2.2.2), (Ne.symm h2.2.2.2), (Ne.symm h3.2.2), Ne.symm h4.1.2, Ne.symm h4.2.1]

/-- The outcomes of the calibration are the next three choices (R79). -/
theorem finishCal_cons {io : Io} {b1 b2 b3 : Bool} {r : List Bool} (h : io.env.choiceIn = b1 :: b2 :: b3 :: r) :
    io.finishCal = { io with
      env := { io.env with choiceIn := r }
      chip := { io.chip with cal := .finished, calIf := some b1, calVcoc := some b2, calVcob := some b3 } } := by
  have e1 := drawChoice_cons h
  have e2 : ({ io.env with choiceIn := b2 :: b3 :: r } : Env).drawChoice = (b2, { io.env with choiceIn := b3 :: r }) := rfl
  have e3 : ({ io.env with choiceIn := b3 :: r } : Env).drawChoice = (b3, { io.env with choiceIn := r }) := rfl
  unfold Io.finishCal
  simp only [e1, e2, e3]

/-! ### INIT's frames keep the premises and begin the calibration -/

theorem afterFrame_unknown_write {c : Config} {a : Addr} {l : List Byte} (hl : l ≠ []) (q : List Byte) (k : Chip) :
    (k.afterFrame c (writeByte a :: l) q).unknown = k.unknown := by
  rw [afterFrame_write _ _ hl, chipWrite_unknown]

theorem wreg_unknown {a : Addr} {l : List Byte} (hl : l ≠ []) {s : State} (h : s.io.chip.unknown = false) :
    (s.wreg a l).io.chip.unknown = false := by
  obtain ⟨b, hb, h'⟩ := frame_chip s.cfg (writeByte a :: l) 0 s.io
  rw [wreg_io, h', afterFrame_unknown_write hl, hb.unknown]
  exact h

theorem wregAll_unknown (l : List (Addr × List Byte)) (hl : ∀ x ∈ l, x.2 ≠ []) : ∀ s : State, s.io.chip.unknown = false →
    (s.wregAll l).io.chip.unknown = false := by
  induction l with
  | nil => intro s h; exact h
  | cons x r ih =>
    intro s h
    exact ih (fun y hy => hl y (List.mem_cons_of_mem _ hy)) _ (wreg_unknown (hl x (by simp)) h)

theorem strobe_pll_chip {s : State} (hc : s.cfg.codesLegal = true) (h : s.io.chip.unknown = false) :
    (s.strobe s.cfg.cPll).io.chip.unknown = false ∧ (s.strobe s.cfg.cPll).io.chip.mode = .pll := by
  obtain ⟨b, hb, h'⟩ := frame_chip s.cfg [strobeByte s.cfg.cPll] 0 s.io
  rw [strobe_io, h', afterFrame_strobe _ (codes_bit3 hc).1, chipStrobe_pll]
  exact ⟨hb.unknown.trans h, rfl⟩

/-- The write of `V_CALCTL` in the mode of the PLL begins the calibration (R79, R162). -/
theorem calctl_chip {c : Config} (hc : CalApart c) {io : Io} (hm : io.chip.mode = .pll) :
    (io.frame c (writeByte c.aCalctl :: [c.vCalctl]) 0).2.chip.cal = .started := by
  obtain ⟨b, hb, h'⟩ := frame_chip c (writeByte c.aCalctl :: [c.vCalctl]) 0 io
  have h1 := hc.fifo; have h2 := hc.ident
  simp only [List.mem_cons, List.not_mem_nil, or_false, not_or] at h1 h2
  rw [h', afterFrame_write _ _ (by simp)]
  unfold Chip.write
  rw [if_neg (Ne.symm h1.1), if_neg (by simp), if_neg hc.reset, if_neg (Ne.symm h2.1), if_pos]
  exact ⟨rfl, rfl, hb.mode.trans hm⟩

end Sys2Proof.Machine
end

