-- ==== Sys2Proof/Laws/Shapes.lean ====
section
/-! SUPPORT. Everything an operation, an instruction or a step can write outside the interface, as a list of shapes `{ s with ... }`. A claim about
every step goes through these and unfolds nothing. -/

namespace Sys2Proof.Machine

/-- The shapes of INIT's wait and what follows it (R163, R164, R285): still held; done for a direct caller; BOOT done; start-up ended. -/
def SettleShape (c : Caller) (s t : State) : Prop :=
  t = { s with io := t.io, hold := some (.settle c) } ∨
  (∃ w, c = .direct ∧ t = { s with io := t.io, hold := none, tstate := .idle, log := s.log ++ w, ret := .ok }) ∨
  (∃ w, c = .loop ∧ (pktMin ≤ s.cfg.pktlenCfg ∧ s.cfg.pktlenCfg ≤ pktMax) ∧ t = { s with
    io := t.io, hold := none, tstate := .idle, log := s.log ++ w, channel := some s.cfg.channelCfg,
    pktlen := some s.cfg.pktlenCfg.toNat, spc := .s1 }) ∨
  (∃ w, c = .loop ∧ t = { s with
    io := t.io, hold := none, tstate := .idle, log := s.log ++ w, channel := some s.cfg.channelCfg, bootFailed := true,
    ret := .err (.packetLengthRange s.cfg.pktlenCfg) })

theorem pollSettle_shape (c : Caller) (s : State) : SettleShape c s (s.pollSettle c) := by
  obtain ⟨u, hu, -, h0, h1⟩ := pollSettle_spec c s
  cases hb : s.io.settled.1 with
  | false => left; rw [h0 hb, hu]
  | true =>
    rw [h1 hb]
    obtain ⟨v, s1, s2, s3, -, hv, h⟩ := initFinish_spec c { u with hold := none }
    rw [h]
    cases c with
    | direct =>
      right; left
      refine ⟨calWarnings s.cfg s1 s2 s3, rfl, ?_⟩
      dsimp only
      rw [hv, hu]; rfl
    | loop =>
      have hcfg : v.cfg = s.cfg := by rw [hv, hu]
      by_cases hr : pktMin ≤ s.cfg.pktlenCfg ∧ s.cfg.pktlenCfg ≤ pktMax
      · right; right; left
        refine ⟨calWarnings s.cfg s1 s2 s3, rfl, hr, ?_⟩
        have := (bootRest_ok (s := v) (by rw [hcfg]; exact hr)).1
        dsimp only
        rw [this, hv, hu]
      · right; right; right
        refine ⟨calWarnings s.cfg s1 s2 s3, rfl, ?_⟩
        have := (bootRest_range (s := v) (by rw [hcfg]; omega)).1
        dsimp only
        rw [this, hv, hu]

/-- The shapes of TX's wait and what follows it (R182, R211). -/
def SendShape (c : Caller) (s t : State) : Prop :=
  t = { s with io := t.io, hold := some (.sending c) } ∨
  (c = .direct ∧ t = { s with io := t.io, hold := none, tstate := .idle, ret := .ok }) ∨
  (c = .loop ∧ t = { s with io := t.io, hold := none, tstate := .idle, spc := .s8 })

theorem pollTx_shape (c : Caller) (s : State) : SendShape c s (s.pollTx c) := by
  obtain ⟨u, hu, -, h1, h0⟩ := pollTx_spec c s
  cases hb : (s.io.sampleBusy s.cfg).1 with
  | true => left; rw [h1 hb, hu]
  | false =>
    rw [h0 hb]
    cases c with
    | direct => exact .inr (.inl ⟨rfl, by rw [hu]; rfl⟩)
    | loop => exact .inr (.inr ⟨rfl, by rw [hu]; rfl⟩)

/-- The shapes of RX's wait and what follows it (R184, R185, R202): held; the bytes or an error to a direct caller; the bytes in `RXPKT`; an
error taken by the loop. -/
def ListenShape (len : Nat) (c : Caller) (s t : State) : Prop :=
  t = { s with io := t.io, hold := some (.listening len c) } ∨
  (∃ r, c = .direct ∧ t = { s with io := t.io, hold := none, tstate := .idle, ret := r }) ∨
  (∃ q, c = .loop ∧ q.length = len ∧ t = { s with io := t.io, hold := none, tstate := .idle, rxpkt := q, spc := .s3 }) ∨
  (∃ e time, c = .loop ∧ t = { s with
    io := t.io, hold := none, tstate := .idle, spc := .s1, log := s.log ++ [.error e time none none] })

theorem pollRx_shape (len : Nat) (c : Caller) (s : State) : ListenShape len c s (s.pollRx len c) := by
  obtain ⟨u, hu, -, h1, h0⟩ := pollRx_spec len c s
  cases hb : (s.io.sampleBusy s.cfg).1 with
  | true => left; rw [h1 hb, hu]
  | false =>
    rw [h0 hb]
    obtain ⟨v, m, q, hq, hv, hok, herr⟩ := rxFinish_spec c len { u with hold := none, tstate := .idle }
    cases he : rxError u.cfg m with
    | none =>
      rw [(hok he).1]
      cases c with
      | direct => exact .inr (.inl ⟨.bytes q, rfl, by rw [hv, hu]; rfl⟩)
      | loop => exact .inr (.inr (.inl ⟨q, rfl, hq, by rw [hv, hu]; rfl⟩))
    | some e =>
      rw [(herr e he).1]
      cases c with
      | direct => exact .inr (.inl ⟨.err e, rfl, by rw [hv, hu]; rfl⟩)
      | loop =>
        obtain ⟨time, ht, -⟩ := takeError_spec e none none v
        refine .inr (.inr (.inr ⟨e, time, rfl, ?_⟩))
        show v.takeError e none none = _
        rw [ht, hv, hu]; rfl

/-- The shapes of a blocked operation that goes on. -/
def ResumeShape (h : Hold) (s t : State) : Prop :=
  match h with
  | .settle c => SettleShape c s t
  | .sending c => SendShape c s t
  | .listening len c => ListenShape len c s t

theorem resume_shape (h : Hold) (s : State) : ResumeShape h s (s.resume h) := by
  cases h with
  | settle c => exact pollSettle_shape c s
  | sending c => exact pollTx_shape c s
  | listening len c => exact pollRx_shape len c s

/-- INIT's start (R160). -/
theorem initOp_shape {c : Caller} {s t : State} (h : initOp c s = .next t) :
    s.tstate = .uninitialized ∧ ∃ io, SettleShape c { s with io := io, tstate := .calibrating } t := by
  unfold initOp at h
  split_ifs at h with ht
  cases h
  obtain ⟨u, h1, h2, -⟩ := initStart_spec c s
  rw [h1]
  exact ⟨ht, u.io, h2 ▸ pollSettle_shape c u⟩

/-- The shapes of TX (R180 to R182). -/
def TxShape (c : Caller) (s t : State) : Prop :=
  (∃ e, c = .direct ∧ t = { s with ret := .err e }) ∨
  (∃ e time, c = .loop ∧ t = { s with
    io := t.io, spc := .s1, log := s.log ++ [.error e time (some s.hello.clientId) (some s.snap.id)] }) ∨
  ∃ io, SendShape c { s with io := io, tstate := .transmitting } t

theorem txOp_shape {c : Caller} {l : List Byte} {s t : State} (h : txOp c l s = .next t) :
    s.tstate = .idle ∧ s.pktlen.isSome = true ∧ TxShape c s t := by
  unfold txOp at h
  split_ifs at h with ht
  split at h
  · cases h
  · rename_i len hlen
    cases h
    refine ⟨ht, by rw [hlen]; rfl, ?_⟩
    split_ifs
    · cases c with
      | direct => exact .inl ⟨_, rfl, rfl⟩
      | loop =>
        obtain ⟨time, h1, -⟩ := takeError_spec (.sizeError l.length len) (some s.hello.clientId) (some s.snap.id) s
        exact .inr (.inl ⟨_, time, rfl, h1⟩)
    · obtain ⟨u, h1, h2, -⟩ := txSend_spec c len l s
      rw [h1]
      exact .inr (.inr ⟨u.io, h2 ▸ pollTx_shape c u⟩)

/-- RX's start (R183). -/
theorem rxOp_shape {c : Caller} {s t : State} (h : rxOp c s = .next t) :
    s.tstate = .idle ∧ ∃ len io, s.pktlen = some len ∧ ListenShape len c { s with io := io, tstate := .receiving } t := by
  unfold rxOp at h
  split_ifs at h with ht
  split at h
  · cases h
  · rename_i len hlen
    cases h
    obtain ⟨u, h1, h2, -⟩ := rxStart_spec c len s
    rw [h1]
    exact ⟨ht, len, u.io, hlen, h2 ▸ pollRx_shape len c u⟩

/-- SETID inside a step (R201, R210). -/
theorem setIdStep_shape {id : Word} {q : Spc} {cid iid : Option Word} {s t : State} (h : setIdStep id q cid iid s = .next t) :
    s.tstate = .idle ∧ (t = { s with io := t.io, deviceId := some id, spc := q } ∨
      ∃ e time, t = { s with io := t.io, deviceId := none, spc := .s1, log := s.log ++ [.error e time cid iid] }) := by
  unfold setIdStep at h
  split_ifs at h with ht
  cases h
  refine ⟨ht, ?_⟩
  obtain ⟨u, q0, q1, q2, q3, -, hu, h1, h2⟩ := setId_spec id s
  by_cases he : be32 q0 q1 q2 q3 = id
  · rw [h1 he, hu]
    exact .inl rfl
  · rw [h2 he]
    obtain ⟨time, h3, -⟩ := takeError_spec (.idMismatch id (be32 q0 q1 q2 q3)) cid iid { u.doubtIdent with deviceId := none }
    right
    refine ⟨.idMismatch id (be32 q0 q1 q2 q3), time, ?_⟩
    dsimp only
    rw [h3, hu]
    rfl

/-- S3 (R203 to R206): malformed, a first hello, a later hello. -/
theorem execS3_shape {s t : State} (h : execS3 s = .next t) :
    s.spc = .s3 ∧ s.hold = none ∧
    ((∃ e time, t = { s with io := t.io, spc := .s1, log := s.log ++ [.error e time none none] }) ∨
      s.rxpkt.length = helloLen ∧ ∃ (x : Hello) (y : Session) (isNew : Bool) (w : List LogEvent), x = decodeHello s.cfg.bitmapOrder s.rxpkt ∧
        y.clientId = x.clientId ∧ 1 ≤ y.receivedCount.toNat ∧
        (∀ z, sessLookup x.clientId s.sess = some z → y.firstSeenAt = z.firstSeenAt ∧ z.receivedCount.toNat ≤ y.receivedCount.toNat) ∧
        t = { s with io := t.io, hello := x, newClient := isNew, sess := sessPut y s.sess, spc := .s4, log := s.log ++ w }) := by
  obtain ⟨h1, h2, h⟩ := atStep_next h
  refine ⟨h1, h2, ?_⟩
  split_ifs at h with hl
  · right
    refine ⟨hl, decodeHello s.cfg.bitmapOrder s.rxpkt, ?_⟩
    unfold acceptHello lookupOrCreate at h
    cases hx : sessLookup (decodeHello s.cfg.bitmapOrder s.rxpkt).clientId s.sess with
    | none =>
      rw [hx] at h
      dsimp only at h
      split_ifs at h
      cases h
      generalize decodeHello s.cfg.bitmapOrder s.rxpkt = x
      refine ⟨⟨x.clientId, x.reportedImageId, 1, s.now.1⟩, true, [.newClient x.clientId s.now.2.now.1], rfl, rfl, Nat.le_refl 1, fun z hz => (by cases hz), ?_⟩
      rfl
    | some z =>
      have hk := sessLookup_key hx
      rw [hx] at h
      dsimp only at h
      rw [if_neg (by simp)] at h
      split_ifs at h with ho
      cases h
      have hc : (z.receivedCount + 1).toNat = z.receivedCount.toNat + 1 := by
        have hlt := z.receivedCount.isLt
        have hne : z.receivedCount.toNat ≠ 0xFFFFFFFF := fun h => ho (BitVec.eq_of_toNat_eq h)
        rw [BitVec.toNat_add, show (1 : Word).toNat = 1 from rfl]
        omega
      refine ⟨{ z with receivedCount := z.receivedCount + 1, lastKnownImageId := (decodeHello s.cfg.bitmapOrder s.rxpkt).reportedImageId },
        false, [], rfl, hk, ?_, ?_, ?_⟩
      · show 1 ≤ (z.receivedCount + 1).toNat
        omega
      · rintro y hy
        cases hy
        exact ⟨rfl, by show _ ≤ (z.receivedCount + 1).toNat; omega⟩
      · simp [updateSession]
  · left
    cases h
    obtain ⟨time, h3, -⟩ := takeError_spec (.protocolError s.rxpkt.length) none none s
    exact ⟨_, time, h3⟩

/-- S3 sends nothing. -/
theorem execS3_io {s t : State} (h : execS3 s = .next t) : t.io = { s.io with env := t.io.env } := by
  obtain ⟨-, -, h⟩ := atStep_next h
  split_ifs at h
  · unfold acceptHello at h
    dsimp only at h
    split_ifs at h
    cases h
    unfold updateSession lookupOrCreate
    cases sessLookup (decodeHello s.cfg.bitmapOrder s.rxpkt).clientId s.sess <;> dsimp only <;> split_ifs <;> rfl
  · cases h; rfl

end Sys2Proof.Machine
end

