-- ==== Sys2Proof/Tests/Slice0.lean ====
section
/-! SUPPORT. Tests. Expected words, frames, results and replies are those of 95_test_vectors.md (V20 to V50, P1 to P5) under its parameter
set X, or are read off the encodings of 30_encoding.md; none is the model's own output. After them, for every statement with hypotheses, a
theorem that meets all of them at once. -/

namespace Sys2Proof.Tests

open Sys2Proof.Machine

set_option Elab.async false

/-- Parameter set X of 95_test_vectors.md. -/
def setX : Config where
  aMode := 0x00
  mCrcf := 0x20
  mFecf := 0x40
  aFifo := 0x05
  aId := 0x06
  aChannel := 0x0F
  aPktlen := 0x03
  initSeq := [(0x00, [0x00])]
  calClearSeq := []
  aCalctl := 0x02
  vCalctl := 0x01
  aCalIf := 0x22
  mCalIf := 0x10
  aCalVcoc := 0x24
  mCalVcoc := 0x10
  aCalVcob := 0x25
  mCalVcob := 0x08
  cPll := 0xB
  cRx := 0xC
  cTx := 0xD
  cWrst := 0xE
  cRrst := 0xF
  tSettle := 500000
  gatewayId := 0x3DD66D4F
  channelCfg := 40
  pktlenCfg := 40
  busyLevel := true
  idPrefix := 3
  threshold := 17
  sessionCapacity := none
  bitmapOrder := .lsbFirst
  shiftKind := .zeroFill

/-- Set X with two equal strobe codes, which P14 forbids. -/
def setBad : Config := { setX with cRx := 0xB }

/-- Set X with a chip reset at another register than the mode register, so that premise CP6 can speak of the mode register. -/
def setApart : Config := { setX with initSeq := [(0x01, [0x00])] }

/-! ## Well-formedness: one ill-formed term for each check -/

theorem test_wf_wreg_without_data : Instr.wellFormed setX (.wreg 3 []) = false := by decide
theorem test_wf_rreg_of_nothing : Instr.wellFormed setX (.rreg 3 0) = false := by decide
theorem test_wf_opWreg_without_data : Instr.wellFormed setX (.opWreg 3 []) = false := by decide
theorem test_wf_opRreg_of_nothing : Instr.wellFormed setX (.opRreg 3 0) = false := by decide
theorem test_wf_strobes_with_equal_codes :
    [Instr.strobePll, .strobeRx, .strobeTx, .strobeWrst, .strobeRrst].map (Instr.wellFormed setBad) = List.replicate 5 false := by decide
theorem test_wf_strobe_code_without_bit3 : Instr.wellFormed { setX with cTx := 0x5 } .strobeTx = false := by decide
theorem test_wf_setlen_above_its_word : Instr.wellFormed setX (.setlen 2147483648) = false := by decide
theorem test_wf_setlen_below_its_word : Instr.wellFormed setX (.setlen (-2147483649)) = false := by decide
theorem test_wf_opReserved_that_is_an_operation : Instr.wellFormed setX (.opReserved 8) = false := by decide
theorem test_wf_publish_short : Instr.wellFormed setX (.publish [1, 2] 7) = false := by decide
theorem test_wf_hello_bitmap : Instr.wellFormed setX (.pktHello ⟨1, 2, 3, 4, 5, 6, List.replicate 15 0⟩) = false := by decide
theorem test_wf_reply_payload : Instr.wellFormed setX (.pktDatareply ⟨1, 0, 0, List.replicate 31 0⟩) = false := by decide
theorem test_wf_reply_offset_multiple : Instr.wellFormed setX (.pktDatareply ⟨1, 33, 0, List.replicate 32 0⟩) = false := by decide
theorem test_wf_reply_offset_range : Instr.wellFormed setX (.pktDatareply ⟨1, 4032, 0, List.replicate 32 0⟩) = false := by decide
theorem test_wf_reply_flags : Instr.wellFormed setX (.pktDatareply ⟨1, 0, 2, List.replicate 32 0⟩) = false := by decide

/-! ## Decoding: a word of every constructor, written from the encodings of 30_encoding.md -/

theorem test_decode_wreg : decode setX ⟨.bus, [0b00111111, 0xA5], 0⟩ = .ok (.wreg 0x3F [0xA5]) := by decide
theorem test_decode_rreg : decode setX ⟨.bus, [0b01000110], 4⟩ = .ok (.rreg 0x06 4) := by decide
theorem test_decode_strobe : decode setX ⟨.bus, [0b11010000], 0⟩ = .ok (.strobe 0xD) := by decide
theorem test_decode_strobePll : decode setX ⟨.strobe, [0b10110000], 0⟩ = .ok .strobePll := by decide
theorem test_decode_strobeRx : decode setX ⟨.strobe, [0b11000000], 0⟩ = .ok .strobeRx := by decide
theorem test_decode_strobeTx : decode setX ⟨.strobe, [0b11010000], 0⟩ = .ok .strobeTx := by decide
theorem test_decode_strobeWrst : decode setX ⟨.strobe, [0b11100000], 0⟩ = .ok .strobeWrst := by decide
theorem test_decode_strobeRrst : decode setX ⟨.strobe, [0b11110000], 0⟩ = .ok .strobeRrst := by decide
theorem test_decode_init : decode setX ⟨.command, [0b0011], 0⟩ = .ok .init := by decide
theorem test_decode_setch : decode setX ⟨.command, [0b0100, 0xFF], 0⟩ = .ok (.setch 255) := by decide
theorem test_decode_setid : decode setX ⟨.command, [0b0101, 0x12, 0x34, 0x56, 0x78], 0⟩ = .ok (.setid 0x12345678) := by decide
theorem test_decode_setlen : decode setX ⟨.command, [0b0110, 0, 0, 0, 40], 0⟩ = .ok (.setlen 40) := by decide
theorem test_decode_tx : decode setX ⟨.command, [0b0111, 0xAA, 0xBB], 0⟩ = .ok (.tx [0xAA, 0xBB]) := by decide
theorem test_decode_rx : decode setX ⟨.command, [0b1000], 0⟩ = .ok .rx := by decide
theorem test_decode_opWreg : decode setX ⟨.command, [0b0000, 0x05, 1, 2], 0⟩ = .ok (.opWreg 0x05 [1, 2]) := by decide
theorem test_decode_opRreg : decode setX ⟨.command, [0b0001, 0x06], 4⟩ = .ok (.opRreg 0x06 4) := by decide
theorem test_decode_opStrobe : decode setX ⟨.command, [0b0010, 0x0D], 0⟩ = .ok (.opStrobe 0xD) := by decide
theorem test_decode_opReserved : decode setX ⟨.command, [0b1001], 0⟩ = .ok (.opReserved 9) := by decide
theorem test_decode_opReserved_last : decode setX ⟨.command, [0b1111], 0⟩ = .ok (.opReserved 15) := by decide
theorem test_decode_boot : decode setX ⟨.phase, [0b0000], 0⟩ = .ok .boot := by decide
theorem test_decode_s1 : decode setX ⟨.phase, [0b0001], 0⟩ = .ok .s1 := by decide
theorem test_decode_s2 : decode setX ⟨.phase, [0b0010], 0⟩ = .ok .s2 := by decide
theorem test_decode_s3 : decode setX ⟨.phase, [0b0011], 0⟩ = .ok .s3 := by decide
theorem test_decode_s4 : decode setX ⟨.phase, [0b0100], 0⟩ = .ok .s4 := by decide
theorem test_decode_s5 : decode setX ⟨.phase, [0b0101], 0⟩ = .ok .s5 := by decide
theorem test_decode_s6 : decode setX ⟨.phase, [0b0110], 0⟩ = .ok .s6 := by decide
theorem test_decode_s7 : decode setX ⟨.phase, [0b0111], 0⟩ = .ok .s7 := by decide
theorem test_decode_s8 : decode setX ⟨.phase, [0b1000], 0⟩ = .ok .s8 := by decide
theorem test_decode_phase9 : decode setX ⟨.phase, [0b1001], 0⟩ = .error .badPhase := by decide
theorem test_decode_publish :
    decode setX ⟨.feed, [0x0B, 0xAD, 0xF0, 0x0D] ++ List.replicate 4000 0, 0⟩ = .ok (.publish (List.replicate 4000 0) 0x0BADF00D) := by
  decide +kernel
theorem test_decode_idscreen : decode setX ⟨.screen, [0x3D, 0xD6, 0x6D, 0x4F], 0⟩ = .ok (.idscreen 0x3DD66D4F) := by decide
theorem test_decode_idselect : decode setX ⟨.select, [], 0⟩ = .ok .idselect := by decide

/-- V41: bytes 0 to 39 of the hello. -/
def hello41 : List Byte :=
  [0x01, 0x00, 0x00, 0x00, 0xAE, 0x79, 0x72, 0x3B, 0xEF, 0xBE, 0xAD, 0xDE, 0x00, 0x00, 0x00, 0x5F, 0x00, 0x00, 0x00, 0x00,
    0xD4, 0xC3, 0xB2, 0xA1, 0x20] ++ List.replicate 15 0

theorem test_decode_pktHello :
    decode setX ⟨.hello, hello41, 0⟩ =
      .ok (.pktHello ⟨1, 0x3B7279AE, 0xDEADBEEF, 0x5F000000, 0, 0xA1B2C3D4, 0x20 :: List.replicate 15 0⟩) := by decide +kernel

/-- V47: the reply of a client that misses flag 125 only. -/
theorem test_decode_pktDatareply :
    decode setX ⟨.reply, [0xD4, 0xC3, 0xB2, 0xA1, 0xA0, 0x0F, 0x00, 0x00] ++ List.replicate 32 0, 0⟩ =
      .ok (.pktDatareply ⟨0xA1B2C3D4, 4000, 0, List.replicate 32 0⟩) := by decide +kernel

theorem test_decode_reserved_first_byte : decode setX ⟨.bus, [0xD1], 0⟩ = .error .reservedFirstByte := by decide
theorem test_decode_data_after_a_strobe : decode setX ⟨.bus, [0xD0, 1], 0⟩ = .error .notAWrite := by decide
theorem test_decode_bytes_from_a_strobe : decode setX ⟨.bus, [0xD0], 1⟩ = .error .notARead := by decide

/-! ## Machines -/

def stateOf : Result → Option State
  | .next t => some t
  | _ => none

/-- The frames of the state after a step, bytes sent and bytes received. -/
def frames (r : Result) : Option (List (List Byte × List Byte)) := (stateOf r).map (fun t => t.io.history.map (fun f => (f.out, f.q)))

/-- The model fault a step ends in. -/
def faultOf : Result → Option Fault
  | .fault f => some f
  | _ => none

def retOf (r : Result) : Option Ret := (stateOf r).map (fun t => t.ret)
def logOf (r : Result) : Option (List LogEvent) := (stateOf r).map (fun t => t.log)

/-- `s` with an environment that answers reads with the bytes `q`, BUSY with the levels `busy`, and lets the settle time pass. -/
def supply (q : List Byte) (busy : List Bool) (s : State) : State :=
  { s with io := { s.io with env := { s.io.env with
    sdiIn := q.flatMap byteBits, busyIn := busy, settleIn := [true], nowIn := [7, 8], rndIn := [0xDD66D4F, 0xBD41C5B] } } }

/-- Right after reset, with parameter set X. -/
def start : State := State.resetWith setX

/-- Idle, packet length `n`. -/
def idle (n : Nat) : State := { start with tstate := .idle, pktlen := some n }

/-- The images `Z` and `M` of 95_test_vectors.md. -/
def imageZ : List Byte := List.replicate 4000 0
def imageM : List Byte := (List.range 4000).map (fun i => BitVec.ofNat 8 (7 * i + 3))

/-- The end of program P1, the image `M` published. -/
def ready : State := { idle 40 with channel := some 40, spc := .s1, image := some ⟨imageM, 0xA1B2C3D4⟩ }

def at2 : State := { ready with spc := .s2 }
def at3 : State := { ready with spc := .s3, rxpkt := hello41 }
def at4 : State := { ready with spc := .s4 }

/-- At S5 with the image `M` taken and a hello whose set flags are `fs`. -/
def at5 (reported : Word) (fs : List Nat) : State :=
  { ready with
    spc := .s5
    snap := ⟨imageM, 0xA1B2C3D4⟩
    hello := ⟨1, 0x3B7279AE, 0xDEADBEEF, 0x5F000000, 0, reported, (List.range 126).map (fun i => fs.contains i)⟩ }

def at6 : State := { at5 0xA1B2C3D4 [5] with spc := .s6, offset := 160 }
def at7 (offset flags : Half) : State := { at5 0xA1B2C3D4 [5] with spc := .s7, offset := offset, flags := flags }
def at8 (offset flags : Half) : State := { at7 offset flags with spc := .s8 }

/-! ## Bus primitives -/

theorem test_wreg_V21 : frames (exec (.wreg 0x3F [0xA5]) start) = some [([0x3F, 0xA5], [])] := by decide +kernel
theorem test_wreg_V20_pulses :
    (stateOf (exec (.wreg 0x00 [0xFF]) start)).map (fun t => pulses t.io.pinTrace) = some 16 := by decide +kernel
theorem test_rreg_V27 :
    frames (exec (.rreg 0x06 4) (supply [1, 2, 3, 4] [] start)) = some [([0x46], [1, 2, 3, 4])] := by decide +kernel
theorem test_rreg_V29 : retOf (exec (.rreg 0x3F 1) (supply [0x81] [] start)) = some (.bytes [0x81]) := by decide +kernel
theorem test_byteIn_V29 : bitsByte [false, false, true, false, true, false, false, false] = 0x28 := by decide
/-- R154: the events of `RREG 0x05, 1` answered by 0x81. -/
theorem test_rreg_R154_trace :
    let o (b : Bool) : List PinEvent := [.sdo b, .sck true, .sck false]
    let i (b : Bool) : List PinEvent := [.sck true, .sdi b, .sck false]
    (stateOf (exec (.rreg 0x05 1) (supply [0x81] [] start))).map (fun t => t.io.pinTrace.reverse) =
      some ([.csn false] ++ o false ++ o true ++ o false ++ o false ++ o false ++ o true ++ o false ++ o true ++
        i true ++ i false ++ i false ++ i false ++ i false ++ i false ++ i false ++ i true ++ [.csn true]) := by decide +kernel
theorem test_strobe_V24_bits :
    (stateOf (exec (.strobe 0xD) start)).map (fun t => (sampledSdo t.io.pinTrace).reverse) =
      some [true, true, false, true, false, false, false, false] := by decide +kernel
theorem test_strobe_V25 : frames (exec (.strobe 0x8) start) = some [([0x80], [])] := by decide +kernel
theorem test_strobePll : frames (exec .strobePll start) = some [([0xB0], [])] := by decide +kernel
theorem test_strobeRx : frames (exec .strobeRx start) = some [([0xC0], [])] := by decide +kernel
theorem test_strobeTx : frames (exec .strobeTx start) = some [([0xD0], [])] := by decide +kernel
theorem test_strobeWrst : frames (exec .strobeWrst start) = some [([0xE0], [])] := by decide +kernel
theorem test_strobeRrst : frames (exec .strobeRrst start) = some [([0xF0], [])] := by decide +kernel
theorem test_opWreg : frames (exec (.opWreg 0x05 [1, 2]) start) = some [([0x05, 1, 2], [])] := by decide +kernel
theorem test_opRreg : frames (exec (.opRreg 0x06 1) (supply [9] [] start)) = some [([0x46], [9])] := by decide +kernel
theorem test_opStrobe_V26 : frames (exec (.opStrobe 0xF) start) = some [([0xF0], [])] := by decide +kernel
theorem test_opReserved : exec (.opReserved 9) start = .refused .reservedOperation := rfl

/-! ## Configuration operations -/

theorem test_init_V30 :
    frames (exec .init (supply [0, 0, 0] [] start)) =
      some [([0x00, 0x00], []), ([0xB0], []), ([0x02, 0x01], []), ([0x62], [0]), ([0x64], [0]), ([0x65], [0])] := by decide +kernel
theorem test_init_V31 :
    logOf (exec .init (supply [0x10, 0x0F, 0x08] [] start)) =
      some [.calibrationWarning .filterBank 0x10, .calibrationWarning .vcoBank 0x08] := by decide +kernel
theorem test_setch_V34 : frames (exec (.setch 40) (idle 4)) = some [([0x0F, 0x28], [])] := by decide +kernel
theorem test_setch_V35 : (stateOf (exec (.setch 255) (idle 4))).map (fun t => t.channel) = some (some 255) := by decide +kernel
theorem test_setid_V39c :
    frames (exec (.setid 0x12345678) (supply [0x12, 0x34, 0x56, 0x78] [] (idle 4))) =
      some [([0x06, 0x12, 0x34, 0x56, 0x78], []), ([0x46], [0x12, 0x34, 0x56, 0x78])] := by decide +kernel
theorem test_setid_V39e :
    (stateOf (exec (.setid 0x12345678) (supply [0x78, 0x56, 0x34, 0x12] [] (idle 4)))).map (fun t => (t.ret, t.io.chip.ident)) =
      some (.err (.idMismatch 0x12345678 0x78563412), none) := by decide +kernel
theorem test_setlen_V38 : frames (exec (.setlen 64) (idle 4)) = some [([0x03, 0x3F], [])] := by decide +kernel
theorem test_setlen_V39b : retOf (exec (.setlen 65) (idle 4)) = some (.err (.packetLengthRange 65)) := by decide +kernel

/-! ## Packet operations -/

theorem test_tx_V40a :
    frames (exec (.tx [0xAA, 0xBB]) (supply [] [false] (idle 4))) =
      some [([0xE0], []), ([0x05, 0xAA, 0xBB, 0x00, 0x00], []), ([0xD0], [])] := by decide +kernel
theorem test_tx_V40c : retOf (exec (.tx [1, 2, 3, 4, 5]) (idle 4)) = some (.err (.sizeError 5 4)) := by decide +kernel
theorem test_rx_V40f :
    frames (exec .rx (supply [0x00, 0x12, 0x34] [false] (idle 2))) =
      some [([0xC0], []), ([0x40], [0x00]), ([0xF0], []), ([0x45], [0x12, 0x34])] := by decide +kernel
theorem test_rx_V40i : retOf (exec .rx (supply [0x60] [false] (idle 2))) = some (.err (.crc 0x60)) := by decide +kernel
theorem test_pktHello_V41 :
    (stateOf (exec (.pktHello ⟨1, 0x3B7279AE, 0xDEADBEEF, 0x5F000000, 0, 0xA1B2C3D4, 0x20 :: List.replicate 15 0⟩) start)).map
      (fun t => (t.rxpkt, t.hello.clientId, firstMissing t.hello.missing)) = some (hello41, 0x3B7279AE, some 5) := by decide +kernel
theorem test_pktDatareply_V47 :
    (frames (exec (.pktDatareply ⟨0xA1B2C3D4, 4000, 0, List.replicate 32 0⟩) (supply [] [false] (idle 40)))).map (fun l => l[1]?) =
      some (some ([0x05, 0xD4, 0xC3, 0xB2, 0xA1, 0xA0, 0x0F, 0x00, 0x00] ++ List.replicate 32 0, [])) := by decide +kernel

/-! ## Server loop -/

theorem test_boot_P1 :
    frames (exec .boot (supply [0, 0, 0] [] start)) =
      some [([0x00, 0x00], []), ([0xB0], []), ([0x02, 0x01], []), ([0x62], [0]), ([0x64], [0]), ([0x65], [0]),
        ([0x0F, 0x28], []), ([0x03, 0x27], [])] := by decide +kernel
theorem test_boot_P1_end :
    (stateOf (exec .boot (supply [0, 0, 0] [] start))).map (fun t => (t.spc, t.tstate, t.channel, t.pktlen)) =
      some (.s1, .idle, some 40, some 40) := by decide +kernel
theorem test_s1_P2 :
    frames (exec .s1 (supply [0x3D, 0xD6, 0x6D, 0x4F] [] ready)) =
      some [([0x06, 0x3D, 0xD6, 0x6D, 0x4F], []), ([0x46], [0x3D, 0xD6, 0x6D, 0x4F])] := by decide +kernel
theorem test_s2_P2 :
    (stateOf (exec .s2 (supply (0x00 :: hello41) [false] at2))).map (fun t => (t.rxpkt, t.spc)) = some (hello41, .s3) := by decide +kernel
theorem test_s2_P3_crc :
    logOf (exec .s2 (supply [0x20] [false] at2)) = some [.error (.crc 0x20) 7 none none] := by decide +kernel
theorem test_s3_V49 :
    (stateOf (exec .s3 (supply [] [] at3))).map (fun t => (t.sess, t.log)) =
      some ([⟨0x3B7279AE, 0xA1B2C3D4, 1, 7⟩], [.newClient 0x3B7279AE 8]) := by decide +kernel
theorem test_s3_V49_overflow :
    faultOf (exec .s3 { at3 with sess := [⟨0x3B7279AE, 0, 0xFFFFFFFF, 7⟩] }) = some .countOverflow := by decide +kernel
theorem test_s4 : (stateOf (exec .s4 at4)).map (fun t => (t.snap.id, t.spc)) = some (0xA1B2C3D4, .s5) := by decide +kernel
theorem test_s4_no_image : faultOf (exec .s4 { at4 with image := none }) = some .noImage := rfl
theorem test_s5_V45 :
    (stateOf (exec .s5 (at5 0xA1B2C3D4 [7, 8, 100]))).map (fun t => (t.offset, t.flags)) = some (224, 0) := by decide +kernel
theorem test_s5_V42_stale :
    (stateOf (exec .s5 (at5 0x11111111 [5, 9]))).map (fun t => (t.offset, t.flags)) = some (0, 0) := by decide +kernel
theorem test_s6_P2 :
    (stateOf (exec .s6 (supply [0x3B, 0x72, 0x79, 0xAE] [] at6))).map (fun t => (t.deviceId, t.spc)) =
      some (some 0x3B7279AE, .s7) := by decide +kernel
theorem test_s6_P4 :
    logOf (exec .s6 (supply [0x3B, 0x72, 0x79, 0xAF] [] at6)) =
      some [.error (.idMismatch 0x3B7279AE 0x3B7279AF) 7 (some 0x3B7279AE) (some 0xA1B2C3D4)] := by decide +kernel
theorem test_s7_V46 :
    (frames (exec .s7 (supply [] [false] (at7 3968 0)))).map (fun l => (l.map (fun x => x.1))[1]?) =
      some (some [0x05, 0xD4, 0xC3, 0xB2, 0xA1, 0x80, 0x0F, 0x00, 0x00, 0x83, 0x8A, 0x91, 0x98, 0x9F, 0xA6, 0xAD, 0xB4, 0xBB, 0xC2, 0xC9,
        0xD0, 0xD7, 0xDE, 0xE5, 0xEC, 0xF3, 0xFA, 0x01, 0x08, 0x0F, 0x16, 0x1D, 0x24, 0x2B, 0x32, 0x39, 0x40, 0x47, 0x4E, 0x55, 0x5C]) := by
  decide +kernel
theorem test_s7_short_length :
    logOf (exec .s7 (supply [] [] { at7 0 0 with pktlen := some 39 })) =
      some [.error (.sizeError 40 39) 7 (some 0x3B7279AE) (some 0xA1B2C3D4)] := by decide +kernel
theorem test_s8_P2 : logOf (exec .s8 (at8 160 0)) = some [.progress 0x3B7279AE 0xA1B2C3D4 160] := by decide +kernel
theorem test_s8_P3 : logOf (exec .s8 (at8 0 1)) = some [.complete 0x3B7279AE 0xA1B2C3D4] := by decide +kernel

/-! ## Feed and screen -/

theorem test_publish :
    (stateOf (exec (.publish imageM 0x0BADF00D) start)).map (fun t => t.image) = some (some ⟨imageM, 0x0BADF00D⟩) := by decide +kernel
theorem test_idscreen_V50a : retOf (exec (.idscreen 0x3DD66D4F) start) = some (.accepted true) := by decide +kernel
theorem test_idscreen_V50g : retOf (exec (.idscreen 0x3BD41C5B) start) = some (.accepted false) := by decide +kernel
theorem test_screen_V51 :
    (score .zeroFill 0x3DD66D4F (-31), score .zeroFill 0x3DD66D4F (-3), score .zeroFill 0x3DD66D4F 16, score .zeroFill 0x3DD66D4F 31) =
      (12, 17, 16, 11) := by decide +kernel
theorem test_screen_V53_rotate : screenAccepts .rotate 17 0x3BD41C5B = true ∧ screenAccepts .rotate 17 0x3DD66D4F = false := by
  decide +kernel
theorem test_idselect_accepts : retOf (exec .idselect (supply [] [] start)) = some (.ident 0x3DD66D4F) := by decide +kernel

/-! ## The chip behind the pins, each about one operation -/

/-- The chip on channel 40 with packets of 2 bytes and the identity 7, filled with 1, 2, in a mode. -/
def chipX (m : ChipMode) (o : ChipOp) : Chip :=
  { Chip.reset with
    regs := [(3, 1), (15, 40)], ident := some 7, fifo := [(0, 1), (1, 2)], wptr := some 2, rptr := some 0, mode := m, op := o }

/-- The interface to a chip, some premises assumed, with turns of the chip and choices supplied. -/
def ioX (p : Premises) (k : Chip) (counts : List Nat) (choices : List Bool) : Io :=
  { Io.reset with chip := k, env := { Env.reset with premises := p, countIn := counts, choiceIn := choices } }

/-- CP3 and CP4, without CP7. -/
def lateChip : Premises := ⟨false, false, true, true, false, false, false, false⟩

/-- R296: a transmission that has not begun when SETID writes identity 9 goes out under identity 9. -/
theorem test_chip_late_send_R296 :
    let io := ((ioX lateChip (chipX .tx (.pending 1)) [0] []).frame setX (writeByte setX.aId :: toBe32 9) 0).2
    (io.frame setX [readByte setX.aMode] 1).2.chip.sent = [⟨9, 40, [1, 2]⟩] := by decide +kernel

/-- R75: the turns a transmission takes are finite, and BUSY is asserted meanwhile. -/
theorem test_chip_send_ends_R75 :
    let io := (ioX lateChip { chipX .tx (.running 1) with sending := some ⟨7, 40, [1, 2]⟩ } [] []).sampleBusy setX
    io.1 = true ∧ (io.2.sampleBusy setX).1 = false ∧ (io.2.sampleBusy setX).2.chip.sent = [⟨7, 40, [1, 2]⟩] := by decide +kernel

/-- Entry 34: a transmission that another mode strobe cuts off may still go out, and may not. -/
theorem test_chip_cut_off : ∀ b : Bool,
    ((ioX lateChip { chipX .tx (.running 5) with sending := some ⟨7, 40, [1, 2]⟩ } [] [b]).frame setX [strobeByte setX.cPll] 0).2.chip.sent =
      if b then [⟨7, 40, [1, 2]⟩] else [] := by decide +kernel

/-- U11, R74: without CP5 nothing is known of the FIFO once the chip has listened; under CP5 the bytes stay until a packet arrives. -/
theorem test_chip_rx_strobe_U11 : ∀ b : Bool,
    let io := ((ioX ⟨false, false, true, false, b, false, false, false⟩ (chipX .pll .idle) [2] []).frame setX [strobeByte setX.cRx] 0).2
    (io.frame setX [readByte 9] 1).2.chip.fifo = if b then [(0, 1), (1, 2)] else [] := by decide +kernel

/-- R75: a read of A_ID leaves the identity the one last written. -/
theorem test_chip_bare_identity_read_R75 : ((chipX .pll .idle).afterFrame setX [readByte setX.aId] [1, 2, 3, 4]).ident = some 7 := by decide

/-- A chip that listens under CP5, with a packet for identity 7 on the air, and whether it arrives before the next frame. -/
def listeningX (arrives : Bool) : Io :=
  let io := ioX ⟨false, false, true, false, true, false, false, false⟩ (chipX .rx (.running 0)) [] [arrives]
  { io with env := { io.env with airIn := [⟨7, 40, [8, 9], false, false⟩] } }

/-- R76: a bare read while the chip listens does not end the listening; a packet may have arrived before it, and then it is in the FIFO. -/
theorem test_chip_listens_on_R76 : ∀ b : Bool,
    let k := ((listeningX b).frame setX [readByte 9] 1).2.chip
    (k.op, k.fifo) = if b then (.over, [(0, 8), (1, 9)]) else (.running 0, [(0, 1), (1, 2)]) := by decide +kernel

/-- R62, R76: a fill while the chip listens lands at the write pointer; a packet that arrives after it is at positions 0 and 1, and the byte filled in
at position 2 stays. -/
theorem test_chip_fill_while_listening_R62 : ∀ b : Bool,
    let io := { ((listeningX false).frame setX [writeByte setX.aFifo, 5] 0).2 with env.choiceIn := [b] }
    let k := ({ io with env.airIn := [⟨7, 40, [8, 9], false, false⟩] }.frame setX [readByte 9] 1).2.chip
    k.fifo = if b then [(0, 8), (1, 9), (2, 5)] else [(0, 1), (1, 2), (2, 5)] := by decide +kernel

/-- R76: a SETID while the chip listens may come before the packet, and then a packet for the old identity does not arrive. -/
theorem test_chip_listens_for_current_R76 :
    let io := { ((listeningX false).frame setX (writeByte setX.aId :: toBe32 9) 0).2 with env.choiceIn := [true] }
    (io.frame setX [readByte 9] 1).2.chip.op = .running 0 := by decide +kernel

/-- R55: nothing is known of the chip after a write to the register it is reset through. -/
theorem test_chip_reset_R55 :
    let k := (chipX .pll .idle).afterFrame setX [writeByte 0, 0] []
    (k.regs, k.ident, k.fifo, k.wptr, k.rptr, k.mode) = ([], none, [], none, none, .unknown) := by decide

/-! ## Witnesses: for each statement with hypotheses, operands and a state that meet them, at the ends of their ranges -/

/-- `s` with the premises of R72 to R79 assumed. -/
def assumeAll (s : State) : State :=
  { s with io := { s.io with env := { s.io.env with premises := ⟨true, true, true, true, true, true, true, true⟩ } } }

theorem witness_EncodedInstructionsDecodeBack :
    Instr.wellFormed setX (.setlen (-2147483648)) = true ∧ Instr.wellFormed setX (.setlen 2147483647) = true ∧
      Instr.wellFormed setX (.opReserved 9) = true ∧ Instr.wellFormed setX (.wreg 0 [0]) = true ∧
      Instr.wellFormed setX (.pktDatareply ⟨1, 4000, 1, List.replicate 32 0⟩) = true := by decide

theorem witness_DecodedWordsAreLegalAndEncodeBack : decode setX ⟨.command, [6, 0x80, 0, 0, 0], 0⟩ = .ok (.setlen (-2147483648)) := by decide

theorem witness_FrameFieldsAreAssembledAsStated :
    ((1 : Int) ≤ 1 ∧ (1 : Int) ≤ 64 ∧ (lengthByte 1).toNat = 0) ∧ ((1 : Int) ≤ 64 ∧ (64 : Int) ≤ 64 ∧ (lengthByte 64).toNat = 63) := by
  decide

theorem witness_FrameIsOneTransaction :
    start.io.sck = false ∧ [(0xD0 : Byte)] ≠ [] ∧ start.io.chip.mode ≠ .tx ∧ (chipX .tx .idle).mode = .tx ∧ start.io.env.premises.cp4 = false ∧
      start.io.chip.listening = false ∧ (listeningX true).chip.listening = true ∧ (listeningX true).env.premises.cp5 = true ∧
      (listeningX true).chip.unknown = false ∧
      (ioX Premises.none (chipX .rx .strobed) [] []).chip.listening = true ∧ (ioX Premises.none (chipX .rx .strobed) [] []).env.premises.cp5 = false := by
  decide

theorem ordinary_channel : ordinary setX setX.aChannel := by unfold ordinary; decide

theorem witness_FramesChangeOnlyTheBytesWritten :
    ([(9 : Byte)] ≠ [] ∧ [(9 : Byte)] ≠ []) ∧
      (resetReg setX ≠ some 0x0F ∧ (0 : Nat) ≠ (0x0F : Addr).toNat ∧ 0x0F ≠ setX.aFifo ∧ 0x0F ≠ setX.aId) ∧ ordinary setX 0x0F ∧
      (0x06 = setX.aId ∧ 0x06 ≠ setX.aFifo ∧ (toBe32 7).length = 4) ∧
      (0x05 = setX.aFifo ∧ (chipX .pll .idle).wptr = some 2 ∧ (chipX .rx .strobed).listening = true ∧ 2 + (List.replicate 62 (9 : Byte)).length ≤ 64 ∧
        1 < 2 ∧ 2 + (List.replicate 62 (9 : Byte)).length ≤ 64 ∧ 61 < (List.replicate 62 (9 : Byte)).length) ∧
      (Chip.reset.wptr = none ∧ (chipX .rx .strobed).wptr = some 2 ∧ 64 < 2 + (List.replicate 63 (9 : Byte)).length) :=
  ⟨by decide, by decide, ordinary_channel, by decide, by decide, by decide⟩

theorem witness_WriteOperationsComplete : ∀ i ∈ [Instr.wreg 0 [1], .opWreg 0x3F [1]],
    (i = .wreg 0 [1] ∨ i = .opWreg 0x3F [1]) ∧ [(1 : Byte)] ≠ [] := by decide

theorem witness_ReadOperationsComplete : ∀ i ∈ [Instr.rreg 0x3F 1, .opRreg 0x3F 1], (i = .rreg 0x3F 1 ∨ i = .opRreg 0x3F 1) ∧ 0 < 1 := by
  decide

theorem witness_StrobesComplete : start.cfg.cPll = 0xB ∧ start.cfg.cRx = 0xC ∧ start.cfg.cTx = 0xD ∧ start.cfg.cWrst = 0xE ∧
    start.cfg.cRrst = 0xF ∧ start.cfg.codesLegal = true ∧ 0xA ∉ start.cfg.codes ∧ 0 ∉ start.cfg.codes ∧ 0xB ∈ start.cfg.codes ∧
    0xF ∈ start.cfg.codes := by decide

/-- CP3 assumed, the chip listening under CP5 with nothing on the air, or not listening. -/
def drainable (listens : Bool) : State :=
  let p : Premises := ⟨false, false, true, false, listens, false, false, false⟩
  { start with io := ioX p (if listens then chipX .rx (.running 0) else chipX .pll .idle) [] [] }

theorem witness_PointerStrobesResetThePointers :
    setX.codesLegal = true ∧ ∀ b : Bool, [(1 : Byte), 2] ≠ [] ∧ (drainable b).io.env.premises.cp3 = true ∧ (drainable b).io.chip.unknown = false ∧
      (drainable b).io.chip.rptr = some 0 ∧ (∀ j < 2, (drainable b).io.chip.fifo.read (0 + j) = [(1 : Byte), 2][j]?) ∧
      (drainable b).io.chip.listening = b ∧ (drainable b).io.env.premises.cp5 = b ∧ (drainable b).io.env.airIn = [] := by decide

theorem witness_IllegalOperandsAndReservedCommandsAreRefused :
    (List.replicate 3999 (0 : Byte)).length ≠ imageLen ∧ (⟨1, 4032, 0, List.replicate 32 0⟩ : ReplyPacket).wellFormed = false := by
  decide +kernel

/-- All premises assumed and void. -/
def voided (s : State) : State :=
  let a := assumeAll s
  { a with io := { a.io with chip := { a.io.chip with unknown := true } } }

theorem witness_UnconstrainedReadsReturnWhatSdiSupplies :
    [(0x81 : Byte)] ≠ [] ∧ (supply [0x81] [] start).io.env.premises = Premises.none ∧
      (supply [0x81] [] start).io.env.sdiIn = [(0x81 : Byte)].flatMap byteBits ++ [] ∧
      (voided (supply [0x81] [] start)).io.chip.unknown = true ∧ (voided (supply [0x81] [] start)).io.env.premises ≠ Premises.none ∧
      (voided (supply [0x81] [] start)).io.env.sdiIn = [(0x81 : Byte)].flatMap byteBits ++ [] := by decide

/-- Set X lets a chip tell apart what R79 speaks of. -/
theorem calApart_setX : CalApart setX := by constructor <;> decide

theorem seqsLegal_setX : seqsLegal setX := by unfold seqsLegal; decide

/-- INIT held at its settle wait, directly or as part of BOOT, packet length `n` configured. -/
def settling (c : Caller) (n : Int) : State :=
  supply [] [] { start with cfg := { setX with pktlenCfg := n }, tstate := .calibrating, hold := some (.settle c) }

/-- The same under all premises, the calibration begun, its outcomes chosen. -/
def calibrating (b1 b2 b3 : Bool) : State :=
  let s := assumeAll (settling .direct 40)
  { s with io := { s.io with chip := { s.io.chip with cal := .started }, env := { s.io.env with choiceIn := [b1, b2, b3] } } }

theorem witness_InitCompletes :
    ((supply [] [] start).tstate = .uninitialized ∧ (supply [] [] start).hold = none ∧ (supply [] [] start).io.env.settleIn = true :: []) ∧
      (start.tstate = .uninitialized ∧ CalApart start.cfg ∧ seqsLegal start.cfg ∧ start.io.chip.unknown = false) ∧
      (CalApart (calibrating true true true).cfg ∧ ∀ b1 b2 b3, (calibrating b1 b2 b3).agenda = [] ∧
        (calibrating b1 b2 b3).hold = some (.settle .direct) ∧ (calibrating b1 b2 b3).io.env.premises.cp8 = true ∧
        (calibrating b1 b2 b3).io.chip.unknown = false ∧ (calibrating b1 b2 b3).io.chip.cal = .started ∧
        (calibrating b1 b2 b3).io.env.settleIn = true :: [] ∧ (calibrating b1 b2 b3).io.env.choiceIn = b1 :: b2 :: b3 :: []) :=
  ⟨by decide, ⟨rfl, calApart_setX, seqsLegal_setX, rfl⟩, calApart_setX, by decide⟩

theorem witness_InitWaitsForTheSettleTime :
    start.tstate = .uninitialized ∧ ∀ c ∈ [Caller.direct, .loop], (∀ n ∈ [(0 : Int), 1, 64, 65], (settling c n).agenda = [] ∧
      (settling c n).hold = some (.settle c) ∧ (settling c n).io.env.settleIn = true :: []) ∧
      (pktMin ≤ (settling c 1).cfg.pktlenCfg ∧ (settling c 64).cfg.pktlenCfg ≤ pktMax) ∧ (settling c 0).cfg.pktlenCfg < pktMin ∧
      pktMax < (settling c 65).cfg.pktlenCfg := by decide

theorem witness_SetchCompletes : (idle 4).tstate = .idle := rfl
theorem witness_SetidCompletesOrReportsTheMismatch :
    (idle 4).tstate = .idle ∧ be32 0x12 0x34 0x56 0x78 = 0x12345678 ∧ be32 0x12 0x34 0x56 0x79 ≠ 0x12345678 ∧
      (idle 4).cfg.aId ≠ (idle 4).cfg.aFifo := by decide
theorem witness_SetlenCompletesOrReportsTheRange :
    (idle 4).tstate = .idle ∧ ((1 : Int) ≤ 1 ∧ (1 : Int) ≤ 64) ∧ ((1 : Int) ≤ 64 ∧ (64 : Int) ≤ 64) ∧ (0 : Int) < 1 ∧ (64 : Int) < 65 := by
  decide

theorem witness_OperationsInTheWrongStateFault :
    ((idle 4).tstate ≠ .uninitialized ∧ (idle 4).spc = .boot ∧ (idle 4).hold = none ∧ (idle 4).bootFailed = false ∧
      (idle 4).cfg.codesLegal = true) ∧ start.tstate ≠ .idle ∧ (⟨1, 0, 0, List.replicate 32 0⟩ : ReplyPacket).wellFormed = true ∧
      start.hold = none ∧ ({ start with spc := .s1 } : State).spc = .s1 ∧ ({ start with spc := .s2 } : State).spc = .s2 ∧
      ({ start with spc := .s6 } : State).spc = .s6 ∧ ({ start with spc := .s7 } : State).spc = .s7 := by decide

theorem witness_ChannelReadsBackUnderRegisterHold :
    (assumeAll (idle 4)).tstate = .idle ∧ (assumeAll (idle 4)).io.env.premises.cp1 = true ∧ (assumeAll (idle 4)).io.chip.unknown = false ∧
      ordinary (assumeAll (idle 4)).cfg (assumeAll (idle 4)).cfg.aChannel := ⟨rfl, rfl, rfl, ordinary_channel⟩

theorem witness_SetidSucceedsWhenTheChipEchoes :
    (assumeAll (idle 4)).tstate = .idle ∧ (assumeAll (idle 4)).io.env.premises.cp2 = true ∧ (assumeAll (idle 4)).io.chip.unknown = false ∧
      (assumeAll (idle 4)).cfg.aId ≠ (assumeAll (idle 4)).cfg.aFifo := by decide

/-- A reply packet with a payload of zeros. -/
def reply0 : ReplyPacket := ⟨1, 0, 0, List.replicate 32 0⟩

theorem witness_TransmitCompletes :
    (reply0.wellFormed = true ∧ reply0.bytes.length ≤ 40) ∧ (supply [] [false] (idle 40)).tstate = .idle ∧
      (supply [] [false] (idle 40)).hold = none ∧ (supply [] [false] (idle 40)).pktlen = some 40 ∧ setX.codesLegal = true ∧
      (supply [] [false] (idle 40)).io.env.busyIn = false :: [] ∧ (supply [] [false] (idle 40)).io.env.premises.cp4 = false ∧
      false ≠ setX.busyLevel ∧ (supply [] [true] (idle 40)).io.env.busyIn = setX.busyLevel :: [] := by decide

theorem witness_PaddingKeepsThePayloadAndFillsWithZeros :
    [(1 : Byte), 2].length ≤ 4 ∧ 1 < [(1 : Byte), 2].length ∧ ([(1 : Byte), 2].length ≤ 2 ∧ 2 < 4) ∧ ([(1 : Byte), 2].length ≤ 3 ∧ 3 < 4) := by
  decide

theorem witness_TransmitAndReceiveChecksComeFirst :
    ((idle 4).tstate = .idle ∧ (idle 4).pktlen = some 4 ∧ 4 < [(1 : Byte), 2, 3, 4, 5].length) ∧
      ({ idle 4 with pktlen := none } : State).tstate = .idle ∧ ({ idle 4 with pktlen := none } : State).pktlen = none := by decide

theorem witness_ReceiveCompletes :
    (supply [] [false] (idle 2)).tstate = .idle ∧ (supply [] [false] (idle 2)).hold = none ∧
      (supply [] [false] (idle 2)).pktlen = some 2 ∧ (supply [] [false] (idle 2)).io.env.premises.cp5 = false ∧
      (supply [] [false] (idle 2)).io.env.busyIn = false :: [] ∧ false ≠ setX.busyLevel ∧
      (supply [] [true] (idle 2)).io.env.busyIn = setX.busyLevel :: [] := by decide

theorem witness_StatusTestIsCrcThenFec :
    ((0x60 : Byte) &&& setX.mCrcf ≠ 0) ∧ ((0x40 : Byte) &&& setX.mCrcf = 0 ∧ (0x40 : Byte) &&& setX.mFecf ≠ 0) ∧
      ((0x9F : Byte) &&& setX.mCrcf = 0 ∧ (0x9F : Byte) &&& setX.mFecf = 0) := by decide

/-- TX held in its wait, its caller and the next level of BUSY given. -/
def sending (c : Caller) (level : Bool) : State :=
  supply [] [level] { idle 40 with tstate := .transmitting, spc := .s7, hold := some (.sending c) }

/-- RX held in its wait. -/
def waiting (c : Caller) (level : Bool) : State :=
  supply [] [level] { idle 40 with tstate := .receiving, spc := .s2, hold := some (.listening 40 c) }

theorem witness_BusyWaitEndsAtTheFirstDeassertedSample :
    ∀ c ∈ [Caller.direct, .loop], ∀ b ∈ [true, false],
      ((sending c b).agenda = [] ∧ (sending c b).hold = some (.sending c) ∧ (∀ d ∈ [Caller.direct, .loop], Hold.sending c ≠ .settle d) ∧
        ((sending c b).io.sampleBusy (sending c b).cfg).1 = b ∧ (sending c b).io.chip.mode ≠ .rx) ∧
      ((waiting c b).agenda = [] ∧ (waiting c b).hold = some (.listening 40 c) ∧ (∀ d ∈ [Caller.direct, .loop], Hold.listening 40 c ≠ .settle d) ∧
        ((waiting c b).io.sampleBusy (waiting c b).cfg).1 = b) ∧
      (sending c b).io.env.premises.cp4 = false ∧ (sending c b).io.env.premises.cp5 = false ∧ (sending c b).io.env.busyIn = b :: [] ∧
      (voided (sending c b)).agenda = [] ∧ (voided (sending c b)).hold = some (.sending c) ∧ (voided (sending c b)).io.chip.unknown = true ∧
      (voided (sending c b)).io.env.busyIn = b :: [] := by
  decide

/-- The configuration in which a chip can tell apart what R72 to R79 speak of. -/
theorem chipApart_setApart : ChipApart setApart := by constructor <;> decide

/-- Idle under all premises, the chip set to identity 7, channel 40 and packets of `n` bytes, one packet on the air, `k` turns to send. -/
def onAir (n k : Nat) (p : AirPacket) : State :=
  let s := assumeAll (supply [] [false] { idle n with cfg := setApart })
  { s with io := { s.io with
    env := { s.io.env with airIn := [p], countIn := [k] }
    chip := { s.io.chip with regs := [(3, lengthByte n), (15, 40)], ident := some 7 } } }

/-- A state whose chip listens under CP5, a packet on the air or none. -/
def listeningAt (air : List AirPacket) : State :=
  let io := listeningX true
  { start with io := { io with env := { io.env with airIn := air } } }

theorem witness_ReceivedPacketIsReturned :
    (∀ n ∈ [1, 64], ∀ bad ∈ [(false, false), (true, false), (true, true), (false, true)],
      let p : AirPacket := ⟨7, 40, List.replicate n 5, bad.1, bad.2⟩
      let s := onAir n 0 p
      s.tstate = .idle ∧ s.pktlen = some p.payload.length ∧ s.io.chip.unknown = false ∧ s.cfg = setApart ∧ s.io.chip.listening = false ∧
        s.io.env.premises.cp3 = true ∧ s.io.env.premises.cp5 = true ∧ s.io.env.premises.cp6 = true ∧ s.io.env.premises.cp7 = true ∧
        1 ≤ p.payload.length ∧ p.payload.length ≤ 64 ∧
        s.io.chip.regs.read s.cfg.aPktlen.toNat = some (lengthByte p.payload.length) ∧
        s.io.chip.regs.read s.cfg.aChannel.toNat = some p.channel ∧ s.io.chip.ident = some p.identity ∧
        s.io.env.airIn = p :: [] ∧ s.io.env.busyIn = false :: [] ∧ false ≠ s.cfg.busyLevel) ∧
    (∀ air ∈ [[], [(⟨7, 40, [8, 9], false, false⟩ : AirPacket)]],
      let s := listeningAt air
      s.io.env.premises.cp5 = true ∧ s.io.chip.unknown = false ∧ s.io.chip.mode = .rx ∧ s.io.chip.op = .running 0 ∧ s.io.env.airIn = air ∧
        s.io.chip.ident = some 7 ∧ s.io.chip.regs.read s.cfg.aChannel.toNat = some 40) ∧
    ([(1 : Byte)] ≠ [] ∧ resetReg start.cfg ≠ some 0x0F ∧ 0 < 1) :=
  ⟨by decide +kernel, by decide +kernel, by decide⟩

/-- S7 held while the chip sends, `n` turns to go. -/
def finishing (n : Nat) : State := { sending .loop true with io := ioX lateChip (chipX .tx (.running n)) [] [] }

theorem witness_TransmittedPacketIsThePaddedPayload :
    (∀ n ∈ [1, 64], ∀ k ∈ [0, 3],
      let s := onAir n k ⟨7, 40, [], false, false⟩
      s.tstate = .idle ∧ s.agenda = [] ∧ s.pktlen = some n ∧ [(5 : Byte)].length ≤ n ∧ 1 ≤ n ∧ n ≤ 64 ∧ s.io.chip.unknown = false ∧
        s.cfg = setApart ∧ s.io.env.premises.cp3 = true ∧ s.io.env.premises.cp4 = true ∧ s.io.env.premises.cp7 = true ∧
        s.io.chip.listening = false ∧ s.io.sendingNow = false ∧
        s.io.chip.regs.read s.cfg.aPktlen.toNat = some (lengthByte n) ∧ s.io.chip.regs.read s.cfg.aChannel.toNat = some 40 ∧
        s.io.chip.ident = some 7 ∧ s.io.env.countIn = k :: []) ∧
    ((finishing 0).agenda = [] ∧ (finishing 0).hold = some (.sending .loop) ∧ (finishing 0).io.chip.unknown = false ∧
      (finishing 0).io.env.premises.cp4 = true ∧ (finishing 0).io.chip.mode = .tx ∧ (finishing 0).io.chip.op = .running 0) := by
  decide +kernel

/-- Right after reset with packet length `n` configured, the settle time passing. -/
def booting (n : Int) : State := supply [] [] { start with cfg := { setX with pktlenCfg := n } }

theorem witness_BootCompletes :
    (∀ n ∈ [(0 : Int), 1, 64, 65], (booting n).spc = .boot ∧ (booting n).hold = none ∧ (booting n).bootFailed = false ∧
      (booting n).tstate = .uninitialized ∧ (booting n).cfg.codesLegal = true ∧ (booting n).io.env.settleIn = true :: [] ∧
      (booting n).agenda = []) ∧
    (pktMin ≤ (booting 1).cfg.pktlenCfg ∧ (booting 64).cfg.pktlenCfg ≤ pktMax ∧ (booting 0).cfg.pktlenCfg < pktMin ∧
      pktMax < (booting 65).cfg.pktlenCfg) := by decide

theorem witness_AddressStepsComplete :
    (ready.hold = none ∧ ready.tstate = .idle ∧ ready.spc = .s1) ∧ at6.hold = none ∧ at6.tstate = .idle ∧ at6.spc = .s6 := by decide

theorem witness_ReceiveStepCompletes :
    at2.spc = .s2 ∧ at2.hold = none ∧ at2.tstate = .idle ∧ at2.pktlen = some 40 ∧ at2.io.env.premises.cp5 = false ∧
      (supply [] [false] at2).io.env.busyIn = false :: [] ∧ false ≠ at2.cfg.busyLevel ∧
      (supply [] [true] at2).io.env.busyIn = at2.cfg.busyLevel :: [] := by decide

/-- At S3 with a store that holds `n` sessions and has one. -/
def capped (n : Nat) : State :=
  { at3 with cfg := { setX with sessionCapacity := some n }, sess := [⟨9, 0, 1, 7⟩] }

theorem witness_FirstHelloCreatesASession :
    (∀ s ∈ [at3, capped 1, capped 2], s.spc = .s3 ∧ s.hold = none ∧ s.rxpkt.length = helloLen ∧
      sessLookup (decodeHello s.cfg.bitmapOrder s.rxpkt).clientId s.sess = none) ∧
    (at3.cfg.sessionCapacity = none ∧ (capped 1).cfg.sessionCapacity = some 1) ∧
    storeFull at3 = false ∧ storeFull (capped 2) = false ∧ storeFull (capped 1) = true := by decide +kernel

/-- At S3 with a session of the client that said hello, its count given. -/
def served (count : Word) : State := { at3 with sess := [⟨0x3B7279AE, 0, count, 7⟩] }

theorem served_found (n : Word) :
    sessLookup (decodeHello (served n).cfg.bitmapOrder (served n).rxpkt).clientId (served n).sess = some ⟨0x3B7279AE, 0, n, 7⟩ := by
  have h : (decodeHello (served n).cfg.bitmapOrder (served n).rxpkt).clientId = 0x3B7279AE := by
    show (decodeHello .lsbFirst hello41).clientId = _
    decide +kernel
  rw [h]; rfl

theorem witness_LaterHelloUpdatesTheSession :
    (∀ n, (served n).spc = .s3 ∧ (served n).hold = none ∧ (served n).rxpkt.length = helloLen ∧
      sessLookup (decodeHello (served n).cfg.bitmapOrder (served n).rxpkt).clientId (served n).sess = some ⟨0x3B7279AE, 0, n, 7⟩) ∧
    0xFFFFFFFE#32 ≠ 0xFFFFFFFF#32 := ⟨fun n => ⟨rfl, rfl, rfl, served_found n⟩, by decide⟩

theorem witness_SessionStoreKeepsOtherClients :
    (8 : Word) ≠ (⟨7, 0, 1, 0⟩ : Session).clientId ∧ sessWf [⟨3, 0, 1, 0⟩, ⟨9, 0, 1, 0⟩] := by decide

theorem witness_MalformedHelloLeavesTheSessions : ∀ n ∈ [39, 41],
    let s : State := { at3 with rxpkt := List.replicate n 0 }
    s.spc = .s3 ∧ s.hold = none ∧ s.rxpkt.length ≠ helloLen := by decide +kernel

theorem witness_HelloFieldsAreLittleEndianAtTheirOffsets :
    (⟨1, 2, 3, 4, 5, 6, List.replicate 16 0⟩ : HelloPacket).wellFormed = true ∧ hello41.length = helloLen ∧ 0 < missingFlags ∧
      125 < missingFlags := by decide

theorem witness_SnapshotStepCompletes :
    (at4.spc = .s4 ∧ at4.hold = none ∧ at4.image = some ⟨imageM, 0xA1B2C3D4⟩) ∧ ({ at4 with image := none } : State).image = none :=
  ⟨⟨rfl, rfl, rfl⟩, rfl⟩

theorem witness_ChunkSelectionCompletes :
    (∀ fs ∈ [[], [0], [125]], (at5 0xA1B2C3D4 fs).spc = .s5 ∧ (at5 0xA1B2C3D4 fs).hold = none ∧
      (at5 0xA1B2C3D4 fs).hello.missing.length = missingFlags ∧ (at5 0xA1B2C3D4 fs).hello.reportedImageId = (at5 0xA1B2C3D4 fs).snap.id) ∧
    (at5 0x11111111 []).hello.reportedImageId ≠ (at5 0x11111111 []).snap.id ∧
    (0 < missingFlags ∧ (at5 0xA1B2C3D4 [0]).hello.missing[0]? = some true) ∧
    (125 < missingFlags ∧ (at5 0xA1B2C3D4 [125]).hello.missing[125]? = some true ∧
      ∀ j < 125, (at5 0xA1B2C3D4 [125]).hello.missing[j]? = some false) ∧
    (∀ k < missingFlags, (at5 0xA1B2C3D4 []).hello.missing[k]? = some false) := by decide +kernel

theorem witness_ReplyStepCompletes : ∀ len ∈ [39, 40],
    let s : State := { at7 0 0 with pktlen := some len }
    s.spc = .s7 ∧ s.hold = none ∧ s.tstate = .idle ∧ s.pktlen = some len ∧ s.cfg.codesLegal = true := by decide

theorem witness_ImageReadsFillWithZeros :
    (⟨imageM, 0⟩ : Image).bytes.length = imageLen ∧ (15 < 32 ∧ 3984 + 15 < 4000) ∧ (16 < 32 ∧ 4000 ≤ 3984 + 16) := by decide +kernel

theorem witness_OutcomeStepCompletes :
    ((at8 0 1).spc = .s8 ∧ (at8 0 1).hold = none ∧ (at8 0 1).flags = 1) ∧ (at8 160 0).spc = .s8 ∧ (at8 160 0).hold = none ∧
      (at8 160 0).flags ≠ 1 := by decide

theorem witness_ServerStepsAreRefusedAwayFromTheirPhase :
    (ready.spc ≠ .s8 ∧ (sending .loop true).spc = .s7 ∧ (sending .loop true).hold ≠ none) ∧
      (start.spc = .boot ∧ start.hold = none ∧ ({ start with bootFailed := true } : State).bootFailed = true ∧ start.bootFailed = false ∧
        ({ start with cfg := setBad } : State).cfg.codesLegal = false) := by decide

theorem witness_EveryMissingChunkIsServedInAsManyRounds :
    (List.replicate 126 true).length = missingFlags ∧ 125 < (List.replicate 126 true).count true := by decide +kernel

theorem imageM_length : imageM.length = imageLen := by decide +kernel

theorem witness_PublishCompletes : imageM.length = imageLen ∧ [(0 : Byte)].length ≠ imageLen := ⟨imageM_length, by decide⟩

theorem witness_PublicationIsSeenOnlyByTheSnapshot : Instr.s5 ≠ .s4 ∧ ∀ b id, Instr.s5 ≠ .publish b id := ⟨by decide, fun _ _ h => by cases h⟩

theorem witness_HelloPacketIsDecoded : (⟨1, 2, 3, 4, 5, 6, List.replicate 16 0⟩ : HelloPacket).wellFormed = true := by decide

theorem witness_IdscreenAnswersTheTest : ((0 : Nat) ≤ 31 ∧ (31 : Nat) ≤ 31) ∧ (31 : Nat) < 32 ∧ (-31 : Int) ∈ shifts ∧ (31 : Int) ∈ shifts ∧ (31 : Int) ≠ 0 := by decide

theorem witness_IdselectReturnsOnlyAcceptedCandidates :
    acceptsIdentifier setX (setX.idPrefix ++ 0xDD66D4F#28) = true ∧ acceptsIdentifier setX (setX.idPrefix ++ 0xBD41C5B#28) = false ∧
      start.cfg = setX ∧ start.agenda = [] := by
  decide +kernel

theorem witness_StepRunsTheDecodedInstruction :
    let s : State := { ready with agenda := [.request ⟨.bus, [0xD0], 0⟩, .loop] }
    let u : State := { ready with agenda := [.request ⟨.bus, [0xD1], 0⟩] }
    (s.agenda = .request ⟨.bus, [0xD0], 0⟩ :: [.loop] ∧ decode s.cfg ⟨.bus, [0xD0], 0⟩ = .ok (.strobe 0xD)) ∧
      (u.agenda = .request ⟨.bus, [0xD1], 0⟩ :: [] ∧ decode u.cfg ⟨.bus, [0xD1], 0⟩ = .error .reservedFirstByte) ∧
      (ready.agenda = [] ∧ ready.hold = none ∧ decode ready.cfg ready.spc.word = .ok .s1) ∧
      ({ ready with agenda := [.loop] } : State).agenda = .loop :: [] := by decide

theorem witness_LoopMovesByItsPhase :
    ready.agenda = [] ∧ ready.hold = none ∧ ready.spc = .s1 ∧ (sending .loop true).agenda = [] ∧
      (sending .loop true).hold = some (.sending .loop) := by decide

/-- A state of a run past BOOT meets the invariant. -/
theorem inv_ready : Inv ready where
  regsCanonical := by decide
  regsInSpace := by intro x h; cases h
  fifoCanonical := by decide
  fifoInSpace := by intro x h; cases h
  sessCanonical := by decide
  csnHigh := rfl
  sckLow := rfl
  pktlenLegal := by intro n h; cases h; decide
  imageWhole := by
    intro x h
    have e : (⟨imageM, 0xA1B2C3D4⟩ : Image) = x := Option.some.inj h
    rw [show x.bytes = imageM by rw [← e]]
    exact imageM_length
  snapWhole := by decide +kernel
  offsetLegal := by decide
  flagsLegal := by decide
  missingLength := List.length_replicate
  countsPositive := by intro x h; cases h
  position := .inr rfl
  started := fun _ => ⟨rfl, by decide⟩

/-- At S4 with no image published. -/
def noImage : State := { at4 with image := none }

/-- It meets the invariant too. -/
theorem inv_noImage : Inv noImage where
  regsCanonical := inv_ready.regsCanonical
  regsInSpace := inv_ready.regsInSpace
  fifoCanonical := inv_ready.fifoCanonical
  fifoInSpace := inv_ready.fifoInSpace
  sessCanonical := inv_ready.sessCanonical
  csnHigh := rfl
  sckLow := rfl
  pktlenLegal := inv_ready.pktlenLegal
  imageWhole := by intro x h; cases h
  snapWhole := inv_ready.snapWhole
  offsetLegal := inv_ready.offsetLegal
  flagsLegal := inv_ready.flagsLegal
  missingLength := inv_ready.missingLength
  countsPositive := inv_ready.countsPositive
  position := .inr rfl
  started := fun _ => ⟨rfl, by decide⟩

theorem witness_EveryStepKeepsTheInvariant : Inv ready ∧ ∃ t, step ready = .next t := ⟨inv_ready, _, rfl⟩

theorem witness_EveryStepKeepsThePinTiming : PinsTimed ready ∧ ∃ t, step ready = .next t := ⟨⟨rfl, rfl, rfl, rfl, rfl⟩, _, rfl⟩

theorem witness_EveryStepSendsOnlyLegalFrames : Inv ready ∧ FramesLegal ready ∧ ∃ t, step ready = .next t :=
  ⟨inv_ready, ⟨⟨by decide, by decide⟩, fun _ h => by cases h⟩, _, rfl⟩

theorem witness_NothingRecordedIsLost :
    ((∃ t, step (served 1) = .next t) ∧ sessLookup 0x3B7279AE (served 1).sess = some ⟨0x3B7279AE, 0, 1, 7⟩) ∧
      (∃ t, step (voided ready) = .next t) ∧ (voided ready).io.chip.unknown = true := ⟨⟨⟨_, rfl⟩, by decide⟩, ⟨_, rfl⟩, by decide⟩

theorem witness_EachRegisterHasItsWriters : ∃ t, exec (.setch 3) ready = .next t ∧ t.channel ≠ ready.channel :=
  ⟨_, rfl, by decide⟩

theorem inv_booting : Inv (booting 64) where
  regsCanonical := by decide
  regsInSpace := by intro x h; cases h
  fifoCanonical := by decide
  fifoInSpace := by intro x h; cases h
  sessCanonical := by decide
  csnHigh := rfl
  sckLow := rfl
  pktlenLegal := by intro n h; cases h
  imageWhole := by intro x h; cases h
  snapWhole := inv_ready.snapWhole
  offsetLegal := inv_ready.offsetLegal
  flagsLegal := inv_ready.flagsLegal
  missingLength := inv_ready.missingLength
  countsPositive := by intro x h; cases h
  position := .inl rfl
  started := by intro h; exact absurd rfl h

theorem witness_PhasesAndTransceiverStatesMoveAsStated :
    (Inv ready ∧ ∃ t, step ready = .next t) ∧
      Inv (booting 64) ∧ (booting 64).tstate = .uninitialized ∧ (booting 64).io.env.settleIn = true :: [] ∧
        ∃ t, step (booting 64) = .next t ∧ t.tstate = .idle :=
  ⟨witness_EveryStepKeepsTheInvariant, inv_booting, rfl, rfl, _, rfl, by decide +kernel⟩

theorem witness_LoopFaultsOnlyWithoutImageOrOnOverflow :
    Inv noImage ∧ OwnAgents noImage ∧ noImage.spc ≠ .boot ∧ step noImage = .fault .noImage :=
  ⟨inv_noImage, fun t h => absurd h (by simp [noImage, at4, ready, idle, start, State.resetWith]), by decide, rfl⟩

end Sys2Proof.Tests
end

section
/-! `Img(o, n)` (R83): its length, its bytes, and a read that starts past the end of the image. -/

namespace Sys2Proof.Machine

@[simp] theorem Image.length_img (x : Image) (o n : Nat) : (x.img o n).length = n := by
  simp [Image.img]

theorem Image.getElem?_img (x : Image) {o n k : Nat} (hk : k < n) :
    (x.img o n)[k]? = some (if o + k < imageLen then x.bytes.getD (o + k) 0 else 0) := by
  simp [Image.img, hk]

/-- The length of the image makes the default of the model's `getD` unreachable here. -/
theorem Image.getElem?_img_inside (x : Image) {o n k : Nat} (hx : x.bytes.length = imageLen) (hk : k < n)
    (hin : o + k < imageLen) : (x.img o n)[k]? = x.bytes[o + k]? := by
  have hbyte : o + k < x.bytes.length := hx ▸ hin
  rw [x.getElem?_img hk, if_pos hin, List.getD_eq_getElem _ _ hbyte, List.getElem?_eq_getElem hbyte]

theorem Image.getElem?_img_past (x : Image) {o n k : Nat} (hk : k < n) (hpast : imageLen ≤ o + k) :
    (x.img o n)[k]? = some 0 := by
  rw [x.getElem?_img hk, if_neg hpast.not_gt]

theorem Image.img_eq_replicate_of_past (x : Image) {o : Nat} (n : Nat) (ho : imageLen ≤ o) :
    x.img o n = List.replicate n 0 := by
  refine List.eq_replicate_iff.mpr ⟨x.length_img o n, fun b hb => ?_⟩
  obtain ⟨k, hk, rfl⟩ := List.mem_iff_getElem.mp hb
  have hzero := x.getElem?_img_past (by simpa using hk) (ho.trans (Nat.le_add_right o k))
  exact (List.getElem?_eq_some_iff.mp hzero).2

/-- Settles O41: byte by byte on either side of the image's end; a read at 4000 lies wholly past it. -/
theorem imageReadsFillWithZeros : Obligations.ImageReadsFillWithZeros := by
  intro x o n hx
  exact ⟨x.length_img o n, fun _ hk hin => x.getElem?_img_inside hx hk hin,
    fun _ hk hpast => x.getElem?_img_past hk hpast, x.img_eq_replicate_of_past 32 le_rfl⟩

end Sys2Proof.Machine
end

section
/-! The fields of frames (R102) as numbers: the two address bytes, the strobe byte, the packet-length byte of an integer length. -/

namespace Sys2Proof

theorem toNat_writeByte (a : Addr) : (writeByte a).toNat = a.toNat :=
  calc (writeByte a).toNat
    _ = 0 <<< 6 ||| a.toNat := BitVec.toNat_append 0#2 a
    _ = a.toNat := by simp

/-- An address lies below bit 6, so setting that bit adds 64. -/
theorem toNat_readByte (a : Addr) : (readByte a).toNat = a.toNat + 64 :=
  calc (readByte a).toNat
    _ = a.toNat % 2 ^ 8 ||| 64 := by simp [readByte]
    _ = 64 ||| a.toNat := by rw [Nat.mod_eq_of_lt (by omega), Nat.or_comm]
    _ = 64 + a.toNat := (Nat.two_pow_add_eq_or_of_lt a.isLt 1).symm
    _ = a.toNat + 64 := Nat.add_comm _ _

theorem toNat_strobeByte (k : Nibble) : (strobeByte k).toNat = k.toNat * 16 :=
  calc (strobeByte k).toNat
    _ = k.toNat <<< 4 ||| 0 := BitVec.toNat_append k 0#4
    _ = k.toNat * 16 := by rw [Nat.or_zero, Nat.shiftLeft_eq]

end Sys2Proof

namespace Sys2Proof.Machine

/-- `lengthByte_toNat` for the integer operand of R167. -/
theorem toNat_lengthByte_of_range {n : Int} (h1 : 1 ≤ n) (h2 : n ≤ 64) : ((lengthByte n).toNat : Int) = n - 1 := by
  lift n to Nat using by omega
  have hbyte := lengthByte_toNat (n := n) (by omega) (by omega)
  omega

/-- Settles O4: the address, strobe and length bytes as numbers; the identity's four bytes are, both ways, what `toBe32` and `be32List`
are defined to give. -/
theorem frameFieldsAreAssembledAsStated : Obligations.FrameFieldsAreAssembledAsStated :=
  ⟨fun a => ⟨toNat_writeByte a, toNat_readByte a⟩, toNat_strobeByte, fun _ => toNat_lengthByte_of_range,
    fun _ => rfl, fun _ _ _ _ => rfl⟩

end Sys2Proof.Machine
end

section
/-! A byte on the wire (R144): the levels sampled while it is sent or received are its bits in the order of `byteBits`, bit 7 first, with
one clock pulse to a bit. -/

namespace Sys2Proof.Machine

theorem sampledSdo_byteOut (io : Io) (v : Byte) :
    sampledSdo (io.byteOut v).pinTrace = (byteBits v).reverse ++ sampledSdo io.pinTrace :=
  sampledSdo_bitsOut (byteBits v) io

theorem pulses_byteOut (io : Io) (v : Byte) : pulses (io.byteOut v).pinTrace = pulses io.pinTrace + 8 :=
  pulses_bitsOut (byteBits v) io

/-- Whether the chip drives the byte or nothing fixes it, eight levels are sampled, so packing them into a byte loses none. -/
theorem byteBits_byteIn (d : Option Byte) (io : Io) : byteBits (io.byteIn d).1 = (Io.bitsIn (driveBits d) io).1 := by
  obtain ⟨-, -, hlen⟩ := bitsIn_trace (driveBits d) io
  exact byteBits_of_length (hlen.trans (driveBits_length d))

theorem sampledSdi_byteIn (d : Option Byte) (io : Io) :
    sampledSdi (io.byteIn d).2.pinTrace = (byteBits (io.byteIn d).1).reverse ++ sampledSdi io.pinTrace := by
  obtain ⟨-, hsampled, -⟩ := bitsIn_trace (driveBits d) io
  rw [byteBits_byteIn]
  exact hsampled

theorem pulses_byteIn (d : Option Byte) (io : Io) : pulses (io.byteIn d).2.pinTrace = pulses io.pinTrace + 8 := by
  obtain ⟨hpulses, -, -⟩ := bitsIn_trace (driveBits d) io
  rw [driveBits_length] at hpulses
  exact hpulses

/-- Settles O5: in both directions the bits are `byteBits` of the byte, whose positions `bits_index` gives. -/
theorem bytesGoMostSignificantBitFirst : Obligations.BytesGoMostSignificantBitFirst := by
  refine ⟨fun v io => ⟨byteBits v, ?_⟩, fun d io => ⟨byteBits (io.byteIn d).1, ?_⟩⟩
  · obtain ⟨hlen, hbit⟩ := bits_index v
    exact ⟨hlen, hbit, sampledSdo_byteOut io v, pulses_byteOut io v⟩
  · obtain ⟨hlen, hbit⟩ := bits_index (io.byteIn d).1
    exact ⟨hlen, hbit, sampledSdi_byteIn d io, pulses_byteIn d io⟩

end Sys2Proof.Machine
end

section
/-! S5 (R208): what chunk selection answers to a stale client, to a least missing chunk and to a full bitmap, and the step that stores
the answer. -/

namespace Sys2Proof.Machine

/-- A client of another image starts again at chunk 0; its bitmap, which speaks of the other image, is not consulted. -/
theorem selectChunk_of_stale {h : Hello} {id : Word} (hne : h.reportedImageId ≠ id) : selectChunk h id = (0, 0) := by
  rw [selectChunk, if_pos hne]
  rfl

theorem selectChunk_of_firstMissing {h : Hello} {id : Word} {k : Nat} (heq : h.reportedImageId = id)
    (hfirst : firstMissing h.missing = some k) : selectChunk h id = (chunkOffset k, 0) := by
  rw [selectChunk, if_neg (not_not_intro heq), hfirst]
  rfl

theorem selectChunk_of_complete {h : Hello} {id : Word} (heq : h.reportedImageId = id)
    (hfirst : firstMissing h.missing = none) : selectChunk h id = (0, 1) := by
  rw [selectChunk, if_neg (not_not_intro heq), hfirst]
  rfl

/-- The state S5 ends in: the selected offset and flags, and S6 next. -/
def State.chunkSelected (s : State) : State :=
  { s with offset := (selectChunk s.hello s.snap.id).1, flags := (selectChunk s.hello s.snap.id).2, spc := .s6 }

@[simp] theorem State.chunkSelected_offset (s : State) : s.chunkSelected.offset = (selectChunk s.hello s.snap.id).1 := rfl

@[simp] theorem State.chunkSelected_flags (s : State) : s.chunkSelected.flags = (selectChunk s.hello s.snap.id).2 := rfl

theorem exec_s5_of_enabled {s : State} (hspc : s.spc = .s5) (hhold : s.hold = none) : exec .s5 s = .next s.chunkSelected :=
  if_pos ⟨hspc, hhold⟩

/-- Settles O39: the three answers of chunk selection, and the range `selectChunk_cases` gives whichever it is. -/
theorem chunkSelectionCompletes : Obligations.ChunkSelectionCompletes := by
  intro s hspc hhold _
  refine ⟨s.chunkSelected, exec_s5_of_enabled hspc hhold, rfl, fun hstale => ?stale,
    fun heq => ⟨fun k hk hset hclear => ?least, fun hclear => ?complete⟩, selectChunk_cases s.hello s.snap.id⟩
  case stale => simp [selectChunk_of_stale hstale]
  case least =>
    have hfirst : firstMissing s.hello.missing = some k := firstMissing_some hk hset hclear
    simp [selectChunk_of_firstMissing heq hfirst, chunkOffset_toNat hk]
  case complete => simp [selectChunk_of_complete heq (firstMissing_none hclear)]

end Sys2Proof.Machine
end

section
/-! PUBLISH (R230): a whole image replaces the record; a buffer of another length is no legal operand. -/

namespace Sys2Proof.Machine

theorem exec_publish_of_length {b : List Byte} (hb : b.length = imageLen) (id : Word) (s : State) :
    exec (.publish b id) s = .next { s with image := some ⟨b, id⟩ } :=
  if_pos hb

theorem wellFormed_publish_iff (c : Config) (b : List Byte) (id : Word) :
    (Instr.publish b id).wellFormed c = true ↔ b.length = imageLen :=
  decide_eq_true_iff

/-- Settles O45: the operand's length decides both halves. -/
theorem publishCompletes : Obligations.PublishCompletes := by
  intro b id s
  refine ⟨fun hb => exec_publish_of_length hb id s, fun hb c => ?_⟩
  have hillegal : ¬ (Instr.publish b id).wellFormed c = true := mt (wellFormed_publish_iff c b id).mp hb
  exact Bool.eq_false_of_not_eq_true hillegal

end Sys2Proof.Machine
end

section
/-! Decoding and encoding (30_encoding.md sections 2 to 4), port by port: what a port's decoder reads from a word the encoder gives, and
that it accepts no other word. -/

namespace Sys2Proof

/-! ### From an instruction to its word and back -/

theorem decodeBus_writeByte (a : Addr) {l : List Byte} (hl : l ≠ []) : decodeBus (writeByte a :: l) 0 = .ok (.wreg a l) := by
  obtain ⟨d, ds, rfl⟩ := List.exists_cons_of_ne_nil hl
  simp [decodeBus]

theorem decodeBus_readByte (a : Addr) {n : Nat} (hn : 1 ≤ n) : decodeBus [readByte a] n = .ok (.rreg a n) := by
  obtain ⟨m, rfl⟩ := Nat.exists_eq_add_of_le' hn
  simp [decodeBus]

theorem decodeBus_strobeByte (k : Nibble) : decodeBus [strobeByte k] 0 = .ok (.strobe k) := by simp [decodeBus]

@[simp] theorem strobeByte_inj {k k' : Nibble} : strobeByte k = strobeByte k' ↔ k = k' := ⟨strobeByte_injective, congrArg _⟩

/-- Where P14 is legal its five codes are distinct, so the first match of the decoder is the only one. -/
theorem decodeStrobe_codes {c : Config} (h : c.codesLegal = true) :
    decodeStrobe c [strobeByte c.cPll] 0 = .ok .strobePll ∧ decodeStrobe c [strobeByte c.cRx] 0 = .ok .strobeRx ∧
      decodeStrobe c [strobeByte c.cTx] 0 = .ok .strobeTx ∧ decodeStrobe c [strobeByte c.cWrst] 0 = .ok .strobeWrst ∧
      decodeStrobe c [strobeByte c.cRrst] 0 = .ok .strobeRrst := by
  obtain ⟨h1, h2, h3, h4, h5, h6, h7, h8, h9, h10⟩ := Machine.codes_distinct h
  simp [decodeStrobe, h, h1.symm, h2.symm, h3.symm, h4.symm, h5.symm, h6.symm, h7.symm, h8.symm, h9.symm, h10.symm]

/-- A word on the command port is read as its operands, whatever it receives. -/
theorem decode_commandByte (c : Config) (op : Nibble) (args : List Byte) (n : Nat) :
    decode c ⟨.command, commandByte op :: args, n⟩ = decodeOperands op args n := by simp [decode, decodeCommand, commandByte]

theorem toInt_ofInt_of_range {n : Int} (h1 : -2147483648 ≤ n) (h2 : n < 2147483648) : (BitVec.ofInt 32 n).toInt = n := by
  rw [BitVec.toInt_ofInt]
  exact Int.bmod_eq_of_le (by omega) (by omega)

theorem decodeOperands_opReserved {op : Nibble} (h : 9 ≤ op.toNat) : decodeOperands op [] 0 = .ok (.opReserved op) := by
  revert op; decide

theorem decodeFeed_publish {b : List Byte} (h : b.length = imageLen) (id : Word) :
    decodeFeed (toBe32 id ++ b) 0 = .ok (.publish b id) := by simp [decodeFeed, toBe32, h]

theorem decodeHelloPacket_bytes {p : HelloPacket} (h : p.wellFormed = true) : decodeHelloPacket p.bytes 0 = .ok (.pktHello p) := by
  have hl : p.bitmap.length = bitmapBytes := by simpa [HelloPacket.wellFormed] using h
  simp [decodeHelloPacket, HelloPacket.bytes_length, helloFields_bytes, hl, helloHdr, bitmapBytes, helloLen]

theorem decodeReplyPacket_bytes {p : ReplyPacket} (h : p.wellFormed = true) : decodeReplyPacket p.bytes 0 = .ok (.pktDatareply p) := by
  have hl : p.payload.length = chunk := by
    simp only [ReplyPacket.wellFormed, Bool.and_eq_true, decide_eq_true_eq] at h
    exact h.1.1.1
  simp [decodeReplyPacket, ReplyPacket.bytes_length, replyFields_bytes, hl, h, chunk, replyLen]

/-- Settles O1: instruction by instruction, by the decoder of the port its word is presented at. -/
theorem encodedInstructionsDecodeBack : Obligations.EncodedInstructionsDecodeBack := by
  intro c i h
  cases i with
  | wreg a l => exact decodeBus_writeByte a (l := l) (by simpa [Instr.wellFormed] using h)
  | rreg a n => exact decodeBus_readByte a (n := n) (by simpa [Instr.wellFormed] using h)
  | strobe k => exact decodeBus_strobeByte k
  | strobePll => exact (decodeStrobe_codes h).1
  | strobeRx => exact (decodeStrobe_codes h).2.1
  | strobeTx => exact (decodeStrobe_codes h).2.2.1
  | strobeWrst => exact (decodeStrobe_codes h).2.2.2.1
  | strobeRrst => exact (decodeStrobe_codes h).2.2.2.2
  | opWreg a l =>
    obtain ⟨d, ds, rfl⟩ : ∃ d ds, l = d :: ds := List.exists_cons_of_ne_nil (by simpa [Instr.wellFormed] using h)
    simp [encode, command, decode_commandByte, decodeOperands]
  | opRreg a n =>
    obtain ⟨m, rfl⟩ : ∃ m, n = m + 1 := Nat.exists_eq_add_of_le' (by simpa [Instr.wellFormed] using h)
    simp [encode, decode_commandByte, decodeOperands]
  | opReserved op =>
    have hop : 9 ≤ op.toNat := by simpa [Instr.wellFormed] using h
    simp [encode, command, decode_commandByte, decodeOperands_opReserved hop]
  | setlen n =>
    obtain ⟨h1, h2⟩ : -2147483648 ≤ n ∧ n < 2147483648 := by simpa [Instr.wellFormed] using h
    simp [encode, command, decode_commandByte, decodeOperands, toBe32, toInt_ofInt_of_range h1 h2]
  | opStrobe _ | setid _ | setch _ | tx _ | init | rx =>
    simp [encode, command, decode_commandByte, decodeOperands, toBe32]
  | boot | s1 | s2 | s3 | s4 | s5 | s6 | s7 | s8 => rfl
  | publish b id => exact decodeFeed_publish (by simpa [Instr.wellFormed] using h) id
  | idscreen x => simp [decode, encode, decodeScreen, toBe32]
  | idselect => rfl
  | pktHello p => exact decodeHelloPacket_bytes h
  | pktDatareply p => exact decodeReplyPacket_bytes h

/-! ### From a word to its instruction and back -/

/-- A decoder of a port reads only words that the encoder gives, and gives only legal instructions. -/
def ReadsItsWords (c : Config) (p : Port) (out : List Byte) (n : Nat) (r : Except Reject Instr) : Prop :=
  ∀ i, r = .ok i → i.wellFormed c = true ∧ encode c i = ⟨p, out, n⟩

theorem readsItsWords_error {c : Config} {p : Port} {out : List Byte} {n : Nat} {e : Reject} : ReadsItsWords c p out n (.error e) :=
  fun _ h => nomatch h

theorem readsItsWords_ok {c : Config} {p : Port} {out : List Byte} {n : Nat} {i : Instr} (hi : i.wellFormed c = true)
    (he : encode c i = ⟨p, out, n⟩) : ReadsItsWords c p out n (.ok i) :=
  fun _ h => Except.ok.inj h ▸ ⟨hi, he⟩

theorem readsItsWords_ite {c : Config} {p : Port} {out : List Byte} {n : Nat} {q : Prop} [Decidable q] {r r' : Except Reject Instr}
    (h : q → ReadsItsWords c p out n r) (h' : ¬ q → ReadsItsWords c p out n r') : ReadsItsWords c p out n (if q then r else r') := by
  split
  · exact h ‹_›
  · exact h' ‹_›

theorem decodeBus_readsItsWords (c : Config) (out : List Byte) (n : Nat) : ReadsItsWords c .bus out n (decodeBus out n) := by
  unfold decodeBus
  split
  · exact readsItsWords_error
  · next b data =>
    split
    · exact readsItsWords_ite (fun h => readsItsWords_ok rfl (by simp [encode, strobeByte_of_lowNibble _ h])) (fun _ => readsItsWords_error)
    · exact readsItsWords_ite (fun h => readsItsWords_ok rfl (by simp [encode, writeByte_of_kind _ h])) (fun _ => readsItsWords_error)
    · exact readsItsWords_ite (fun h => readsItsWords_ok (by simp [Instr.wellFormed]) (by simp [encode, readByte_of_kind _ h]))
        (fun _ => readsItsWords_error)
    · exact readsItsWords_error

theorem decodeStrobe_readsItsWords (c : Config) (out : List Byte) (n : Nat) : ReadsItsWords c .strobe out n (decodeStrobe c out n) := by
  unfold decodeStrobe
  split
  · next b =>
    refine readsItsWords_ite (fun _ => readsItsWords_error) fun hc => ?_
    have hc : c.codesLegal = true := by simpa using hc
    refine readsItsWords_ite (fun h => readsItsWords_ok hc (by rw [h]; rfl)) fun _ => ?_
    refine readsItsWords_ite (fun h => readsItsWords_ok hc (by rw [h]; rfl)) fun _ => ?_
    refine readsItsWords_ite (fun h => readsItsWords_ok hc (by rw [h]; rfl)) fun _ => ?_
    refine readsItsWords_ite (fun h => readsItsWords_ok hc (by rw [h]; rfl)) fun _ => ?_
    exact readsItsWords_ite (fun h => readsItsWords_ok hc (by rw [h]; rfl)) fun _ => readsItsWords_error
  · exact readsItsWords_error

theorem nibble_of_toNat {op : Nibble} {n : Nat} (h : op.toNat = n) : op = BitVec.ofNat 4 n := by rw [← h]; simp

theorem decodeOperands_readsItsWords (c : Config) (op : Nibble) (args : List Byte) (n : Nat) :
    ReadsItsWords c .command (commandByte op :: args) n (decodeOperands op args n) := by
  unfold decodeOperands
  split
  case h_1 hop =>
    exact readsItsWords_ite (fun h => readsItsWords_ok rfl (by simp [encode, command, writeByte_of_kind _ h, nibble_of_toNat hop]))
      (fun _ => readsItsWords_error)
  case h_2 hop =>
    exact readsItsWords_ite
      (fun h => readsItsWords_ok (by simp [Instr.wellFormed]) (by simp [encode, writeByte_of_kind _ h, nibble_of_toNat hop]))
      (fun _ => readsItsWords_error)
  case h_3 hop =>
    exact readsItsWords_ite (fun h => readsItsWords_ok rfl (by simp [encode, command, zeroNibble_of_codeOf _ h, nibble_of_toNat hop]))
      (fun _ => readsItsWords_error)
  case h_7 q0 q1 q2 q3 hop =>
    have hlo := BitVec.le_toInt (be32 q0 q1 q2 q3)
    have hhi := BitVec.toInt_lt (x := be32 q0 q1 q2 q3)
    refine readsItsWords_ok (by simp [Instr.wellFormed]; omega) ?_
    simp [encode, command, toBe32_be32, nibble_of_toNat hop]
  case h_10 hop =>
    exact readsItsWords_ite (fun h => readsItsWords_ok (by simpa [Instr.wellFormed] using h) rfl) (fun _ => readsItsWords_error)
  case h_11 => exact readsItsWords_error
  all_goals
    next hop => exact readsItsWords_ok rfl (by simp [encode, command, toBe32_be32, nibble_of_toNat hop])

theorem decodeCommand_readsItsWords (c : Config) (out : List Byte) (n : Nat) : ReadsItsWords c .command out n (decodeCommand out n) := by
  unfold decodeCommand
  split
  · exact readsItsWords_error
  · next b args =>
    refine readsItsWords_ite (fun h => ?_) (fun _ => readsItsWords_error)
    simpa [commandByte, zeroNibble_of_codeOf b h] using decodeOperands_readsItsWords c (lowNibble b) args n

theorem byte_of_toNat {b : Byte} {n : Nat} (h : b.toNat = n) : b = BitVec.ofNat 8 n := by rw [← h]; simp

theorem decodePhase_readsItsWords (c : Config) (out : List Byte) (n : Nat) : ReadsItsWords c .phase out n (decodePhase out n) := by
  unfold decodePhase
  split
  · split
    case h_10 => exact readsItsWords_error
    all_goals next h => exact readsItsWords_ok rfl (by rw [byte_of_toNat h]; rfl)
  · exact readsItsWords_error

theorem decodeFeed_readsItsWords (c : Config) (out : List Byte) (n : Nat) : ReadsItsWords c .feed out n (decodeFeed out n) := by
  unfold decodeFeed
  split
  · exact readsItsWords_ite (fun h => readsItsWords_ok (by simpa [Instr.wellFormed] using h) (by simp [encode, toBe32_be32]))
      (fun _ => readsItsWords_error)
  · exact readsItsWords_error

theorem decodeScreen_readsItsWords (c : Config) (out : List Byte) (n : Nat) : ReadsItsWords c .screen out n (decodeScreen out n) := by
  unfold decodeScreen
  split
  · exact readsItsWords_ok rfl (by simp [encode, toBe32_be32])
  · exact readsItsWords_error

theorem decodeSelect_readsItsWords (c : Config) (out : List Byte) (n : Nat) : ReadsItsWords c .select out n (decodeSelect out n) := by
  unfold decodeSelect
  split
  · exact readsItsWords_ok rfl rfl
  · exact readsItsWords_error

theorem decodeHelloPacket_readsItsWords (c : Config) (out : List Byte) (n : Nat) :
    ReadsItsWords c .hello out n (decodeHelloPacket out n) := by
  refine readsItsWords_ite (fun ⟨hn, hl⟩ => readsItsWords_ok ?_ ?_) (fun _ => readsItsWords_error)
  · simp [Instr.wellFormed, HelloPacket.wellFormed, helloFields, hl, helloLen, helloHdr, bitmapBytes]
  · simp [encode, bytes_helloFields out (by rw [hl]; decide), hn]

theorem decodeReplyPacket_readsItsWords (c : Config) (out : List Byte) (n : Nat) :
    ReadsItsWords c .reply out n (decodeReplyPacket out n) :=
  readsItsWords_ite (fun ⟨hn, hl, hw⟩ => readsItsWords_ok hw (by simp [encode, bytes_replyFields out (by rw [hl]; decide), hn]))
    (fun _ => readsItsWords_error)

/-- Settles O2: port by port, each decoder reads only words of its own instructions. -/
theorem decodedWordsAreLegalAndEncodeBack : Obligations.DecodedWordsAreLegalAndEncodeBack := by
  rintro c ⟨port, out, n⟩ i h
  cases port with
  | bus => exact decodeBus_readsItsWords c out n i h
  | strobe => exact decodeStrobe_readsItsWords c out n i h
  | command => exact decodeCommand_readsItsWords c out n i h
  | phase => exact decodePhase_readsItsWords c out n i h
  | feed => exact decodeFeed_readsItsWords c out n i h
  | screen => exact decodeScreen_readsItsWords c out n i h
  | select => exact decodeSelect_readsItsWords c out n i h
  | hello => exact decodeHelloPacket_readsItsWords c out n i h
  | reply => exact decodeReplyPacket_readsItsWords c out n i h

/-- Settles O3: six words written out from R101 and R122 and one word that is none, each computed by the decoder. -/
theorem wordsOfTheSpecDecode : Obligations.WordsOfTheSpecDecode :=
  fun _ => ⟨rfl, rfl, rfl, rfl, rfl, rfl, rfl⟩

end Sys2Proof
end

section
/-! Everything one instruction can write outside the interface, in one lemma over the instructions; the whole-machine rules (10_state.md,
60_exceptions.md section 3, 70_reset_and_hazards.md) are read off it. -/

namespace Sys2Proof.Machine

/-! ### What an instruction writes -/

/-- SETID inside a step (R201, R210): the next step of the loop, or an error taken at the loop boundary. -/
def AddressShape (q : Spc) (s t : State) : Prop :=
  s.tstate = .idle ∧ (t = { s with io := t.io, deviceId := t.deviceId, spc := q } ∨
    ∃ w, t = { s with io := t.io, deviceId := none, spc := .s1, log := s.log ++ w })

/-- A malformed packet, or a hello counted in the client's record (R204 to R206). -/
def HelloShape (s t : State) : Prop :=
  (∃ w, t = { s with io := t.io, spc := .s1, log := s.log ++ w }) ∨
    ∃ (x : Hello) (y : Session) (w : List LogEvent), x.missing.length = missingFlags ∧ y.clientId = x.clientId ∧
      1 ≤ y.receivedCount.toNat ∧
      (∀ z, sessLookup x.clientId s.sess = some z → y.firstSeenAt = z.firstSeenAt ∧ z.receivedCount.toNat ≤ y.receivedCount.toNat) ∧
      t = { s with io := t.io, hello := x, newClient := t.newClient, sess := sessPut y s.sess, spc := .s4, log := s.log ++ w }

/-- The shapes of each instruction that goes on. -/
def ExecShape (s t : State) : Instr → Prop
  | .wreg _ _ | .rreg _ _ | .strobe _ | .strobePll | .strobeRx | .strobeTx | .strobeWrst | .strobeRrst
  | .opWreg _ _ | .opRreg _ _ | .opStrobe _ => t = { s with io := t.io, ret := t.ret }
  | .init => s.tstate = .uninitialized ∧ ∃ io, SettleShape .direct { s with io := io, tstate := .calibrating } t
  | .setch ch => t = { s with io := t.io, channel := some ch, ret := .ok }
  | .setid _ => t = { s with io := t.io, deviceId := t.deviceId, ret := t.ret }
  | .setlen n => ((1 ≤ n ∧ n ≤ 64) ∧ t = { s with io := t.io, pktlen := some n.toNat, ret := .ok }) ∨ t = { s with ret := t.ret }
  | .tx _ | .pktDatareply _ => s.tstate = .idle ∧ TxShape .direct s t
  | .rx => s.tstate = .idle ∧ ∃ len io, s.pktlen = some len ∧ ListenShape len .direct { s with io := io, tstate := .receiving } t
  | .opReserved _ => False
  | .boot => s.spc = .boot ∧ s.tstate = .uninitialized ∧ ∃ io, SettleShape .loop { s with io := io, tstate := .calibrating } t
  | .s1 => s.spc = .s1 ∧ s.hold = none ∧ AddressShape .s2 s t
  | .s2 => s.spc = .s2 ∧ s.tstate = .idle ∧
      ∃ len io, s.pktlen = some len ∧ ListenShape len .loop { s with io := io, tstate := .receiving } t
  | .s3 => s.spc = .s3 ∧ s.hold = none ∧ t.io = { s.io with env := t.io.env } ∧ HelloShape s t
  | .s4 => s.spc = .s4 ∧ s.hold = none ∧ ∃ x, s.image = some x ∧ t = { s with snap := x, spc := .s5 }
  | .s5 => s.spc = .s5 ∧ s.hold = none ∧ t = s.chunkSelected
  | .s6 => s.spc = .s6 ∧ s.hold = none ∧ AddressShape .s7 s t
  | .s7 => s.spc = .s7 ∧ s.hold = none ∧ s.tstate = .idle ∧ TxShape .loop s t
  | .s8 => s.spc = .s8 ∧ s.hold = none ∧ t = { s with spc := .s1, log := s.log ++ [outcomeEvent s] }
  | .publish b id => b.length = imageLen ∧ t = { s with image := some ⟨b, id⟩ }
  | .idscreen _ => t = { s with ret := t.ret }
  | .idselect => t = { s with io := { s.io with env := t.io.env }, ret := t.ret, agenda := t.agenda }
  | .pktHello _ => t.hello.missing.length = missingFlags ∧ t = { s with rxpkt := t.rxpkt, hello := t.hello, ret := t.ret } ∨
      t = { s with rxpkt := t.rxpkt, ret := t.ret }

theorem whenIdle_next {s t u : State} (h : whenIdle s u = .next t) : s.tstate = .idle ∧ t = u := by
  unfold whenIdle at h
  split_ifs at h with hi
  exact ⟨hi, by cases h; rfl⟩

theorem directWrite_shape {a : Addr} {l : List Byte} {s t : State} (h : directWrite a l s = .next t) :
    t = { s with io := t.io, ret := t.ret } := by
  unfold directWrite at h
  split_ifs at h
  cases h; rfl

theorem directRead_shape {a : Addr} {n : Nat} {s t : State} (h : directRead a n s = .next t) :
    t = { s with io := t.io, ret := t.ret } := by
  unfold directRead at h
  split_ifs at h
  cases h; rfl

theorem directStrobe_shape {k : Nibble} {s t : State} (h : directStrobe k s = .next t) :
    t = { s with io := t.io, ret := t.ret } := by cases h; rfl

theorem setid_shape (id : Word) (s : State) : answerDirect (s.setId id) = { s with
    io := (answerDirect (s.setId id)).io, deviceId := (answerDirect (s.setId id)).deviceId, ret := (answerDirect (s.setId id)).ret } := by
  obtain ⟨u, q0, q1, q2, q3, -, hu, hok, hbad⟩ := setId_spec id s
  by_cases he : be32 q0 q1 q2 q3 = id
  · rw [hok he, hu]; rfl
  · rw [hbad he, hu]; rfl

theorem setlen_shape (n : Int) (s : State) :
    ((1 ≤ n ∧ n ≤ 64) ∧ answerDirect (s.setLength n) =
      { s with io := (answerDirect (s.setLength n)).io, pktlen := some n.toNat, ret := .ok }) ∨
    answerDirect (s.setLength n) = { s with ret := (answerDirect (s.setLength n)).ret } := by
  by_cases h : 1 ≤ n ∧ n ≤ 64
  · obtain ⟨hok, ht, -⟩ := setLength_ok h s
    refine .inl ⟨h, ?_⟩
    simp only [answerDirect, hok]
    rw [ht]; rfl
  · exact .inr (by rw [setLength_range (by omega)]; rfl)

theorem setIdStep_address {id : Word} {q : Spc} {cid iid : Option Word} {s t : State} (h : setIdStep id q cid iid s = .next t) :
    AddressShape q s t := by
  obtain ⟨hi, ht | ⟨e, time, ht⟩⟩ := setIdStep_shape h
  · exact ⟨hi, .inl (by rw [ht])⟩
  · exact ⟨hi, .inr ⟨_, ht⟩⟩

theorem decodeHello_missing_length (o : BitmapOrder) (p : List Byte) : (decodeHello o p).missing.length = missingFlags := by
  simp [decodeHello]

theorem execS3_hello {s t : State} (h : execS3 s = .next t) :
    s.spc = .s3 ∧ s.hold = none ∧ t.io = { s.io with env := t.io.env } ∧ HelloShape s t := by
  obtain ⟨hspc, hhold, ⟨e, time, ht⟩ | ⟨-, x, y, isNew, w, hx, hid, hpos, hkeep, ht⟩⟩ := execS3_shape h
  · exact ⟨hspc, hhold, execS3_io h, .inl ⟨_, ht⟩⟩
  · refine ⟨hspc, hhold, execS3_io h, .inr ⟨x, y, w, ?_, hid, hpos, hkeep, ?_⟩⟩
    · rw [hx, decodeHello_missing_length]
    · rw [ht]

/-- An instruction that goes on has one of its shapes. -/
theorem exec_shape {i : Instr} {s t : State} (h : exec i s = .next t) : ExecShape s t i := by
  cases i with
  | wreg a l | opWreg a l => exact directWrite_shape h
  | rreg a n | opRreg a n => exact directRead_shape h
  | strobe k | opStrobe k => exact directStrobe_shape h
  | strobePll | strobeRx | strobeTx | strobeWrst | strobeRrst => exact directStrobe_shape h
  | init => exact initOp_shape h
  | setch ch =>
    obtain ⟨-, rfl⟩ := whenIdle_next h
    rfl
  | setid id =>
    obtain ⟨-, rfl⟩ := whenIdle_next h
    exact setid_shape id s
  | setlen n =>
    obtain ⟨-, rfl⟩ := whenIdle_next h
    exact setlen_shape n s
  | tx l =>
    obtain ⟨hi, -, ht⟩ := txOp_shape h
    exact ⟨hi, ht⟩
  | rx => exact rxOp_shape h
  | opReserved op => cases h
  | boot =>
    obtain ⟨hspc, -, h⟩ := atStep_next h
    split_ifs at h
    exact ⟨hspc, initOp_shape h⟩
  | s1 =>
    obtain ⟨hspc, hhold, h⟩ := atStep_next h
    exact ⟨hspc, hhold, setIdStep_address h⟩
  | s2 =>
    obtain ⟨hspc, -, h⟩ := atStep_next h
    exact ⟨hspc, rxOp_shape h⟩
  | s3 => exact execS3_hello h
  | s4 =>
    obtain ⟨hspc, hhold, h⟩ := atStep_next h
    split at h
    · cases h
    · next x hx => cases h; exact ⟨hspc, hhold, x, hx, rfl⟩
  | s5 =>
    obtain ⟨hspc, hhold, h⟩ := atStep_next h
    cases h
    exact ⟨hspc, hhold, rfl⟩
  | s6 =>
    obtain ⟨hspc, hhold, h⟩ := atStep_next h
    exact ⟨hspc, hhold, setIdStep_address h⟩
  | s7 =>
    obtain ⟨hspc, hhold, h⟩ := atStep_next h
    obtain ⟨hi, -, ht⟩ := txOp_shape h
    exact ⟨hspc, hhold, hi, ht⟩
  | s8 =>
    obtain ⟨hspc, hhold, h⟩ := atStep_next h
    cases h
    exact ⟨hspc, hhold, rfl⟩
  | publish b id =>
    have hb : b.length = imageLen := by
      by_contra hb
      rw [exec, execPublish, if_neg hb] at h
      cases h
    rw [exec_publish_of_length hb] at h
    cases h
    exact ⟨hb, rfl⟩
  | idscreen x => cases h; rfl
  | idselect =>
    rw [exec, execIdselect] at h
    cases h
    split <;> rfl
  | pktHello p =>
    rw [exec, execPktHello] at h
    cases h
    split
    · exact .inl ⟨decodeHello_missing_length _ _, rfl⟩
    · exact .inr rfl
  | pktDatareply p =>
    rw [exec, execPktDatareply] at h
    split_ifs at h
    obtain ⟨hi, -, ht⟩ := txOp_shape h
    exact ⟨hi, ht⟩

end Sys2Proof.Machine
end

section
/-! The invariant (10_state.md) and the pins' timing (R295), kept by every step. The invariant has a half that speaks of the interface, which every
move of the interface keeps, and a half that speaks of the block's own state, which every shape keeps. -/

namespace Sys2Proof.Machine

/-! ### The two halves of the invariant -/

/-- The half of the invariant that speaks of the block's own state, but for the position. -/
structure BlockOk (s : State) : Prop where
  sessCanonical : sessWf s.sess
  pktlenLegal : ∀ n, s.pktlen = some n → 1 ≤ n ∧ n ≤ 64
  imageWhole : ∀ x, s.image = some x → x.bytes.length = imageLen
  snapWhole : s.snap.bytes.length = imageLen
  offsetLegal : s.offset.toNat % chunk = 0 ∧ s.offset.toNat ≤ imageLen
  flagsLegal : s.flags.toNat ≤ 1
  missingLength : s.hello.missing.length = missingFlags
  countsPositive : ∀ x ∈ s.sess, 1 ≤ x.receivedCount.toNat
  started : s.spc ≠ .boot → s.pktlen.isSome = true ∧ s.tstate ≠ .uninitialized

theorem inv_iff (s : State) : Inv s ↔ IoOk s.io ∧ BlockOk s ∧ positionOk s := by
  constructor
  · intro h
    exact ⟨⟨⟨h.regsCanonical, h.regsInSpace, h.fifoCanonical, h.fifoInSpace⟩, h.csnHigh, h.sckLow⟩,
      ⟨h.sessCanonical, h.pktlenLegal, h.imageWhole, h.snapWhole, h.offsetLegal, h.flagsLegal, h.missingLength, h.countsPositive,
        h.started⟩, h.position⟩
  · rintro ⟨hio, hb, hp⟩
    exact ⟨hio.chip.regs, hio.chip.space, hio.chip.fifo, hio.chip.fifoSpace, hb.sessCanonical, hio.csn, hio.sck, hb.pktlenLegal,
      hb.imageWhole, hb.snapWhole, hb.offsetLegal, hb.flagsLegal, hb.missingLength, hb.countsPositive, hp, hb.started⟩

/-- The half of the invariant that speaks of the block's state and its position. -/
def Placed (s : State) : Prop := BlockOk s ∧ positionOk s

/-! ### The waits keep it -/

theorem settleShape_placed {c : Caller} {s t : State} (hb : BlockOk s) (hs : s.tstate = .calibrating) (hc : c = .loop → s.spc = .boot)
    (h : SettleShape c s t) : Placed t := by
  have hidle : s.spc ≠ .boot → s.pktlen.isSome = true ∧ TState.idle ≠ .uninitialized := fun hn => ⟨(hb.started hn).1, by decide⟩
  rcases h with ht | ⟨w, -, ht⟩ | ⟨w, -, ⟨h1, h2⟩, ht⟩ | ⟨w, -, ht⟩ <;> rw [ht]
  · exact ⟨{ hb with }, hs, hc⟩
  · exact ⟨{ hb with started := hidle }, .inr rfl⟩
  · refine ⟨{ hb with started := fun _ => ⟨rfl, nofun⟩, pktlenLegal := fun n hn => ?_ }, .inr rfl⟩
    cases hn
    unfold pktMin at h1
    unfold pktMax at h2
    omega
  · exact ⟨{ hb with started := hidle }, .inr rfl⟩

theorem sendShape_placed {c : Caller} {s t : State} (hb : BlockOk s) (hs : s.tstate = .transmitting) (hc : c = .loop → s.spc = .s7)
    (h : SendShape c s t) : Placed t := by
  have hidle : s.spc ≠ .boot → s.pktlen.isSome = true ∧ TState.idle ≠ .uninitialized := fun hn => ⟨(hb.started hn).1, by decide⟩
  rcases h with ht | ⟨-, ht⟩ | ⟨hl, ht⟩ <;> rw [ht]
  · exact ⟨{ hb with }, hs, hc⟩
  · exact ⟨{ hb with started := hidle }, .inr rfl⟩
  · exact ⟨{ hb with started := fun _ => hidle (by rw [hc hl]; decide) }, .inr rfl⟩

theorem listenShape_placed {len : Nat} {c : Caller} {s t : State} (hb : BlockOk s) (hs : s.tstate = .receiving) (hl : 1 ≤ len ∧ len ≤ 64)
    (hc : c = .loop → s.spc = .s2) (h : ListenShape len c s t) : Placed t := by
  have hidle : s.spc ≠ .boot → s.pktlen.isSome = true ∧ TState.idle ≠ .uninitialized := fun hn => ⟨(hb.started hn).1, by decide⟩
  rcases h with ht | ⟨r, -, ht⟩ | ⟨q, hl, -, ht⟩ | ⟨e, time, hl, ht⟩ <;> rw [ht]
  · exact ⟨{ hb with }, hs, hl.1, hl.2, hc⟩
  · exact ⟨{ hb with started := hidle }, .inr rfl⟩
  · exact ⟨{ hb with started := fun _ => hidle (by rw [hc hl]; decide) }, .inr rfl⟩
  · exact ⟨{ hb with started := fun _ => hidle (by rw [hc hl]; decide) }, .inr rfl⟩

/-- A blocked operation that goes on keeps it. -/
theorem resume_placed {k : Hold} {s : State} (hs : Placed s) (hk : s.hold = some k) : Placed (s.resume k) := by
  obtain ⟨hb, hp⟩ := hs
  rw [positionOk, hk] at hp
  cases k with
  | settle c => exact settleShape_placed hb hp.1 hp.2 (pollSettle_shape c s)
  | sending c => exact sendShape_placed hb hp.1 hp.2 (pollTx_shape c s)
  | listening len c =>
    obtain ⟨ht, h1, h2, hc⟩ := hp
    exact listenShape_placed hb ht ⟨h1, h2⟩ hc (pollRx_shape len c s)

/-! ### The instructions keep it -/

/-- Of the invariant, the block's half looks at `TSTATE` only to tell whether the block has been initialized. -/
theorem BlockOk.withTState {s : State} (hb : BlockOk s) (io : Io) {ts : TState} (hts : ts ≠ .uninitialized) :
    BlockOk { s with io := io, tstate := ts } :=
  { hb with started := fun hn => ⟨(hb.started hn).1, hts⟩ }

/-- With nothing held the position is a matter of `TSTATE` alone. -/
theorem positionOk_of_none {s t : State} (hp : positionOk s) (hs : s.hold = none) (ht : t.hold = none) (hts : t.tstate = s.tstate) :
    positionOk t := by
  rw [positionOk, hs] at hp
  rw [positionOk, ht, hts]
  exact hp

theorem hold_none_of_idle {s : State} (hp : positionOk s) (hi : s.tstate = .idle) : s.hold = none := by
  unfold positionOk at hp
  split at hp
  · assumption
  all_goals exact absurd (hi ▸ hp.1) (by decide)

theorem txShape_placed {c : Caller} {s t : State} (hs : Placed s) (hi : s.tstate = .idle) (hc : c = .loop → s.spc = .s7)
    (h : TxShape c s t) : Placed t := by
  obtain ⟨hb, hp⟩ := hs
  rcases h with ⟨e, -, ht⟩ | ⟨e, time, hl, ht⟩ | ⟨io, h⟩
  · rw [ht]
    exact ⟨{ hb with }, hp⟩
  · have hh := hold_none_of_idle hp hi
    rw [ht]
    exact ⟨{ hb with started := fun _ => hb.started (by rw [hc hl]; decide) }, positionOk_of_none hp hh hh rfl⟩
  · exact sendShape_placed (hb.withTState io (by decide)) rfl hc h

theorem addressShape_placed {q : Spc} {s t : State} (hs : Placed s) (hn : s.spc ≠ .boot) (hh : s.hold = none)
    (h : AddressShape q s t) : Placed t := by
  obtain ⟨hb, hp⟩ := hs
  obtain ⟨-, ht | ⟨w, ht⟩⟩ := h <;> rw [ht] <;>
    exact ⟨{ hb with started := fun _ => hb.started hn }, positionOk_of_none hp hh hh rfl⟩

theorem helloShape_placed {s t : State} (hs : Placed s) (hn : s.spc ≠ .boot) (hh : s.hold = none) (h : HelloShape s t) : Placed t := by
  obtain ⟨hb, hp⟩ := hs
  rcases h with ⟨w, ht⟩ | ⟨x, y, w, hx, -, hy, -, ht⟩ <;> rw [ht]
  · exact ⟨{ hb with started := fun _ => hb.started hn }, positionOk_of_none hp hh hh rfl⟩
  · refine ⟨{ hb with
      sessCanonical := sessWf_put hb.sessCanonical y
      missingLength := hx
      started := fun _ => hb.started hn
      countsPositive := fun z hz => ?_ }, positionOk_of_none hp hh hh rfl⟩
    rcases mem_sessPut hz with rfl | hz
    · exact hy
    · exact hb.countsPositive z hz

/-- What a step of the loop must meet, a direct operation meets. -/
theorem direct_no_loop {q : Prop} (h : Caller.direct = .loop) : q := nomatch h

/-- Every instruction that goes on keeps it. -/
theorem exec_placed {i : Instr} {s t : State} (hs : Placed s) (h : exec i s = .next t) : Placed t := by
  obtain ⟨hb, hp⟩ := hs
  have hshape := exec_shape h
  cases i with
  | wreg | rreg | strobe | strobePll | strobeRx | strobeTx | strobeWrst | strobeRrst | opWreg | opRreg | opStrobe | setch | setid
  | idscreen | idselect =>
    rw [ExecShape] at hshape
    rw [hshape]
    exact ⟨{ hb with }, hp⟩
  | opReserved => exact hshape.elim
  | init =>
    obtain ⟨-, io, hshape⟩ := hshape
    exact settleShape_placed (hb.withTState io (by decide)) rfl direct_no_loop hshape
  | boot =>
    obtain ⟨hspc, -, io, hshape⟩ := hshape
    exact settleShape_placed (hb.withTState io (by decide)) rfl (fun _ => hspc) hshape
  | setlen n =>
    obtain ⟨⟨h1, h2⟩, ht⟩ | ht := hshape <;> rw [ht]
    · refine ⟨{ hb with started := fun hn => ⟨rfl, (hb.started hn).2⟩, pktlenLegal := fun m hm => ?_ }, hp⟩
      cases hm
      omega
    · exact ⟨{ hb with }, hp⟩
  | tx | pktDatareply => exact txShape_placed ⟨hb, hp⟩ hshape.1 direct_no_loop hshape.2
  | rx =>
    obtain ⟨-, len, io, hlen, hshape⟩ := hshape
    exact listenShape_placed (hb.withTState io (by decide)) rfl (hb.pktlenLegal len hlen) direct_no_loop hshape
  | s2 =>
    obtain ⟨hspc, -, len, io, hlen, hshape⟩ := hshape
    exact listenShape_placed (hb.withTState io (by decide)) rfl (hb.pktlenLegal len hlen) (fun _ => hspc) hshape
  | s1 | s6 =>
    obtain ⟨hspc, hhold, hshape⟩ := hshape
    exact addressShape_placed ⟨hb, hp⟩ (by rw [hspc]; decide) hhold hshape
  | s3 =>
    obtain ⟨hspc, hhold, -, hshape⟩ := hshape
    exact helloShape_placed ⟨hb, hp⟩ (by rw [hspc]; decide) hhold hshape
  | s4 =>
    obtain ⟨hspc, hhold, x, hx, ht⟩ := hshape
    rw [ht]
    exact ⟨{ hb with snapWhole := hb.imageWhole x hx, started := fun _ => hb.started (by rw [hspc]; decide) },
      positionOk_of_none hp hhold hhold rfl⟩
  | s5 =>
    obtain ⟨hspc, hhold, rfl⟩ := hshape
    obtain ⟨hoff, hmax, hflags⟩ := selectChunk_cases s.hello s.snap.id
    refine ⟨{ hb with
      offsetLegal := ⟨hoff, hmax⟩
      flagsLegal := ?_
      started := fun _ => hb.started (by rw [hspc]; decide) }, positionOk_of_none hp hhold hhold rfl⟩
    rcases hflags with hf | hf <;> rw [State.chunkSelected_flags, hf] <;> decide
  | s7 =>
    obtain ⟨hspc, -, hi, hshape⟩ := hshape
    exact txShape_placed ⟨hb, hp⟩ hi (fun _ => hspc) hshape
  | s8 =>
    obtain ⟨hspc, hhold, rfl⟩ := hshape
    exact ⟨{ hb with started := fun _ => hb.started (by rw [hspc]; decide) }, positionOk_of_none hp hhold hhold rfl⟩
  | publish b id =>
    obtain ⟨hlen, rfl⟩ := hshape
    refine ⟨{ hb with imageWhole := fun x hx => ?_ }, hp⟩
    cases hx
    exact hlen
  | pktHello =>
    obtain ⟨hm, ht⟩ | ht := hshape <;> rw [ht]
    · exact ⟨{ hb with missingLength := hm }, hp⟩
    · exact ⟨{ hb with }, hp⟩

/-- Settles O54: the interface's half by what a move of the interface keeps, the block's half by the shapes of a step. -/
theorem everyStepKeepsTheInvariant : Obligations.EveryStepKeepsTheInvariant := by
  intro s t hs h
  rw [inv_iff] at hs ⊢
  obtain ⟨hio, hplaced⟩ := hs
  refine ⟨(step_moves (p := False) nofun nofun nofun h).2.ok hio, ?_⟩
  obtain ⟨rest, ⟨k, hk, rfl⟩ | ⟨r, i, -, h⟩⟩ := step_cases h
  · exact resume_placed (s := { s with agenda := rest }) ⟨{ hplaced.1 with }, hplaced.2⟩ hk
  · exact exec_placed (s := { s with agenda := rest }) ⟨{ hplaced.1 with }, hplaced.2⟩ h

/-- Settles O53: at reset every memory is empty, the pins are at rest and `TSTATE` is Uninitialized, whatever the configuration. -/
theorem invariantHoldsAtReset : Obligations.InvariantHoldsAtReset := by
  have hinv : ∀ c, Inv (State.resetWith c) := fun c => by
    refine (inv_iff _).mpr ⟨⟨⟨.nil, nofun, .nil, nofun⟩, rfl, rfl⟩, ⟨.nil, nofun, nofun, ?_, ?_, ?_, ?_, nofun, ?_⟩, .inl rfl⟩
    · exact List.length_replicate
    · exact ⟨rfl, Nat.zero_le _⟩
    · exact Nat.zero_le _
    · exact List.length_replicate
    · exact fun h => absurd rfl h
  have htimed : ∀ c, PinsTimed (State.resetWith c) := fun _ => ⟨rfl, rfl, rfl, rfl, rfl⟩
  exact ⟨hinv _, htimed _, fun c => ⟨hinv c, htimed c⟩⟩

/-! ### Pins and frames -/

/-- Settles O55: a step moves the interface only as the block does, and each such move keeps the timing. -/
theorem everyStepKeepsThePinTiming : Obligations.EveryStepKeepsThePinTiming := by
  rintro s t ⟨htimed, hcsn, hsck, hhigh, hlow⟩ h
  obtain ⟨ht, hc, hk⟩ := (step_moves (p := False) nofun nofun nofun h).2.timed ⟨⟨htimed, hcsn, hsck⟩, hhigh, hlow⟩
  exact ⟨ht.timed, ht.csn, ht.sck, hc, hk⟩

/-- The packet length a held reception drains is at least 1. -/
theorem Inv.holds_no_empty_drain {s : State} (h : Inv s) (c : Caller) : s.hold ≠ some (.listening 0 c) := by
  intro hk
  have hp := h.position
  rw [positionOk, hk] at hp
  exact absurd hp.2.1 (by decide)

/-- Settles O56: with legal register programs and no packet length of 0 every move of the interface sends legal frames. -/
theorem everyStepSendsOnlyLegalFrames : Obligations.EveryStepSendsOnlyLegalFrames := by
  rintro s t hinv ⟨hseqs, hframes⟩ h
  have hlen : s.pktlen ≠ some 0 := fun h0 => absurd (hinv.pktlenLegal 0 h0).1 (by decide)
  obtain ⟨hcfg, hmoves⟩ := step_moves (p := True) (fun _ => hseqs) (fun _ => hlen) (fun _ => hinv.holds_no_empty_drain) h
  exact ⟨hcfg ▸ hseqs, hmoves.legal trivial hframes⟩

/-- Settles O52: each value of the table is the one the model's reset state is written with. -/
theorem resetStateOfTheTable : Obligations.ResetStateOfTheTable := ⟨rfl, rfl, rfl, rfl, rfl, rfl, rfl, rfl, rfl, rfl⟩

end Sys2Proof.Machine
end

section
/-! Who writes what (R265), what is never lost (R43, R47, R50, R141), and how `TSTATE` and `SPC` move (R30, R40). -/

namespace Sys2Proof.Machine

/-! ### The frames of the waits: what INIT, TX and RX leave alone, whoever called them -/

theorem SettleShape.frame_direct {s t : State} (h : SettleShape .direct s t) :
    t = { s with io := t.io, tstate := t.tstate, hold := t.hold, log := t.log, ret := t.ret } := by
  obtain ht | ⟨w, -, ht⟩ | ⟨w, hc, -⟩ | ⟨w, hc, -⟩ := h
  · rw [ht]
  · rw [ht]
  · cases hc
  · cases hc

theorem SettleShape.frame_loop {s t : State} (h : SettleShape .loop s t) :
    t = { s with io := t.io, tstate := t.tstate, hold := t.hold, log := t.log, ret := t.ret, channel := t.channel, pktlen := t.pktlen,
                 bootFailed := t.bootFailed, spc := t.spc } := by
  obtain ht | ⟨w, hc, -⟩ | ⟨w, -, -, ht⟩ | ⟨w, -, ht⟩ := h
  · rw [ht]
  · cases hc
  · rw [ht]
  · rw [ht]

theorem SendShape.frame_direct {s t : State} (h : SendShape .direct s t) :
    t = { s with io := t.io, tstate := t.tstate, hold := t.hold, ret := t.ret } := by
  obtain ht | ⟨-, ht⟩ | ⟨hc, -⟩ := h
  · rw [ht]
  · rw [ht]
  · cases hc

theorem SendShape.frame_loop {s t : State} (h : SendShape .loop s t) :
    t = { s with io := t.io, tstate := t.tstate, hold := t.hold, spc := t.spc } := by
  obtain ht | ⟨hc, -⟩ | ⟨-, ht⟩ := h
  · rw [ht]
  · cases hc
  · rw [ht]

theorem ListenShape.frame_direct {len : Nat} {s t : State} (h : ListenShape len .direct s t) :
    t = { s with io := t.io, tstate := t.tstate, hold := t.hold, ret := t.ret } := by
  obtain ht | ⟨r, -, ht⟩ | ⟨q, hc, -⟩ | ⟨e, time, hc, -⟩ := h
  · rw [ht]
  · rw [ht]
  · cases hc
  · cases hc

theorem ListenShape.frame_loop {len : Nat} {s t : State} (h : ListenShape len .loop s t) :
    t = { s with io := t.io, tstate := t.tstate, hold := t.hold, rxpkt := t.rxpkt, spc := t.spc, log := t.log } := by
  obtain ht | ⟨r, hc, -⟩ | ⟨q, -, -, ht⟩ | ⟨e, time, -, ht⟩ := h
  · rw [ht]
  · cases hc
  · rw [ht]
  · rw [ht]

theorem TxShape.frame_direct {s t : State} (h : TxShape .direct s t) :
    t = { s with io := t.io, tstate := t.tstate, hold := t.hold, ret := t.ret } := by
  obtain ⟨e, -, ht⟩ | ⟨e, time, hc, -⟩ | ⟨io, h⟩ := h
  · rw [ht]
  · cases hc
  · exact h.frame_direct

theorem TxShape.frame_loop {s t : State} (h : TxShape .loop s t) :
    t = { s with io := t.io, tstate := t.tstate, hold := t.hold, spc := t.spc, log := t.log } := by
  obtain ⟨e, hc, -⟩ | ⟨e, time, -, ht⟩ | ⟨io, h⟩ := h
  · cases hc
  · rw [ht]
  · rw [h.frame_loop]

theorem AddressShape.frame {q : Spc} {s t : State} (h : AddressShape q s t) :
    t = { s with io := t.io, deviceId := t.deviceId, spc := t.spc, log := t.log } := by
  obtain ⟨-, ht | ⟨w, ht⟩⟩ := h <;> rw [ht]

theorem HelloShape.frame {s t : State} (h : HelloShape s t) :
    t = { s with io := t.io, hello := t.hello, newClient := t.newClient, sess := t.sess, spc := t.spc, log := t.log } := by
  obtain ⟨w, ht⟩ | ⟨x, y, w, -, -, -, -, ht⟩ := h <;> rw [ht]

/-! ### Each register has its writers (R265) -/

/-- What each instruction may write: the first half of R265's table. -/
theorem exec_writers (i : Instr) (s t : State) (h : exec i s = .next t) :
    (t.sess ≠ s.sess → i = .s3) ∧ (t.image ≠ s.image → ∃ b id, i = .publish b id) ∧ (t.snap ≠ s.snap → i = .s4) ∧
    (t.offset ≠ s.offset ∨ t.flags ≠ s.flags → i = .s5) ∧ (t.newClient ≠ s.newClient → i = .s3) ∧
    (t.hello ≠ s.hello → i = .s3 ∨ ∃ p, i = .pktHello p) ∧ (t.rxpkt ≠ s.rxpkt → i = .s2 ∨ ∃ p, i = .pktHello p) ∧
    (t.channel ≠ s.channel → i = .boot ∨ ∃ ch, i = .setch ch) ∧
    (t.pktlen ≠ s.pktlen → i = .boot ∨ ∃ n, i = .setlen n) ∧
    (t.deviceId ≠ s.deviceId → i = .s1 ∨ i = .s6 ∨ ∃ id, i = .setid id) ∧
    (t.tstate ≠ s.tstate ∨ t.hold ≠ s.hold →
      i ∈ [Instr.init, .boot, .rx, .s2, .s7] ∨ (∃ l, i = .tx l) ∨ ∃ p, i = .pktDatareply p) ∧
    (t.spc ≠ s.spc → i ∈ [Instr.boot, .s1, .s2, .s3, .s4, .s5, .s6, .s7, .s8]) ∧
    (t.bootFailed ≠ s.bootFailed → i = .boot) ∧
    (t.log ≠ s.log → i ∈ [Instr.init, .boot, .s1, .s2, .s3, .s6, .s7, .s8]) ∧
    (t.io.pinTrace ≠ s.io.pinTrace ∨ t.io.history ≠ s.io.history ∨ t.io.chip ≠ s.io.chip → drivesPins i = true) ∧
    t.cfg = s.cfg := by
  have hshape := exec_shape h
  cases i with
  | wreg | rreg | strobe | strobePll | strobeRx | strobeTx | strobeWrst | strobeRrst | opWreg | opRreg | opStrobe | setch | setid
  | idscreen | idselect =>
    rw [ExecShape] at hshape
    rw [hshape]
    simp [drivesPins]
  | opReserved => exact hshape.elim
  | init =>
    obtain ⟨-, io, hshape⟩ := hshape
    rw [hshape.frame_direct]
    simp [drivesPins]
  | boot =>
    obtain ⟨-, -, io, hshape⟩ := hshape
    rw [hshape.frame_loop]
    simp [drivesPins]
  | setlen n => obtain ⟨-, ht⟩ | ht := hshape <;> (rw [ht]; simp [drivesPins])
  | tx | pktDatareply =>
    rw [hshape.2.frame_direct]
    simp [drivesPins]
  | rx =>
    obtain ⟨-, len, io, -, hshape⟩ := hshape
    rw [hshape.frame_direct]
    simp [drivesPins]
  | s1 | s6 =>
    obtain ⟨-, -, hshape⟩ := hshape
    rw [hshape.frame]
    simp [drivesPins]
  | s2 =>
    obtain ⟨-, -, len, io, -, hshape⟩ := hshape
    rw [hshape.frame_loop]
    simp [drivesPins]
  | s3 =>
    obtain ⟨-, -, hio, hshape⟩ := hshape
    rw [hshape.frame, hio]
    simp
  | s4 =>
    obtain ⟨-, -, x, -, ht⟩ := hshape
    rw [ht]
    simp
  | s5 =>
    obtain ⟨-, -, ht⟩ := hshape
    rw [ht, State.chunkSelected]
    simp
  | s7 =>
    obtain ⟨-, -, -, hshape⟩ := hshape
    rw [hshape.frame_loop]
    simp [drivesPins]
  | s8 =>
    obtain ⟨-, -, ht⟩ := hshape
    rw [ht]
    simp
  | publish b id =>
    obtain ⟨-, ht⟩ := hshape
    rw [ht]
    simp
  | pktHello => obtain ⟨-, ht⟩ | ht := hshape <;> rw [ht] <;> simp

/-- What a held operation that goes on may write: the second half. -/
theorem resume_writers (h : Hold) (s t : State) (ht : t = s.resume h) :
    t.sess = s.sess ∧ t.image = s.image ∧ t.snap = s.snap ∧ t.offset = s.offset ∧ t.flags = s.flags ∧ t.newClient = s.newClient ∧
    t.hello = s.hello ∧ t.deviceId = s.deviceId ∧ t.agenda = s.agenda ∧ t.cfg = s.cfg ∧
    (t.rxpkt ≠ s.rxpkt → ∃ n, h = .listening n .loop) ∧
    (t.channel ≠ s.channel ∨ t.pktlen ≠ s.pktlen ∨ t.bootFailed ≠ s.bootFailed → h = .settle .loop) ∧
    (t.spc ≠ s.spc → h.inLoop = true) ∧
    (t.log ≠ s.log → (∃ c, h = .settle c) ∨ ∃ n, h = .listening n .loop) := by
  have hshape : ResumeShape h s t := ht ▸ resume_shape h s
  clear ht
  rcases h with ⟨_ | _⟩ | ⟨_ | _⟩ | ⟨len, _ | _⟩
  case settle.direct => rw [SettleShape.frame_direct hshape]; simp
  case settle.loop => rw [SettleShape.frame_loop hshape]; simp [Hold.inLoop]
  case sending.direct => rw [SendShape.frame_direct hshape]; simp
  case sending.loop => rw [SendShape.frame_loop hshape]; simp [Hold.inLoop]
  case listening.direct => rw [ListenShape.frame_direct hshape]; simp
  case listening.loop => rw [ListenShape.frame_loop hshape]; simp [Hold.inLoop]

/-- Settles O58: the frames of the instructions and of the operations held. -/
theorem eachRegisterHasItsWriters : Obligations.EachRegisterHasItsWriters := ⟨exec_writers, resume_writers⟩

/-! ### Nothing recorded is lost (R43, R47, R50, R141) -/

theorem SettleShape.log_prefix {c : Caller} {s t : State} (h : SettleShape c s t) : s.log <+: t.log := by
  obtain ht | ⟨w, -, ht⟩ | ⟨w, -, -, ht⟩ | ⟨w, -, ht⟩ := h <;> rw [ht] <;> simp

theorem ListenShape.log_prefix {len : Nat} {c : Caller} {s t : State} (h : ListenShape len c s t) : s.log <+: t.log := by
  obtain ht | ⟨r, -, ht⟩ | ⟨q, -, -, ht⟩ | ⟨e, time, -, ht⟩ := h <;> rw [ht]
  exact List.prefix_append _ _

theorem TxShape.log_prefix {s t : State} (h : TxShape .loop s t) : s.log <+: t.log := by
  obtain ⟨e, hc, -⟩ | ⟨e, time, -, ht⟩ | ⟨io, h⟩ := h
  · cases hc
  · rw [ht]; simp
  · rw [h.frame_loop]

theorem AddressShape.log_prefix {q : Spc} {s t : State} (h : AddressShape q s t) : s.log <+: t.log := by
  obtain ⟨-, ht | ⟨w, ht⟩⟩ := h <;> rw [ht]
  exact List.prefix_append _ _

theorem HelloShape.log_prefix {s t : State} (h : HelloShape s t) : s.log <+: t.log := by
  obtain ⟨w, ht⟩ | ⟨x, y, w, -, -, -, -, ht⟩ := h <;> rw [ht] <;> simp

/-- No instruction forgets an event: one that writes `LOG` appends to it (R50). -/
theorem exec_log_prefix {i : Instr} {s t : State} (h : exec i s = .next t) : s.log <+: t.log := by
  by_cases hlog : t.log = s.log
  · rw [hlog]
  obtain ⟨-, -, -, -, -, -, -, -, -, -, -, -, -, hwriter, -⟩ := exec_writers i s t h
  have hi := hwriter hlog
  have hshape := exec_shape h
  simp only [List.mem_cons, List.not_mem_nil, or_false] at hi
  obtain rfl | rfl | rfl | rfl | rfl | rfl | rfl | rfl := hi
  case inl => exact hshape.2.choose_spec.log_prefix
  case inr.inl =>
    obtain ⟨-, -, io, hshape⟩ := hshape
    exact hshape.log_prefix
  case inr.inr.inl => exact hshape.2.2.log_prefix
  case inr.inr.inr.inl =>
    obtain ⟨-, -, len, io, -, hshape⟩ := hshape
    exact hshape.log_prefix
  case inr.inr.inr.inr.inl => exact hshape.2.2.2.log_prefix
  case inr.inr.inr.inr.inr.inl => exact hshape.2.2.log_prefix
  case inr.inr.inr.inr.inr.inr.inl => exact hshape.2.2.2.log_prefix
  case inr.inr.inr.inr.inr.inr.inr => rw [hshape.2.2]; simp

theorem resume_log_prefix (k : Hold) (s : State) : s.log <+: (s.resume k).log := by
  cases k with
  | settle c => exact (pollSettle_shape c s).log_prefix
  | sending c => rcases pollTx_shape c s with ht | ⟨-, ht⟩ | ⟨-, ht⟩ <;> rw [State.resume, ht]
  | listening len c => exact (pollRx_shape len c s).log_prefix

/-- Between two stores no session is lost or rewound: its record stays, with the time it was first seen and no smaller count. -/
def SessionsKept (l m : List Session) : Prop :=
  ∀ k x, sessLookup k l = some x →
    ∃ y, sessLookup k m = some y ∧ y.firstSeenAt = x.firstSeenAt ∧ x.receivedCount.toNat ≤ y.receivedCount.toNat

theorem SessionsKept.refl (l : List Session) : SessionsKept l l := fun _ x h => ⟨x, h, rfl, Nat.le_refl _⟩

/-- S3 touches the record of the client that said hello, and no other (R206). -/
theorem HelloShape.sessionsKept {s t : State} (h : HelloShape s t) : SessionsKept s.sess t.sess := by
  obtain ⟨w, ht⟩ | ⟨x, y, w, -, hid, -, hkeep, ht⟩ := h <;> rw [ht]
  · exact .refl _
  · intro k z hz
    by_cases hk : k = y.clientId
    · subst hk
      exact ⟨y, sessLookup_put_same y s.sess, hkeep z (hid ▸ hz)⟩
    · exact ⟨z, by rw [sessLookup_put_other hk, hz], rfl, Nat.le_refl _⟩

theorem exec_sessionsKept {i : Instr} {s t : State} (h : exec i s = .next t) : SessionsKept s.sess t.sess := by
  by_cases hsess : t.sess = s.sess
  · rw [hsess]
    exact .refl _
  · obtain rfl : i = .s3 := (exec_writers i s t h).1 hsess
    exact (exec_shape h).2.2.2.sessionsKept

/-- Settles O57: the interface's part by its moves; log and sessions by the instructions and the operations held. -/
theorem nothingRecordedIsLost : Obligations.NothingRecordedIsLost := by
  intro s t h
  obtain ⟨hcfg, hio⟩ := step_moves (p := False) nofun nofun nofun h
  refine ⟨hcfg, hio.premises, hio.void, hio.history, ?_⟩
  obtain ⟨rest, ⟨k, hk, rfl⟩ | ⟨r, i, -, h⟩⟩ := step_cases h
  · refine ⟨resume_log_prefix k { s with agenda := rest }, ?_⟩
    rw [(resume_writers k { s with agenda := rest } _ rfl).1]
    exact SessionsKept.refl s.sess
  · exact ⟨exec_log_prefix (s := { s with agenda := rest }) h, exec_sessionsKept (s := { s with agenda := rest }) h⟩

/-! ### How `TSTATE` and `SPC` move (R30, R40) -/

/-- The transitions of R30 but for what leads to Idle. -/
def TStateMoves (a b : TState) : Prop :=
  b = a ∨ b = .idle ∨ a = .uninitialized ∧ b = .calibrating ∨ a = .idle ∧ (b = .transmitting ∨ b = .receiving)

/-- The transitions of R40. -/
def SpcMoves (a b : Spc) : Prop := b = a ∨ b = a.advance ∨ b = .s1 ∧ a ≠ .boot

theorem SpcMoves.boot {a b : Spc} (h : SpcMoves a b) (hb : b = .boot) : a = .boot := by
  subst hb
  cases a <;> simp [SpcMoves, Spc.advance] at h ⊢

/-- A wait leaves `TSTATE` or goes to Idle. -/
theorem SettleShape.tstate {c : Caller} {s t : State} (h : SettleShape c s t) : t.tstate = s.tstate ∨ t.tstate = .idle := by
  obtain ht | ⟨w, -, ht⟩ | ⟨w, -, -, ht⟩ | ⟨w, -, ht⟩ := h <;> rw [ht] <;> simp

theorem SendShape.tstate {c : Caller} {s t : State} (h : SendShape c s t) : t.tstate = s.tstate ∨ t.tstate = .idle := by
  obtain ht | ⟨-, ht⟩ | ⟨-, ht⟩ := h <;> rw [ht] <;> simp

theorem ListenShape.tstate {len : Nat} {c : Caller} {s t : State} (h : ListenShape len c s t) :
    t.tstate = s.tstate ∨ t.tstate = .idle := by
  obtain ht | ⟨r, -, ht⟩ | ⟨q, -, -, ht⟩ | ⟨e, time, -, ht⟩ := h <;> rw [ht] <;> simp

theorem TxShape.tstate {c : Caller} {s t : State} (h : TxShape c s t) :
    t.tstate = s.tstate ∨ t.tstate = .transmitting ∨ t.tstate = .idle := by
  obtain ⟨e, -, ht⟩ | ⟨e, time, -, ht⟩ | ⟨io, h⟩ := h
  · exact .inl (by rw [ht])
  · exact .inl (by rw [ht])
  · exact .inr h.tstate

theorem resume_tstate (k : Hold) (s : State) : TStateMoves s.tstate (s.resume k).tstate := by
  have h : (s.resume k).tstate = s.tstate ∨ (s.resume k).tstate = .idle := by
    cases k with
    | settle c => exact (pollSettle_shape c s).tstate
    | sending c => exact (pollTx_shape c s).tstate
    | listening len c => exact (pollRx_shape len c s).tstate
  exact h.imp_right .inl

theorem initialising_tstate {c : Caller} {io : Io} {s t : State} (hs : s.tstate = .uninitialized)
    (h : SettleShape c { s with io := io, tstate := .calibrating } t) : TStateMoves s.tstate t.tstate := by
  rcases h.tstate with ht | ht
  · exact .inr (.inr (.inl ⟨hs, ht⟩))
  · exact .inr (.inl ht)

theorem receiving_tstate {len : Nat} {c : Caller} {io : Io} {s t : State} (hs : s.tstate = .idle)
    (h : ListenShape len c { s with io := io, tstate := .receiving } t) : TStateMoves s.tstate t.tstate := by
  rcases h.tstate with ht | ht
  · exact .inr (.inr (.inr ⟨hs, .inr ht⟩))
  · exact .inr (.inl ht)

theorem transmitting_tstate {c : Caller} {s t : State} (hs : s.tstate = .idle) (h : TxShape c s t) : TStateMoves s.tstate t.tstate := by
  rcases h.tstate with ht | ht | ht
  · exact .inl ht
  · exact .inr (.inr (.inr ⟨hs, .inl ht⟩))
  · exact .inr (.inl ht)

theorem exec_tstate {i : Instr} {s t : State} (h : exec i s = .next t) : TStateMoves s.tstate t.tstate := by
  by_cases heq : t.tstate = s.tstate
  · exact .inl heq
  obtain ⟨-, -, -, -, -, -, -, -, -, -, hwriter, -⟩ := exec_writers i s t h
  have hshape := exec_shape h
  obtain hi | ⟨l, rfl⟩ | ⟨p, rfl⟩ := hwriter (.inl heq)
  case inr.inl | inr.inr => exact transmitting_tstate hshape.1 hshape.2
  simp only [List.mem_cons, List.not_mem_nil, or_false] at hi
  obtain rfl | rfl | rfl | rfl | rfl := hi
  case inl.inl =>
    obtain ⟨hs, io, hshape⟩ := hshape
    exact initialising_tstate hs hshape
  case inl.inr.inl =>
    obtain ⟨-, hs, io, hshape⟩ := hshape
    exact initialising_tstate hs hshape
  case inl.inr.inr.inl =>
    obtain ⟨hs, len, io, -, hshape⟩ := hshape
    exact receiving_tstate hs hshape
  case inl.inr.inr.inr.inl =>
    obtain ⟨-, hs, len, io, -, hshape⟩ := hshape
    exact receiving_tstate hs hshape
  case inl.inr.inr.inr.inr =>
    obtain ⟨-, -, hs, hshape⟩ := hshape
    exact transmitting_tstate hs hshape

theorem SettleShape.spc {c : Caller} {s t : State} (h : SettleShape c s t) (hs : c = .loop → s.spc = .boot) : SpcMoves s.spc t.spc := by
  obtain ht | ⟨w, -, ht⟩ | ⟨w, hc, -, ht⟩ | ⟨w, -, ht⟩ := h <;> rw [ht]
  case inr.inr.inl => exact .inr (.inl (by rw [hs hc]; rfl))
  all_goals exact .inl rfl

theorem SendShape.spc {c : Caller} {s t : State} (h : SendShape c s t) (hs : c = .loop → s.spc = .s7) : SpcMoves s.spc t.spc := by
  obtain ht | ⟨-, ht⟩ | ⟨hc, ht⟩ := h <;> rw [ht]
  case inr.inr => exact .inr (.inl (by rw [hs hc]; rfl))
  all_goals exact .inl rfl

theorem ListenShape.spc {len : Nat} {c : Caller} {s t : State} (h : ListenShape len c s t) (hs : c = .loop → s.spc = .s2) :
    SpcMoves s.spc t.spc := by
  obtain ht | ⟨r, -, ht⟩ | ⟨q, hc, -, ht⟩ | ⟨e, time, hc, ht⟩ := h <;> rw [ht]
  case inr.inr.inl => exact .inr (.inl (by rw [hs hc]; rfl))
  case inr.inr.inr => exact .inr (.inr ⟨rfl, by rw [hs hc]; decide⟩)
  all_goals exact .inl rfl

theorem TxShape.spc {s t : State} (h : TxShape .loop s t) (hs : s.spc = .s7) : SpcMoves s.spc t.spc := by
  obtain ⟨e, hc, -⟩ | ⟨e, time, -, ht⟩ | ⟨io, h⟩ := h
  · cases hc
  · rw [ht]; exact .inr (.inr ⟨rfl, by rw [hs]; decide⟩)
  · have hmove := SendShape.spc h (fun _ => hs)
    exact hmove

theorem AddressShape.spc {q : Spc} {s t : State} (h : AddressShape q s t) (hs : s.spc ≠ .boot) (hq : s.spc.advance = q) :
    SpcMoves s.spc t.spc := by
  obtain ⟨-, ht | ⟨w, ht⟩⟩ := h <;> rw [ht]
  · exact .inr (.inl hq.symm)
  · exact .inr (.inr ⟨rfl, hs⟩)

theorem HelloShape.spc {s t : State} (h : HelloShape s t) (hs : s.spc = .s3) : SpcMoves s.spc t.spc := by
  obtain ⟨w, ht⟩ | ⟨x, y, w, -, -, -, -, ht⟩ := h <;> rw [ht, hs]
  · exact .inr (.inr ⟨rfl, by decide⟩)
  · exact .inr (.inl rfl)

theorem exec_spc {i : Instr} {s t : State} (h : exec i s = .next t) : SpcMoves s.spc t.spc := by
  by_cases heq : t.spc = s.spc
  · exact .inl heq
  obtain ⟨-, -, -, -, -, -, -, -, -, -, -, hwriter, -⟩ := exec_writers i s t h
  have hi := hwriter heq
  have hshape := exec_shape h
  simp only [List.mem_cons, List.not_mem_nil, or_false] at hi
  obtain rfl | rfl | rfl | rfl | rfl | rfl | rfl | rfl | rfl := hi
  case inl =>
    obtain ⟨hs, -, io, hshape⟩ := hshape
    have hmove := SettleShape.spc hshape (fun _ => hs)
    exact hmove
  case inr.inl =>
    obtain ⟨hs, -, hshape⟩ := hshape
    exact hshape.spc (by rw [hs]; decide) (by rw [hs]; rfl)
  case inr.inr.inl =>
    obtain ⟨hs, -, len, io, -, hshape⟩ := hshape
    have hmove := ListenShape.spc hshape (fun _ => hs)
    exact hmove
  case inr.inr.inr.inl => exact hshape.2.2.2.spc hshape.1
  case inr.inr.inr.inr.inl =>
    obtain ⟨hs, -, x, -, rfl⟩ := hshape
    exact .inr (.inl (by rw [hs]; rfl))
  case inr.inr.inr.inr.inr.inl =>
    obtain ⟨hs, -, rfl⟩ := hshape
    exact .inr (.inl (by rw [hs]; rfl))
  case inr.inr.inr.inr.inr.inr.inl =>
    obtain ⟨hs, -, hshape⟩ := hshape
    exact hshape.spc (by rw [hs]; decide) (by rw [hs]; rfl)
  case inr.inr.inr.inr.inr.inr.inr.inl =>
    obtain ⟨hs, -, -, hshape⟩ := hshape
    exact hshape.spc hs
  case inr.inr.inr.inr.inr.inr.inr.inr =>
    obtain ⟨hs, -, rfl⟩ := hshape
    exact .inr (.inl (by rw [hs]; rfl))

/-- INIT run in one step to its end has looked at a settle time that had passed, and has sent all its frames (R160 to R164). -/
theorem initOp_idle {c : Caller} {s t : State} (h : initOp c s = .next t) (ht : t.tstate = .idle) :
    (∀ b r, s.io.env.settleIn = b :: r → b = true) ∧
      ∃ s1 s2 s3, s.io.history ++ initProgram s.cfg ++
        [readRecord s.cfg.aCalIf [s1], readRecord s.cfg.aCalVcoc [s2], readRecord s.cfg.aCalVcob [s3]] <+: t.io.history := by
  unfold initOp at h
  split_ifs at h
  cases h
  obtain ⟨u, hstart, hu, hprogram, hsettle⟩ := initStart_spec c s
  rw [hstart] at ht ⊢
  obtain ⟨v, hv, hlook, hwait, hdone⟩ := pollSettle_spec c u
  cases hb : u.io.settled.1 with
  | false =>
    rw [hwait hb, hv, hu] at ht
    cases ht
  | true =>
    refine ⟨fun b r hr => (settled_cons (hsettle.trans hr)).symm.trans hb, ?_⟩
    rw [hdone hb]
    obtain ⟨w, s1, s2, s3, hreads, hw, hfinish⟩ := initFinish_spec c { v with hold := none }
    have hcfg : v.cfg = s.cfg := by rw [hv, hu]
    have hhist : w.io.history = s.io.history ++ initProgram s.cfg ++
        [readRecord s.cfg.aCalIf [s1], readRecord s.cfg.aCalVcoc [s2], readRecord s.cfg.aCalVcob [s3]] := by
      rw [hreads.history, hlook.history, hprogram.history, hcfg, List.append_nil]
    refine ⟨s1, s2, s3, ?_⟩
    rw [← hhist, hfinish]
    cases c with
    | direct => exact List.prefix_rfl
    | loop => exact (bootRest_moves (p := False) w).2.history

/-- Idle is entered from Uninitialized only by an instruction that runs the whole of INIT. -/
theorem exec_initialised {i : Instr} {s t : State} (h : exec i s = .next t) (ht : t.tstate = .idle) (hs : s.tstate = .uninitialized) :
    ∃ c, initOp c s = .next t := by
  have hne : t.tstate ≠ s.tstate := by rw [ht, hs]; decide
  obtain ⟨-, -, -, -, -, -, -, -, -, -, hwriter, -⟩ := exec_writers i s t h
  have hshape := exec_shape h
  have hidle : s.tstate ≠ .idle := by rw [hs]; decide
  obtain hi | ⟨l, rfl⟩ | ⟨p, rfl⟩ := hwriter (.inl hne)
  case inr.inl | inr.inr => exact absurd hshape.1 hidle
  simp only [List.mem_cons, List.not_mem_nil, or_false] at hi
  obtain rfl | rfl | rfl | rfl | rfl := hi
  case inl.inl => exact ⟨.direct, h⟩
  case inl.inr.inl =>
    obtain ⟨-, -, h⟩ := atStep_next h
    split_ifs at h
    exact ⟨.loop, h⟩
  case inl.inr.inr.inl => exact absurd hshape.1 hidle
  case inl.inr.inr.inr.inl => exact absurd hshape.2.1 hidle
  case inl.inr.inr.inr.inr => exact absurd hshape.2.2.1 hidle

/-- A held operation that goes on moves `SPC` as R40 lists, from a position that agrees with it; and never back to BOOT from any. -/
theorem resume_spc {k : Hold} {s : State} (hp : positionOk s) (hk : s.hold = some k) : SpcMoves s.spc (s.resume k).spc := by
  rw [positionOk, hk] at hp
  cases k with
  | settle c => exact (pollSettle_shape c s).spc hp.2
  | sending c => exact (pollTx_shape c s).spc hp.2
  | listening len c => exact (pollRx_shape len c s).spc hp.2.2.2

theorem resume_boot {k : Hold} {s : State} (h : (s.resume k).spc = .boot) : s.spc = .boot := by
  have hshape := resume_shape k s
  rcases k with c | c | ⟨len, c⟩
  · obtain ht | ⟨w, -, ht⟩ | ⟨w, -, -, ht⟩ | ⟨w, -, ht⟩ := hshape <;> rw [ht] at h
    case inr.inr.inl => cases h
    all_goals exact h
  · obtain ht | ⟨-, ht⟩ | ⟨-, ht⟩ := hshape <;> rw [ht] at h
    case inr.inr => cases h
    all_goals exact h
  · obtain ht | ⟨r, -, ht⟩ | ⟨q, -, -, ht⟩ | ⟨e, time, -, ht⟩ := hshape <;> rw [ht] at h
    case inr.inr.inl | inr.inr.inr => cases h
    all_goals exact h

/-- In Uninitialized nothing is held. -/
theorem hold_none_of_uninitialized {s : State} (hp : positionOk s) (hs : s.tstate = .uninitialized) : s.hold = none := by
  unfold positionOk at hp
  split at hp
  · assumption
  all_goals exact absurd (hs ▸ hp.1) (by decide)

theorem TStateMoves.rules {a b : TState} (h : TStateMoves a b) :
    (b = .uninitialized → a = .uninitialized) ∧ (b = .calibrating → a = .uninitialized ∨ a = .calibrating) ∧
      (b = .transmitting → a = .idle ∨ a = .transmitting) ∧ (b = .receiving → a = .idle ∨ a = .receiving) := by
  obtain rfl | rfl | ⟨rfl, rfl⟩ | ⟨rfl, rfl | rfl⟩ := h
  case inr.inl => exact ⟨nofun, nofun, nofun, nofun⟩
  case inl => exact ⟨id, .inr, .inr, .inr⟩
  all_goals decide

/-- Settles O59: `TSTATE` and `SPC` over a step, by what an instruction or a held operation does to each. -/
theorem phasesAndTransceiverStatesMoveAsStated : Obligations.PhasesAndTransceiverStatesMoveAsStated := by
  intro s t h
  obtain ⟨rest, ⟨k, hk, rfl⟩ | ⟨r, i, -, h⟩⟩ := step_cases h
  · obtain ⟨h1, h2, h3, h4⟩ := (resume_tstate k { s with agenda := rest }).rules
    refine ⟨h1, h2, h3, h4, fun hinv _ hs => ?_, resume_boot, fun hinv => resume_spc (s := { s with agenda := rest }) hinv.position hk⟩
    rw [hold_none_of_uninitialized hinv.position hs] at hk
    cases hk
  · obtain ⟨h1, h2, h3, h4⟩ := (exec_tstate h).rules
    have hspc := exec_spc h
    refine ⟨h1, h2, h3, h4, fun _ ht hs => ?_, hspc.boot, fun _ => hspc⟩
    obtain ⟨c, hc⟩ := exec_initialised h ht hs
    have hinit := initOp_idle hc ht
    exact hinit

end Sys2Proof.Machine
end

section
/-! One step (00_scope.md section 7, 10_state.md section 4): whose turn it is, and what runs; and where the loop's own steps can fault. -/

namespace Sys2Proof.Machine

/-! ### Whose turn it is -/

theorem step_of_request {r : Request} {rest : List Turn} {s : State} (h : s.agenda = .request r :: rest) :
    step s = runWord r { s with agenda := rest } := by simp only [step, State.nextMove, h]

theorem loopMove_of_none {s : State} (h : s.hold = none) : s.loopMove = .run s.spc.word := by rw [State.loopMove, h]

theorem loopMove_of_some {s : State} {k : Hold} (h : s.hold = some k) : s.loopMove = .resume k := by rw [State.loopMove, h]

theorem agenda_nil {s : State} (h : s.agenda = []) : { s with agenda := [] } = s := by rw [← h]

/-- With nothing scheduled, or with the loop's turn at the head, the loop moves: here in the phase its position names. -/
theorem step_of_phase {rest : List Turn} {s : State} (ha : s.agenda = [] ∧ rest = [] ∨ s.agenda = .loop :: rest) (hh : s.hold = none) :
    step s = runWord s.spc.word { s with agenda := rest } := by
  obtain ⟨ha, rfl⟩ | ha := ha
  · simp only [step, State.nextMove, ha, loopMove_of_none hh, agenda_nil ha]
  · simp only [step, State.nextMove, ha, loopMove_of_none hh]

/-- And here with its operation that is held. -/
theorem step_of_hold {rest : List Turn} {k : Hold} {s : State} (ha : s.agenda = [] ∧ rest = [] ∨ s.agenda = .loop :: rest)
    (hh : s.hold = some k) : step s = .next (({ s with agenda := rest }).resume k) := by
  obtain ⟨ha, rfl⟩ | ha := ha
  · simp only [step, State.nextMove, ha, loopMove_of_some hh, agenda_nil ha]
  · simp only [step, State.nextMove, ha, loopMove_of_some hh]

/-- The same, with nothing scheduled. -/
theorem step_of_held {k : Hold} {s : State} (ha : s.agenda = []) (hh : s.hold = some k) : step s = .next (s.resume k) := by
  rw [step_of_hold (.inl ⟨ha, rfl⟩) hh, agenda_nil ha]

theorem runWord_of_ok {r : Request} {i : Instr} {s : State} (h : decode s.cfg r = .ok i) : runWord r s = exec i s := by
  rw [runWord, h]

theorem runWord_of_error {r : Request} {e : Reject} {s : State} (h : decode s.cfg r = .error e) :
    runWord r s = .refused (.undecodable e) := by rw [runWord, h]

/-- The step of the loop at each phase (R40, R122). -/
def Spc.instr : Spc → Instr
  | .boot => .boot
  | .s1 => .s1
  | .s2 => .s2
  | .s3 => .s3
  | .s4 => .s4
  | .s5 => .s5
  | .s6 => .s6
  | .s7 => .s7
  | .s8 => .s8

theorem decode_spc_word (c : Config) (p : Spc) : decode c p.word = .ok p.instr := by cases p <;> rfl

/-- With nothing held the loop's move is the step its phase names. -/
theorem step_phase {rest : List Turn} {s : State} (ha : s.agenda = [] ∧ rest = [] ∨ s.agenda = .loop :: rest) (hh : s.hold = none) :
    step s = exec s.spc.instr { s with agenda := rest } :=
  (step_of_phase ha hh).trans (runWord_of_ok (decode_spc_word s.cfg s.spc))

/-- Settles O50: a turn's word is decoded, and what it decodes to is run. -/
theorem stepRunsTheDecodedInstruction : Obligations.StepRunsTheDecodedInstruction := by
  intro i w e rest s
  refine ⟨fun ha hd => ?request, fun ha hd => ?undecodable, fun ha hh hd => ?phase, fun ha hh hd => ?loopTurn⟩
  case request => exact (step_of_request ha).trans (runWord_of_ok (s := { s with agenda := rest }) hd)
  case undecodable => exact (step_of_request ha).trans (runWord_of_error (s := { s with agenda := rest }) hd)
  case phase => rw [step_of_phase (.inl ⟨ha, rfl⟩) hh, agenda_nil ha, runWord_of_ok hd]
  case loopTurn => exact (step_of_phase (.inr ha) hh).trans (runWord_of_ok (s := { s with agenda := rest }) hd)

/-- Settles O51: the held operation, or the step of the phase. -/
theorem loopMovesByItsPhase : Obligations.LoopMovesByItsPhase := by
  intro s k ha
  refine ⟨step_of_held ha, fun hh => ?_⟩
  have hphase : ∀ p, s.spc = p → step s = exec p.instr s := by
    rintro p rfl
    rw [step_phase (.inl ⟨ha, rfl⟩) hh, agenda_nil ha]
  exact ⟨hphase .boot, hphase .s1, hphase .s2, hphase .s3, hphase .s4, hphase .s5, hphase .s6, hphase .s7, hphase .s8⟩

/-! ### Where the loop can fault (R31, R262) -/

theorem setIdStep_of_idle (id : Word) (q : Spc) (cid iid : Option Word) {s : State} (hi : s.tstate = .idle) :
    ∃ t, setIdStep id q cid iid s = .next t := ⟨_, if_pos hi⟩

theorem rxOp_of_idle (c : Caller) {s : State} {len : Nat} (hi : s.tstate = .idle) (hl : s.pktlen = some len) :
    rxOp c s = .next (s.rxStart c len) := by rw [rxOp, if_pos hi, hl]

theorem txOp_of_idle (c : Caller) (l : List Byte) {s : State} {len : Nat} (hi : s.tstate = .idle) (hl : s.pktlen = some len) :
    txOp c l s = .next (if len < l.length then s.raiseTo c (.sizeError l.length len) (fun s => s.takeErrorServed (.sizeError l.length len))
      else s.txSend c len l) := by rw [txOp, if_pos hi, hl]

theorem atStep_of_enabled {p : Spc} {s : State} (r : Result) (hs : s.spc = p) (hh : s.hold = none) : atStep p s r = r :=
  if_pos ⟨hs, hh⟩

/-- S3 faults only where the client's count is full (R206). -/
theorem exec_s3_fault {s : State} {f : Fault} (h : exec .s3 s = .fault f) : f = .countOverflow := by
  rw [exec, execS3, atStep, acceptHello] at h
  split_ifs at h
  cases h
  rfl

/-- A step of the loop that Idle, a known packet length and its own phase enable. -/
theorem phase_fault {s : State} {f : Fault} {len : Nat} (hh : s.hold = none) (hi : s.tstate = .idle) (hl : s.pktlen = some len)
    (hb : s.spc ≠ .boot) (h : exec s.spc.instr s = .fault f) :
    f = .noImage ∧ s.spc = .s4 ∧ s.image = none ∨ f = .countOverflow ∧ s.spc = .s3 := by
  cases hp : s.spc <;> rw [hp] at h
  case boot => exact absurd hp hb
  case s1 =>
    obtain ⟨t, ht⟩ := setIdStep_of_idle s.cfg.gatewayId .s2 none none hi
    rw [Spc.instr, exec, execS1, atStep_of_enabled _ hp hh, ht] at h
    cases h
  case s2 =>
    rw [Spc.instr, exec, execS2, atStep_of_enabled _ hp hh, rxOp_of_idle .loop hi hl] at h
    cases h
  case s3 => exact .inr ⟨exec_s3_fault h, rfl⟩
  case s4 =>
    rw [Spc.instr, exec, execS4, atStep_of_enabled _ hp hh] at h
    cases himg : s.image with
    | none => rw [himg] at h; cases h; exact .inl ⟨rfl, rfl, rfl⟩
    | some x => rw [himg] at h; cases h
  case s5 =>
    rw [Spc.instr, exec_s5_of_enabled hp hh] at h
    cases h
  case s6 =>
    obtain ⟨t, ht⟩ := setIdStep_of_idle s.hello.clientId .s7 (some s.hello.clientId) (some s.snap.id) hi
    rw [Spc.instr, exec, execS6, atStep_of_enabled _ hp hh, ht] at h
    cases h
  case s7 =>
    rw [Spc.instr, exec, execS7, atStep_of_enabled _ hp hh, txOp_of_idle .loop _ hi hl] at h
    cases h
  case s8 =>
    rw [Spc.instr, exec, execS8, atStep_of_enabled _ hp hh] at h
    cases h

theorem exec_publish_no_fault (b : List Byte) (id : Word) (s : State) (f : Fault) : exec (.publish b id) s ≠ .fault f := by
  rw [exec, execPublish]
  split <;> exact nofun

/-- Past BOOT, with nothing held, the invariant leaves Idle only, and a known packet length. -/
theorem Inv.loop_ready {s : State} (h : Inv s) (hb : s.spc ≠ .boot) (hh : s.hold = none) :
    s.tstate = .idle ∧ ∃ len, s.pktlen = some len := by
  obtain ⟨hlen, hne⟩ := h.started hb
  have hp := h.position
  rw [positionOk, hh] at hp
  exact ⟨hp.resolve_left hne, Option.isSome_iff_exists.mp hlen⟩

/-- Settles O60: the feed's turn never faults, a held operation goes on, and the invariant enables the steps of the loop. -/
theorem loopFaultsOnlyWithoutImageOrOnOverflow : Obligations.LoopFaultsOnlyWithoutImageOrOnOverflow := by
  intro s f hinv hown hb h
  have hloop : ∀ rest, (s.agenda = [] ∧ rest = [] ∨ s.agenda = .loop :: rest) →
      f = .noImage ∧ s.spc = .s4 ∧ s.image = none ∨ f = .countOverflow ∧ s.spc = .s3 := by
    intro rest ha
    cases hh : s.hold with
    | some k =>
      rw [step_of_hold ha hh] at h
      cases h
    | none =>
      obtain ⟨hi, len, hl⟩ := hinv.loop_ready hb hh
      rw [step_phase ha hh] at h
      exact phase_fault (s := { s with agenda := rest }) hh hi hl hb h
  cases ha : s.agenda with
  | nil => exact hloop [] (.inl ⟨ha, rfl⟩)
  | cons turn rest =>
    cases turn with
    | loop => exact hloop rest (.inr ha)
    | request r =>
      obtain ⟨b, id, hd⟩ := hown (.request r) (by simp [ha])
      rw [step_of_request ha, runWord_of_ok (s := { s with agenda := rest }) hd] at h
      exact absurd h (exec_publish_no_fault b id _ f)

end Sys2Proof.Machine
end

section
/-! What is refused, what faults, and the checks that come before any frame (R31, R122, R181, R185, R262, D15, D17, D19). -/

namespace Sys2Proof.Machine

/-- Settles O12: each refusal is the test its instruction begins with. -/
theorem illegalOperandsAndReservedCommandsAreRefused : Obligations.IllegalOperandsAndReservedCommandsAreRefused := by
  intro a op b id p s
  refine ⟨rfl, rfl, rfl, rfl, rfl, fun hb => if_neg hb, fun hp => ?_⟩
  exact if_neg (by rw [hp]; decide)

theorem initOp_wrongState (c : Caller) {s : State} (h : s.tstate ≠ .uninitialized) : initOp c s = .fault .notInState := if_neg h

theorem whenIdle_wrongState {s : State} (t : State) (h : s.tstate ≠ .idle) : whenIdle s t = .fault .notInState := if_neg h

theorem txOp_wrongState (c : Caller) (l : List Byte) {s : State} (h : s.tstate ≠ .idle) : txOp c l s = .fault .notInState := if_neg h

theorem rxOp_wrongState (c : Caller) {s : State} (h : s.tstate ≠ .idle) : rxOp c s = .fault .notInState := if_neg h

theorem setIdStep_wrongState (id : Word) (q : Spc) (cid iid : Option Word) {s : State} (h : s.tstate ≠ .idle) :
    setIdStep id q cid iid s = .fault .notInState := if_neg h

/-- BOOT runs INIT where start-up has not ended and P14 is legal (R285). -/
theorem exec_boot_of_enabled {s : State} (hs : s.spc = .boot) (hh : s.hold = none) (hf : s.bootFailed = false)
    (hc : s.cfg.codesLegal = true) : exec .boot s = initOp .loop s := by
  rw [exec, execBoot, atStep_of_enabled _ hs hh, hf, if_neg (by decide), if_pos hc]

/-- Settles O19: `TSTATE` is the first test of each operation, and of the steps once they are enabled. -/
theorem operationsInTheWrongStateFault : Obligations.OperationsInTheWrongStateFault := by
  intro ch id n l p s
  refine ⟨fun hne => ⟨initOp_wrongState _ hne, fun hs hh hf hc => ?boot⟩, fun hne => ⟨whenIdle_wrongState _ hne, whenIdle_wrongState _ hne,
    whenIdle_wrongState _ hne, txOp_wrongState _ _ hne, rxOp_wrongState _ hne, fun hp => ?reply, fun hh => ?steps⟩⟩
  case boot => rw [exec_boot_of_enabled hs hh hf hc, initOp_wrongState _ hne]
  case reply => rw [exec, execPktDatareply, if_pos hp, txOp_wrongState _ _ hne]
  case steps =>
    refine ⟨fun hs => ?_, fun hs => ?_, fun hs => ?_, fun hs => ?_⟩ <;> refine (atStep_of_enabled _ hs hh).trans ?_
    · exact setIdStep_wrongState _ _ _ _ hne
    · exact rxOp_wrongState _ hne
    · exact setIdStep_wrongState _ _ _ _ hne
    · exact txOp_wrongState _ _ hne

theorem atStep_refused {p : Spc} {s : State} (r : Result) (h : s.spc ≠ p ∨ s.hold ≠ none) : atStep p s r = .refused .notEnabled :=
  if_neg (by tauto)

/-- Settles O43: each step tests its phase and that nothing is held; BOOT then tests whether start-up has ended, and P14. -/
theorem serverStepsAreRefusedAwayFromTheirPhase : Obligations.ServerStepsAreRefusedAwayFromTheirPhase := by
  intro i p s hip
  refine ⟨fun h => ?away, fun hs hh => ⟨fun hf => ?ended, fun hf hc => ?codes⟩⟩
  case away =>
    simp only [List.mem_cons, Prod.mk.injEq, List.not_mem_nil, or_false] at hip
    obtain ⟨rfl, rfl⟩ | ⟨rfl, rfl⟩ | ⟨rfl, rfl⟩ | ⟨rfl, rfl⟩ | ⟨rfl, rfl⟩ | ⟨rfl, rfl⟩ | ⟨rfl, rfl⟩ | ⟨rfl, rfl⟩ | ⟨rfl, rfl⟩ := hip <;>
      exact atStep_refused _ h
  case ended => rw [exec, execBoot, atStep_of_enabled _ hs hh, if_pos hf]
  case codes => rw [exec, execBoot, atStep_of_enabled _ hs hh, hf, hc, if_neg (by decide), if_neg (by decide)]

/-- Settles O23: on either side of the payload's end. -/
theorem paddingKeepsThePayloadAndFillsWithZeros : Obligations.PaddingKeepsThePayloadAndFillsWithZeros := by
  intro len l h
  refine ⟨padTo_length h, fun k hk => ?payload, fun k hlo hhi => ?fill⟩
  case payload => exact List.getElem?_append_left hk
  case fill =>
    rw [padTo, List.getElem?_append_right hlo, List.getElem?_replicate_of_lt]
    omega

/-- Settles O24: the packet length is looked up after `TSTATE`, and compared before any frame. -/
theorem transmitAndReceiveChecksComeFirst : Obligations.TransmitAndReceiveChecksComeFirst := by
  intro l len s hi
  refine ⟨fun hl hlt => ?size, fun hl => ⟨?tx, ?rx⟩⟩
  case size =>
    rw [exec, execTx, txOp_of_idle .direct l hi hl, if_pos hlt]
    rfl
  case tx => rw [exec, execTx, txOp, if_pos hi, hl]
  case rx => rw [exec, execRx, rxOp, if_pos hi, hl]

/-- Settles O26: the two tests of `rxError`, in their order. -/
theorem statusTestIsCrcThenFec : Obligations.StatusTestIsCrcThenFec := by
  intro c m
  refine ⟨fun hcrc => ?crc, fun hcrc hfec => ?fec, fun hcrc hfec => ?good⟩
  case crc => simpa [rxError, crcFailed] using hcrc
  case fec => simpa [rxError, crcFailed, fecFailed, hcrc] using hfec
  case good => simp [rxError, crcFailed, fecFailed, hcrc, hfec]

end Sys2Proof.Machine
end

section
/-! The steps of the loop that send no frame (R203 to R208, R213), the session store (R43, R64) and the hello packet (R65, R66, R111, R204). -/

namespace Sys2Proof.Machine

theorem exec_s3_of_malformed {s : State} (hs : s.spc = .s3) (hh : s.hold = none) (hl : s.rxpkt.length ≠ helloLen) :
    exec .s3 s = .next (s.takeError (.protocolError s.rxpkt.length) none none) :=
  (atStep_of_enabled _ hs hh).trans (if_neg hl)

theorem exec_s3_of_hello {s : State} (hs : s.spc = .s3) (hh : s.hold = none) (hl : s.rxpkt.length = helloLen) :
    exec .s3 s = acceptHello (decodeHello s.cfg.bitmapOrder s.rxpkt) s :=
  (atStep_of_enabled _ hs hh).trans (if_pos hl)

/-- Settles O36: a packet of another length is an error taken at the loop boundary. -/
theorem malformedHelloLeavesTheSessions : Obligations.MalformedHelloLeavesTheSessions := by
  intro s hs hh hl
  obtain ⟨time, ht, -, hno⟩ := takeError_spec (.protocolError s.rxpkt.length) none none s
  exact ⟨_, time, exec_s3_of_malformed hs hh hl, hno, ht⟩

/-- Settles O38: S4 looks at the image record and nothing else. -/
theorem snapshotStepCompletes : Obligations.SnapshotStepCompletes := by
  intro x s hs hh
  refine ⟨fun hx => ?_, fun hx => ?_⟩ <;> rw [exec, execS4, atStep_of_enabled _ hs hh, hx]

/-- Settles O42: the event of the flags, then S1. -/
theorem outcomeStepCompletes : Obligations.OutcomeStepCompletes := by
  intro s hs hh
  have h8 : exec .s8 s = .next { s.logAll [outcomeEvent s] with spc := .s1 } := atStep_of_enabled _ hs hh
  refine ⟨fun hf => ?_, fun hf => ?_⟩
  · rw [h8, outcomeEvent, if_pos (show s.flags = 1#16 from hf)]; rfl
  · rw [h8, outcomeEvent, if_neg (show ¬ s.flags = 1#16 from hf)]; rfl

/-! ### S3 on a hello (R204 to R206) -/

theorem lookupOrCreate_new {h : Hello} {s : State} (hl : sessLookup h.clientId s.sess = none) :
    lookupOrCreate h s = (⟨h.clientId, h.reportedImageId, 0, s.now.1⟩, true, s.now.2) := by rw [lookupOrCreate, hl]

theorem lookupOrCreate_known {h : Hello} {x : Session} {s : State} (hl : sessLookup h.clientId s.sess = some x) :
    lookupOrCreate h s = (x, false, s) := by rw [lookupOrCreate, hl]

/-- A new client is accepted with count 1, at two draws of the time. -/
theorem acceptHello_new {h : Hello} {s : State} (hl : sessLookup h.clientId s.sess = none) (hf : storeFull s = false) :
    acceptHello h s = .next (updateSession h ⟨h.clientId, h.reportedImageId, 0, s.now.1⟩ true s.now.2) := by
  rw [acceptHello, lookupOrCreate_new hl]
  dsimp only
  rw [if_neg (by simp [hf]), if_neg (by decide)]

theorem acceptHello_full {h : Hello} {s : State} (hl : sessLookup h.clientId s.sess = none) (hf : storeFull s = true) :
    acceptHello h s = .refused .sessionStoreFull := by
  rw [acceptHello, lookupOrCreate_new hl]
  exact if_pos ⟨rfl, hf⟩

/-- A known client is counted, unless its count is full; the store's capacity does not matter. -/
theorem acceptHello_known {h : Hello} {x : Session} {s : State} (hl : sessLookup h.clientId s.sess = some x) :
    acceptHello h s =
      if x.receivedCount = 0xFFFFFFFF#32 then .fault .countOverflow else .next (updateSession h x false s) := by
  rw [acceptHello, lookupOrCreate_known hl]
  exact if_neg (by simp)

/-- Settles O33: the record created, at the time of the first draw; the event, at the second. -/
theorem firstHelloCreatesASession : Obligations.FirstHelloCreatesASession := by
  intro h s hs hh hlen hx hl
  have h3 : exec .s3 s = acceptHello h s := hx ▸ exec_s3_of_hello hs hh hlen
  refine ⟨fun hc => ?unbounded, fun n hc => ?finite, fun hf => ?full, fun hf => ?created⟩
  case unbounded => rw [storeFull, hc]
  case finite => simp [storeFull, hc]
  case full => rw [h3, acceptHello_full hl hf]
  case created =>
    refine ⟨_, s.now.1, s.now.2.now.1, h3.trans (acceptHello_new hl hf), ⟨rfl, ?_⟩, rfl⟩
    exact ((drawNow_premises _).trans (drawNow_premises _))

/-- Settles O34: the record found is put back with its count and image; a full count is the model fault. -/
theorem laterHelloUpdatesTheSession : Obligations.LaterHelloUpdatesTheSession := by
  intro h x s hs hh hlen hx hl
  have h3 : exec .s3 s = acceptHello h s := hx ▸ exec_s3_of_hello hs hh hlen
  refine ⟨fun hne => ?_, fun heq => ?_⟩
  · rw [h3, acceptHello_known hl, if_neg hne, ← sessLookup_key hl]
    rfl
  · rw [h3, acceptHello_known hl, if_pos heq]

/-- Settles O35: the three laws of the canonical store. -/
theorem sessionStoreKeepsOtherClients : Obligations.SessionStoreKeepsOtherClients :=
  fun x _ l => ⟨sessLookup_put_same x l, fun hk => sessLookup_put_other hk l, fun hl => sessWf_put hl x⟩

/-! ### The fields of a hello -/

theorem missing_getElem? (o : BitmapOrder) (p : List Byte) {i : Nat} (hi : i < missingFlags) :
    (decodeHello o p).missing[i]? = some (missingFlag o p i) := by
  simp [decodeHello, hi]

/-- A decoded hello has the fields of the packet's own decoding (R111, R204). -/
theorem decodeHello_fields (o : BitmapOrder) (p : List Byte) :
    (decodeHello o p).tagType = (helloFields p).tagType ∧ (decodeHello o p).clientId = (helloFields p).clientId ∧
      (decodeHello o p).gitHash = (helloFields p).gitHash ∧ (decodeHello o p).installDate = (helloFields p).installDate ∧
      (decodeHello o p).reserved = (helloFields p).reserved ∧ (decodeHello o p).reportedImageId = (helloFields p).reportedImageId :=
  ⟨rfl, rfl, rfl, rfl, rfl, rfl⟩

theorem helloBytes_length {p : HelloPacket} (h : p.wellFormed = true) : p.bytes.length = helloLen := by
  have hb : p.bitmap.length = bitmapBytes := by simpa [HelloPacket.wellFormed] using h
  rw [HelloPacket.bytes_length, hb]
  rfl

/-- The bitmap begins at offset 24 of the packet's bytes. -/
theorem helloBytes_bitmap (p : HelloPacket) (k : Nat) : p.bytes.getD (24 + k) 0 = p.bitmap.getD k 0 := by
  have hb : (helloFields p.bytes).bitmap = p.bitmap := by rw [helloFields_bytes]
  rw [helloFields, helloHdr] at hb
  rw [← hb, List.getD_eq_getElem?_getD, List.getD_eq_getElem?_getD, List.getElem?_drop]

/-- Settles O37: words and fields by `leValue`, flags by their position, and the fields of a packet's own bytes back. -/
theorem helloFieldsAreLittleEndianAtTheirOffsets : Obligations.HelloFieldsAreLittleEndianAtTheirOffsets := by
  refine ⟨fun x => ⟨rfl, leValue_toLe32 x⟩, fun x => ⟨rfl, leValue_toLe16 x⟩, fun o p hp => ?offsets, fun p hp => ?packet⟩
  case offsets =>
    have hfield : ∀ k, k + 4 ≤ helloLen → (le32At p k).toNat = leValue ((p.drop k).take 4) := fun k hk => leValue_le32At p k (hp ▸ hk)
    exact ⟨hfield 0 (by decide), hfield 4 (by decide), hfield 8 (by decide), hfield 12 (by decide), hfield 16 (by decide),
      hfield 20 (by decide), decodeHello_missing_length o p, fun i hi => ⟨missing_getElem? _ p hi, missing_getElem? _ p hi⟩⟩
  case packet =>
    obtain ⟨h1, h2, h3, h4, h5, h6⟩ := decodeHello_fields .lsbFirst p.bytes
    rw [helloFields_bytes] at h1 h2 h3 h4 h5 h6
    refine ⟨helloBytes_length hp, h1, h2, h3, h4, h5, h6, fun i hi => ?_⟩
    rw [missing_getElem? _ _ hi, missingFlag]
    exact congrArg (fun b : Byte => some (b.getLsbD (i % 8))) (helloBytes_bitmap p (i / 8))

/-- Settles O47: a well-formed packet has 40 bytes, so it is decoded. -/
theorem helloPacketIsDecoded : Obligations.HelloPacketIsDecoded := by
  intro p s hp
  rw [exec, execPktHello, if_pos (helloBytes_length hp)]

end Sys2Proof.Machine
end

section
/-! A client that keeps its bitmap (R209), and the identifier screen (R240 to R246). -/

namespace Sys2Proof.Machine

/-! ### Progress (R209): a round clears one flag -/

theorem firstMissing_of_length {l : List Bool} (hl : l.length = missingFlags) : firstMissing l = l.findIdx? (fun b => b) := by
  rw [firstMissing, ← hl, List.take_length]

theorem firstMissing_eq_none_iff {l : List Bool} (hl : l.length = missingFlags) : firstMissing l = none ↔ l.count true = 0 := by
  rw [firstMissing_of_length hl, List.findIdx?_eq_none_iff, List.count_eq_zero]
  exact ⟨fun h hmem => absurd (h true hmem) (by decide), fun h b hb => by cases b <;> simp_all⟩

@[simp] theorem serveOne_length (l : List Bool) : (serveOne l).length = l.length := by
  unfold serveOne
  split
  · exact List.length_set
  · rfl

/-- A round serves the least missing chunk, so one flag fewer is set after it. -/
theorem count_serveOne {l : List Bool} {k : Nat} (h : firstMissing l = some k) : (serveOne l).count true = l.count true - 1 := by
  obtain ⟨-, hset, hk⟩ := firstMissing_lt h
  have hget : l[k] = true := by simpa [List.getElem?_eq_getElem hk] using hset
  simp [serveOne, h, List.count_set hk, hget]

/-- By induction on the flags set. -/
theorem serveRounds_progress (n : Nat) : ∀ l : List Bool, l.length = missingFlags → l.count true = n →
    firstMissing (serveRounds n l) = none ∧ ∀ m < n, ∃ k, firstMissing (serveRounds m l) = some k := by
  induction n with
  | zero => exact fun l hl hc => ⟨(firstMissing_eq_none_iff hl).mpr hc, fun m hm => absurd hm (Nat.not_lt_zero m)⟩
  | succ n ih =>
    intro l hl hc
    obtain ⟨k, hk⟩ : ∃ k, firstMissing l = some k :=
      Option.ne_none_iff_exists'.mp fun hn => by rw [(firstMissing_eq_none_iff hl).mp hn] at hc; omega
    obtain ⟨hdone, hmore⟩ := ih (serveOne l) (by rw [serveOne_length, hl]) (by rw [count_serveOne hk]; omega)
    refine ⟨hdone, fun m hm => ?_⟩
    cases m with
    | zero => exact ⟨k, hk⟩
    | succ m => exact hmore m (by omega)

/-- Settles O44: as many rounds as flags are set. -/
theorem everyMissingChunkIsServedInAsManyRounds : Obligations.EveryMissingChunkIsServedInAsManyRounds :=
  fun l hl => serveRounds_progress _ l hl rfl

/-! ### The screen (R241 to R243) -/

theorem shift32_zero (k : ShiftKind) (x : Word) : shift32 k x 0 = x := by
  cases k with
  | zeroFill => simp [shift32]
  | rotate => exact BitVec.eq_of_getLsbD_eq fun i hi => by simp [shift32, hi]

/-- An identifier agrees with itself in all 32 bits. -/
theorem score_zero (k : ShiftKind) (x : Word) : score k x 0 = 32 := by
  rw [score, shift32_zero, BitVec.xor_self]
  decide

theorem score_le (k : ShiftKind) (x : Word) (d : Int) : score k x d ≤ 32 := Nat.sub_le _ _

theorem shifts_nodup : shifts.Nodup := by decide

/-- Below 32 the shift by 0 always exceeds the threshold, so the test asks that no other does. -/
theorem exceedCount_le_one_iff (k : ShiftKind) {t : Nat} (ht : t < 32) (x : Word) :
    exceedCount k t x ≤ 1 ↔ ∀ d ∈ shifts, d ≠ 0 → score k x d ≤ t := by
  have hzero : (0 : Int) ∈ shifts := by decide
  have hcount : exceedCount k t x = ((shifts.erase 0).filter (fun d => decide (t < score k x d))).length + 1 := by
    rw [exceedCount, ((List.perm_cons_erase hzero).filter _).length_eq, List.filter_cons_of_pos (by simpa [score_zero] using ht)]
    rfl
  rw [hcount, Nat.succ_le_succ_iff, Nat.le_zero, List.length_eq_zero_iff, List.filter_eq_nil_iff]
  simp only [shifts_nodup.mem_erase_iff, decide_eq_true_eq, Nat.not_lt]
  exact ⟨fun h d hd hne => h d ⟨hne, hd⟩, fun h d hd => h d hd.2 hd.1⟩

theorem screenAccepts_iff (k : ShiftKind) {t : Nat} (ht : t < 32) (x : Word) :
    screenAccepts k t x = true ↔ (∀ d ∈ shifts, d ≠ 0 → score k x d ≤ t) ∧ equalCount k t x ≤ 2 := by
  rw [screenAccepts, Bool.and_eq_true, decide_eq_true_eq, decide_eq_true_eq, exceedCount_le_one_iff k ht]

theorem toNat_shift32_left (x : Word) (n : Nat) : (shift32 .zeroFill x n).toNat = x.toNat * 2 ^ n % 2 ^ 32 := by
  rw [shift32, if_pos (Int.natCast_nonneg n), Int.toNat_natCast, BitVec.toNat_shiftLeft, Nat.shiftLeft_eq]

theorem toNat_shift32_right (x : Word) (n : Nat) : (shift32 .zeroFill x (-n)).toNat = x.toNat / 2 ^ n := by
  cases n with
  | zero => rw [Int.natCast_zero, neg_zero, shift32_zero, pow_zero, Nat.div_one]
  | succ n =>
    rw [shift32, if_neg (by omega), neg_neg, Int.toNat_natCast, BitVec.toNat_ushiftRight, Nat.shiftRight_eq_div_pow]

/-- Bit `j` of a rotation left by `r` is bit `j - r` of the word, counted round the 32 bits. -/
theorem getLsbD_rotateLeft_mod (x : Word) {r i : Nat} (hr : r < 32) (hi : i < 32) : (x.rotateLeft r).getLsbD ((i + r) % 32) = x.getLsbD i := by
  rw [BitVec.getLsbD_rotateLeft_of_le hr]
  by_cases h : i + r < 32
  · rw [Nat.mod_eq_of_lt h]
    simp [h]
  · have hm : (i + r) % 32 = i + r - 32 := by omega
    have hlt : i + r - 32 < r := by omega
    have hback : 32 - r + (i + r - 32) = i := by omega
    simp [hm, hlt, hback]

/-- A rotation carries bit `i` to bit `i + n`, and the opposite one carries it back. -/
theorem getLsbD_shift32_rotate (x : Word) {n i : Nat} (hn : n ≤ 31) (hi : i < 32) :
    (shift32 .rotate x n).getLsbD ((i + n) % 32) = x.getLsbD i ∧ (shift32 .rotate x (-n)).getLsbD i = x.getLsbD ((i + n) % 32) := by
  have hleft : ((n : Int) % 32).toNat = n := by omega
  have hright : ((-n : Int) % 32).toNat = (32 - n) % 32 := by omega
  rw [shift32, shift32, hleft, hright]
  refine ⟨getLsbD_rotateLeft_mod x (by omega) hi, ?_⟩
  have hback : ((i + n) % 32 + (32 - n) % 32) % 32 = i := by omega
  have hrot := getLsbD_rotateLeft_mod x (r := (32 - n) % 32) (i := (i + n) % 32) (by omega) (by omega)
  rwa [hback] at hrot

/-- The number of 1 bits, as the size of the set of their positions. -/
theorem popcount32_eq_card (x : Word) : popcount32 x = (Finset.univ.filter (fun i : Fin 32 => x.getLsbD i = true)).card := by
  have hset : (Finset.univ.filter (fun i : Fin 32 => x.getLsbD i = true)).card =
      ((List.finRange 32).filter (fun i : Fin 32 => x.getLsbD i)).length := by
    rw [Fin.univ_def]
    simp [Finset.card, Finset.filter]
  rw [hset, popcount32, ← List.map_coe_finRange_eq_range, List.filter_map, List.length_map]
  rfl

/-- Only bit 0 is left of a shift by 31, at bit 31. -/
theorem zeroFill_31 (x : Word) : shift32 .zeroFill x 31 = if x.getLsbD 0 then 0x80000000#32 else 0#32 := by
  rw [show shift32 .zeroFill x 31 = x <<< 31 from rfl, show 0x80000000#32 = BitVec.twoPow 32 31 from rfl]
  refine BitVec.eq_of_getLsbD_eq fun i hi => ?_
  rw [BitVec.getLsbD_shiftLeft]
  obtain rfl | hlt : i = 31 ∨ i < 31 := by omega
  · split <;> simp_all
  · split <;> simp [hlt, hlt.ne']

/-- Only bit 31 is left of a shift by -31, at bit 0. -/
theorem zeroFill_neg_31 (x : Word) : shift32 .zeroFill x (-31) = if x.getLsbD 31 then 1#32 else 0#32 := by
  rw [show shift32 .zeroFill x (-31) = x >>> 31 from rfl, show 1#32 = BitVec.twoPow 32 0 from rfl]
  refine BitVec.eq_of_getLsbD_eq fun i hi => ?_
  rw [BitVec.getLsbD_ushiftRight]
  obtain rfl | hpos : i = 0 ∨ 0 < i := by omega
  · split <;> simp_all
  · split <;> simp [hpos.ne, BitVec.getLsbD_of_ge x (31 + i) (by omega)]

/-- Settles O48: the scores bound the test, and each clause on a shift or a count is a lemma above. -/
theorem idscreenAnswersTheTest : Obligations.IdscreenAnswersTheTest :=
  ⟨fun _ _ => rfl, fun k x => ⟨score_zero k x, fun d _ => score_le k x d⟩, fun k _ x ht => screenAccepts_iff k ht x,
    fun x n hn => ⟨toNat_shift32_left x n, toNat_shift32_right x n, fun _ hi => getLsbD_shift32_rotate x hn hi⟩,
    popcount32_eq_card, fun x => ⟨by rw [score, zeroFill_31, BitVec.xor_comm], by rw [score, zeroFill_neg_31, BitVec.xor_comm]⟩⟩

/-! ### The selector (R245) -/

/-- Settles O49: one draw; the operation itself is presented again where the screen rejects it. -/
theorem idselectReturnsOnlyAcceptedCandidates : Obligations.IdselectReturnsOnlyAcceptedCandidates := by
  rintro d s rfl
  have hexec : ∀ u : State, exec .idselect u = .next (if acceptsIdentifier u.cfg (u.cfg.idPrefix ++ u.io.env.drawRandom.1) then
      u.random.2.answer (.ident (u.cfg.idPrefix ++ u.io.env.drawRandom.1)) else { u.random.2 with agenda := u.agenda ++ selectAgain }) :=
    fun _ => rfl
  cases ha : acceptsIdentifier s.cfg (s.cfg.idPrefix ++ s.io.env.drawRandom.1) with
  | true => exact ⟨_, by rw [hexec, if_pos ha], rfl, fun _ => rfl, nofun⟩
  | false =>
    refine ⟨_, by rw [hexec, if_neg (by rw [ha]; decide)], rfl, nofun, fun _ => ⟨rfl, fun hnil => ?_⟩⟩
    refine (step_of_request (r := ⟨.select, [], 0⟩) (rest := []) ?_).trans (runWord_of_ok rfl)
    rw [hnil]
    rfl

end Sys2Proof.Machine
end

section
/-! A publication commutes with every operation but S4 (R84 to R86): none of them reads `IMAGE`, and none writes it. -/

namespace Sys2Proof.Machine

/-- The image replaced, and nothing else. -/
def State.withImage (x : Option Image) (s : State) : State := { s with image := x }

/-- The image replaced in the state an operation answers, if it answers one. -/
def Result.withImage (x : Option Image) : Result → Result
  | .next t => .next (t.withImage x)
  | .fault f => .fault f
  | .refused r => .refused r

/-- A test that does not look at what `f` changes: `f` may come after it. -/
theorem ite_commutes {α : Type} {c : Prop} [Decidable c] (f : α → α) {a b a' b' : α} (ha : a' = f a) (hb : b' = f b) :
    (if c then a' else b') = f (if c then a else b) := by rw [ha, hb, apply_ite f]

variable (x : Option Image) (s : State)

/-! ### Frames and draws -/

@[simp] theorem withImage_cfg : (s.withImage x).cfg = s.cfg := rfl

theorem wreg_withImage (a : Addr) (l : List Byte) : (s.withImage x).wreg a l = (s.wreg a l).withImage x := rfl

theorem strobe_withImage (k : Nibble) : (s.withImage x).strobe k = (s.strobe k).withImage x := rfl

theorem wregAll_withImage (l : List (Addr × List Byte)) : ∀ s : State, (s.withImage x).wregAll l = (s.wregAll l).withImage x := by
  induction l with
  | nil => exact fun _ => rfl
  | cons p r ih => exact fun s => ih (s.wreg p.1 p.2)

/-- `TSTATE` replaced, and nothing else. -/
def State.withTState (ts : TState) (s : State) : State := { s with tstate := ts }

theorem withTState_withImage (ts : TState) : (s.withImage x).withTState ts = (s.withTState ts).withImage x := rfl

/-! ### SETID and SETLEN, INIT and BOOT -/

theorem setId_withImage (id : Word) : (s.withImage x).setId id = Prod.map (fun e => e) (State.withImage x) (s.setId id) :=
  ite_commutes (Prod.map (fun e => e) (State.withImage x)) rfl rfl

theorem setLength_withImage (n : Int) : (s.withImage x).setLength n = Prod.map (fun e => e) (State.withImage x) (s.setLength n) :=
  ite_commutes (Prod.map (fun e => e) (State.withImage x)) rfl rfl

theorem answerDirect_withImage (r : Option Err × State) :
    answerDirect (Prod.map (fun e => e) (State.withImage x) r) = (answerDirect r).withImage x := by
  rcases r with ⟨_ | e, t⟩ <;> rfl

theorem bootRest_withImage : (s.withImage x).bootRest = s.bootRest.withImage x := by
  have h : ((s.withImage x).setChannel (s.withImage x).cfg.channelCfg).setLength (s.withImage x).cfg.pktlenCfg = _ :=
    setLength_withImage x (s.setChannel s.cfg.channelCfg) s.cfg.pktlenCfg
  rw [State.bootRest, State.bootRest, h]
  rcases (s.setChannel s.cfg.channelCfg).setLength s.cfg.pktlenCfg with ⟨_ | e, t⟩ <;> rfl

/-- INIT's verification, before it goes back to its caller (R164). -/
def State.verified (s : State) : State :=
  let r1 := s.rreg1 s.cfg.aCalIf
  let r2 := r1.2.rreg1 s.cfg.aCalVcoc
  let r3 := r2.2.rreg1 s.cfg.aCalVcob
  { r3.2.logAll (calWarnings s.cfg r1.1 r2.1 r3.1) with tstate := .idle }

theorem initFinish_loop : s.initFinish .loop = s.verified.bootRest := rfl

theorem verified_withImage : (s.withImage x).verified = s.verified.withImage x := rfl

theorem initFinish_withImage (c : Caller) : (s.withImage x).initFinish c = (s.initFinish c).withImage x := by
  cases c with
  | direct => rfl
  | loop => rw [initFinish_loop, initFinish_loop, verified_withImage, bootRest_withImage]

theorem pollSettle_withImage (c : Caller) : (s.withImage x).pollSettle c = (s.pollSettle c).withImage x :=
  ite_commutes (State.withImage x) (initFinish_withImage x { s.settled.2 with hold := none } c) rfl

theorem initStart_eq (c : Caller) : s.initStart c =
    (((((s.withTState .calibrating).wregAll s.cfg.initSeq).wregAll (s.withTState .calibrating).cfg.calClearSeq).strobe s.cfg.cPll).wreg
      s.cfg.aCalctl [s.cfg.vCalctl]).pollSettle c := rfl

theorem initStart_withImage (c : Caller) : (s.withImage x).initStart c = (s.initStart c).withImage x := by
  rw [initStart_eq, initStart_eq, withTState_withImage, wregAll_withImage, wregAll_withImage, strobe_withImage, wreg_withImage,
    pollSettle_withImage]
  rfl

/-! ### TX and RX -/

theorem txDone_withImage (c : Caller) : (s.withImage x).txDone c = (s.txDone c).withImage x := by cases c <;> rfl

theorem pollTx_withImage (c : Caller) : (s.withImage x).pollTx c = (s.pollTx c).withImage x :=
  ite_commutes (State.withImage x) rfl (txDone_withImage x { s.sampleBusy.2 with hold := none, tstate := .idle } c)

theorem txSend_eq (c : Caller) (len : Nat) (l : List Byte) : s.txSend c len l =
    ((((s.strobe s.cfg.cWrst).wreg s.cfg.aFifo (padTo len l)).withTState .transmitting).strobe s.cfg.cTx).pollTx c := rfl

theorem txSend_withImage (c : Caller) (len : Nat) (l : List Byte) : (s.withImage x).txSend c len l = (s.txSend c len l).withImage x := by
  rw [txSend_eq, txSend_eq, strobe_withImage, wreg_withImage, withTState_withImage, strobe_withImage, pollTx_withImage]
  rfl

variable {s} in
theorem rxFinish_of_error {e : Err} (c : Caller) (len : Nat) (h : rxError s.cfg (s.rreg1 s.cfg.aMode).1 = some e) :
    s.rxFinish c len = (s.rreg1 s.cfg.aMode).2.raiseTo c e (fun s => s.takeError e none none) := by
  simp only [State.rxFinish, h]

variable {s} in
theorem rxFinish_of_good (c : Caller) (len : Nat) (h : rxError s.cfg (s.rreg1 s.cfg.aMode).1 = none) :
    s.rxFinish c len = (((s.rreg1 s.cfg.aMode).2.strobe s.cfg.cRrst).rreg s.cfg.aFifo len).2.rxDone c
      (((s.rreg1 s.cfg.aMode).2.strobe s.cfg.cRrst).rreg s.cfg.aFifo len).1 := by
  simp only [State.rxFinish, h]

theorem rxFinish_withImage (c : Caller) (len : Nat) : (s.withImage x).rxFinish c len = (s.rxFinish c len).withImage x := by
  cases h : rxError s.cfg (s.rreg1 s.cfg.aMode).1 with
  | none =>
    rw [rxFinish_of_good (s := s.withImage x) c len h, rxFinish_of_good c len h]
    cases c <;> rfl
  | some e =>
    rw [rxFinish_of_error (s := s.withImage x) c len h, rxFinish_of_error c len h]
    cases c <;> rfl

theorem pollRx_withImage (c : Caller) (len : Nat) : (s.withImage x).pollRx len c = (s.pollRx len c).withImage x :=
  ite_commutes (State.withImage x) rfl (rxFinish_withImage x { s.sampleBusy.2 with hold := none, tstate := .idle } c len)

theorem rxStart_eq (c : Caller) (len : Nat) : s.rxStart c len = ((s.withTState .receiving).strobe s.cfg.cRx).pollRx len c := rfl

theorem rxStart_withImage (c : Caller) (len : Nat) : (s.withImage x).rxStart c len = (s.rxStart c len).withImage x := by
  rw [rxStart_eq, rxStart_eq, withTState_withImage, strobe_withImage, pollRx_withImage]
  rfl

/-- A held operation that goes on. -/
theorem resume_withImage (h : Hold) : (s.withImage x).resume h = (s.resume h).withImage x := by
  cases h with
  | settle c => exact pollSettle_withImage x s c
  | sending c => exact pollTx_withImage x s c
  | listening len c => exact pollRx_withImage x s c len

/-! ### The instructions -/

theorem initOp_withImage (c : Caller) : initOp c (s.withImage x) = (initOp c s).withImage x :=
  ite_commutes (Result.withImage x) (congrArg Host.Outcome.next (initStart_withImage x s c)) rfl

theorem raiseTo_takeErrorServed_withImage (c : Caller) (e : Err) :
    (s.withImage x).raiseTo c e (fun s => s.takeErrorServed e) = (s.raiseTo c e (fun s => s.takeErrorServed e)).withImage x := by
  cases c <;> rfl

theorem txOp_withImage (c : Caller) (l : List Byte) : txOp c l (s.withImage x) = (txOp c l s).withImage x := by
  refine ite_commutes (Result.withImage x) ?_ rfl
  show (match s.pktlen with | none => _ | some len => _) = _
  cases s.pktlen with
  | none => rfl
  | some len =>
    exact congrArg Host.Outcome.next
      (ite_commutes (State.withImage x) (raiseTo_takeErrorServed_withImage x s c _) (txSend_withImage x s c len l))

theorem rxOp_withImage (c : Caller) : rxOp c (s.withImage x) = (rxOp c s).withImage x := by
  refine ite_commutes (Result.withImage x) ?_ rfl
  show (match s.pktlen with | none => _ | some len => _) = _
  cases s.pktlen with
  | none => rfl
  | some len => exact congrArg Host.Outcome.next (rxStart_withImage x s c len)

theorem whenIdle_withImage (t : State) : whenIdle (s.withImage x) (t.withImage x) = (whenIdle s t).withImage x :=
  ite_commutes (Result.withImage x) rfl rfl

theorem atStep_withImage (p : Spc) {r r' : Result} (h : r' = r.withImage x) :
    atStep p (s.withImage x) r' = (atStep p s r).withImage x := ite_commutes (Result.withImage x) h rfl

theorem setIdStep_withImage (id : Word) (q : Spc) (cid iid : Option Word) :
    setIdStep id q cid iid (s.withImage x) = (setIdStep id q cid iid s).withImage x := by
  refine ite_commutes (Result.withImage x) ?_ rfl
  rw [setId_withImage]
  rcases s.setId id with ⟨_ | e, t⟩ <;> rfl

theorem acceptHello_withImage (h : Hello) : acceptHello h (s.withImage x) = (acceptHello h s).withImage x := by
  cases hl : sessLookup h.clientId s.sess with
  | some y =>
    rw [acceptHello_known hl, acceptHello_known (s := s.withImage x) hl]
    exact ite_commutes (Result.withImage x) rfl rfl
  | none =>
    cases hf : storeFull s with
    | true =>
      rw [acceptHello_full hl hf, acceptHello_full (s := s.withImage x) hl hf]
      rfl
    | false =>
      rw [acceptHello_new hl hf, acceptHello_new (s := s.withImage x) hl hf]
      rfl

/-- Every instruction but S4 and PUBLISH. -/
theorem exec_withImage {i : Instr} (h4 : i ≠ .s4) (hp : ∀ b id, i ≠ .publish b id) :
    exec i (s.withImage x) = Result.withImage x (exec i s) := by
  cases i with
  | wreg a l | opWreg a l | rreg a n | opRreg a n => exact ite_commutes (Result.withImage x) rfl rfl
  | strobe k | opStrobe k => rfl
  | strobePll | strobeRx | strobeTx | strobeWrst | strobeRrst | opReserved | idscreen => rfl
  | init => exact initOp_withImage x s .direct
  | setch ch => exact whenIdle_withImage x s ((s.setChannel ch).answer .ok)
  | setid id =>
    rw [exec, execSetid, setId_withImage, answerDirect_withImage, whenIdle_withImage]
    rfl
  | setlen n =>
    rw [exec, execSetlen, setLength_withImage, answerDirect_withImage, whenIdle_withImage]
    rfl
  | tx l => exact txOp_withImage x s .direct l
  | rx => exact rxOp_withImage x s .direct
  | boot =>
    exact atStep_withImage x s .boot
      (ite_commutes (Result.withImage x) rfl (ite_commutes (Result.withImage x) (initOp_withImage x s .loop) rfl))
  | s1 => exact atStep_withImage x s .s1 (setIdStep_withImage x s _ _ _ _)
  | s2 => exact atStep_withImage x s .s2 (rxOp_withImage x s .loop)
  | s3 => exact atStep_withImage x s .s3 (ite_commutes (Result.withImage x) (acceptHello_withImage x s _) rfl)
  | s4 => exact absurd rfl h4
  | s5 => exact atStep_withImage x s .s5 rfl
  | s6 => exact atStep_withImage x s .s6 (setIdStep_withImage x s _ _ _ _)
  | s7 => exact atStep_withImage x s .s7 (txOp_withImage x s .loop _)
  | s8 => exact atStep_withImage x s .s8 rfl
  | publish b id => exact absurd rfl (hp b id)
  | idselect => exact congrArg Host.Outcome.next (ite_commutes (State.withImage x) rfl rfl)
  | pktHello p => exact congrArg Host.Outcome.next (ite_commutes (State.withImage x) rfl rfl)
  | pktDatareply p => exact ite_commutes (Result.withImage x) (txOp_withImage x s .direct _) rfl

end Sys2Proof.Machine

namespace Sys2Proof.Machine

/-- Settles O46: held operations and instructions, one by one. -/
theorem publicationIsSeenOnlyByTheSnapshot : Obligations.PublicationIsSeenOnlyByTheSnapshot := by
  refine ⟨fun h x s => resume_withImage x s h, fun i x s h4 hp => (exec_withImage x s h4 hp).trans ?_⟩
  cases exec i s <;> rfl

end Sys2Proof.Machine
end

section
/-! A frame as one transaction (R141 to R143, R70, R81), and the bytes of the chip's memories it writes (R62, R74). -/

namespace Sys2Proof.Machine

/-! ### The events of a frame -/

/-- Between the chip's answer and the end of the frame the trace is that of the bytes sent and the bytes received. -/
theorem frame_events (c : Config) (out : List Byte) (n : Nat) (io : Io) :
    (io.frame c out n).2.pinTrace.reverse = io.pinTrace.reverse ++ frameEvents out (io.frame c out n).1 := by
  have hturn : (io.turn c).pinTrace = io.pinTrace := by rw [(turn_only c io).1]
  have hbytes : (io.frame c out n).1 = (Io.bytesIn (((((io.turn c).setCsn false).bytesOut out).answer c out n).1)
      (((((io.turn c).setCsn false).bytesOut out).answer c out n).2)).1 := rfl
  rw [frame_trace, List.reverse_cons, bytesIn_events, ← hbytes, (answer_only c out n _).pinTrace, bytesOut_events, Io.setCsn]
  simp [frameEvents, hturn]

theorem governed_listening_on {io : Io} (hl : io.chip.listening = true) (h5 : io.env.premises.cp5 = true)
    (hu : io.chip.unknown = false) : io.governed = true := by rw [governed_listening hl, h5, hu]; rfl

theorem governed_listening_off {io : Io} (hl : io.chip.listening = true)
    (h : io.env.premises.cp5 = false ∨ io.chip.unknown = true) : io.governed = false := by
  rw [governed_listening hl]
  rcases h with h | h <;> simp [h]

/-- Settles O6: the laws of a frame, with whether a premise speaks of the listening spelt out. -/
theorem frameIsOneTransaction : Obligations.FrameIsOneTransaction := fun c out n io =>
  ⟨frame_length c out n io, frame_history c out n io, frame_events c out n io, frame_csn c out n io, frame_sck c out n io,
    frame_base c out n io, fun hl => ⟨frame_places c out n hl, fun h4 => frame_chip_exact c out n h4 hl⟩,
    fun hl h5 hu => frame_heard c out n (governed_listening_on hl h5 hu),
    fun hl h => frame_forgets c out n hl (governed_listening_off hl h), frame_busy c out n io⟩

/-! ### What a write frame writes (R62, R74) -/

theorem chipWrite_fifo (c : Config) (l : List Byte) (k : Chip) : k.write c c.aFifo l = k.fill l := if_pos rfl

theorem chipWrite_ident {c : Config} {a : Addr} {l : List Byte} (ha : a = c.aId) (hf : a ≠ c.aFifo) (hl : l.length = 4) (k : Chip) :
    k.write c a l = { k with ident := some (be32List l) } := (if_neg hf).trans (if_pos ⟨ha, hl⟩)

/-- What a write that neither fills the FIFO nor resets the chip leaves: the identity, or a register and what is known of a calibration. -/
theorem chipWrite_cases {c : Config} {a : Addr} (hf : a ≠ c.aFifo) (hr : resetReg c ≠ some a) (l : List Byte) (k : Chip) :
    (a = c.aId ∧ ∃ x, k.write c a l = { k with ident := x }) ∨
      a ≠ c.aId ∧ ∃ cal x y z, k.write c a l = { k.writeReg a l with cal := cal, calIf := x, calVcoc := y, calVcob := z } := by
  unfold Chip.write
  rw [if_neg hf]
  by_cases hi : a = c.aId
  · refine .inl ⟨hi, ?_⟩
    split_ifs
    · exact ⟨_, rfl⟩
    · exact ⟨_, rfl⟩
  · refine .inr ⟨hi, ?_⟩
    rw [if_neg (fun h => hi h.1), if_neg hr, if_neg hi]
    split_ifs
    · exact ⟨_, _, _, _, rfl⟩
    · exact ⟨_, _, _, _, rfl⟩

theorem writeReg_read_other {a : Addr} {x : Nat} (hx : x ≠ a.toNat) (l : List Byte) (k : Chip) :
    (k.writeReg a l).regs.read x = k.regs.read x := by
  unfold Chip.writeReg
  split
  · exact Memory.read_write_other _ _ hx
  · exact Memory.read_erase_other _ hx

theorem writeReg_fifo (a : Addr) (l : List Byte) (k : Chip) : (k.writeReg a l).fifo = k.fifo := by unfold Chip.writeReg; split <;> rfl

theorem writeReg_ident (a : Addr) (l : List Byte) (k : Chip) : (k.writeReg a l).ident = k.ident := by unfold Chip.writeReg; split <;> rfl

theorem fill_regs (l : List Byte) (k : Chip) : (k.fill l).regs = k.regs := by unfold Chip.fill; split <;> rfl

theorem fill_ident (l : List Byte) (k : Chip) : (k.fill l).ident = k.ident := by unfold Chip.fill; split <;> rfl

theorem fill_wptr (l : List Byte) (k : Chip) : (k.fill l).wptr = k.wptr.map (fun w => w + l.length) := by
  unfold Chip.fill
  split <;> simp_all

theorem fill_known {l : List Byte} {k : Chip} {w : Nat} (hw : k.wptr = some w) :
    (k.fill l).fifo = if w + l.length ≤ fifoSize then k.fifo.writeList w l else [] := by simp only [Chip.fill, hw]

theorem fill_unknown {l : List Byte} {k : Chip} (hw : k.wptr = none) : (k.fill l).fifo = [] := by simp only [Chip.fill, hw]

/-- A write leaves every register but its own as it was (R62, R69). -/
theorem chipWrite_regs_other {c : Config} {a : Addr} (hr : resetReg c ≠ some a) {x : Nat} (hx : x ≠ a.toNat) (l : List Byte) (k : Chip) :
    (k.write c a l).regs.read x = k.regs.read x := by
  by_cases hf : a = c.aFifo
  · rw [hf, chipWrite_fifo, fill_regs]
  obtain ⟨-, i, h⟩ | ⟨-, cal, i, j, m, h⟩ := chipWrite_cases hf hr l k
  · rw [h]
  · rw [h]; exact writeReg_read_other hx l k

theorem chipWrite_fifo_other {c : Config} {a : Addr} (hf : a ≠ c.aFifo) (hr : resetReg c ≠ some a) (l : List Byte) (k : Chip) :
    (k.write c a l).fifo = k.fifo := by
  obtain ⟨-, i, h⟩ | ⟨-, cal, i, j, m, h⟩ := chipWrite_cases hf hr l k
  · rw [h]
  · rw [h]; exact writeReg_fifo a l k

theorem chipWrite_ident_other {c : Config} {a : Addr} (hi : a ≠ c.aId) (hr : resetReg c ≠ some a) (l : List Byte) (k : Chip) :
    (k.write c a l).ident = k.ident := by
  by_cases hf : a = c.aFifo
  · rw [hf, chipWrite_fifo, fill_ident]
  obtain ⟨h, -⟩ | ⟨-, cal, i, j, m, h⟩ := chipWrite_cases hf hr l k
  · exact absurd h hi
  · rw [h]; exact writeReg_ident a l k

theorem chipRead_rptr (c : Config) (a : Addr) (q : List Byte) (k : Chip) :
    (k.read c a q).rptr = if a = c.aFifo then k.rptr.map (fun p => p + q.length) else k.rptr := by
  unfold Chip.read
  split_ifs <;> rfl

/-- Bit 7 of a strobe's byte decides whether the chip takes it for a strobe; either way its memories and identity stay. -/
theorem afterFrame_strobe_memories (c : Config) (b : Nibble) (k : Chip) :
    (k.afterFrame c [strobeByte b] []).regs = k.regs ∧ (k.afterFrame c [strobeByte b] []).ident = k.ident ∧
      (k.afterFrame c [strobeByte b] []).fifo = k.fifo := by
  unfold Chip.afterFrame
  dsimp only
  split_ifs with h7 h0
  · exact ⟨chipStrobe_regs _ _ _, chipStrobe_ident _ _ _, chipStrobe_fifo _ _ _⟩
  · exact ⟨rfl, rfl, rfl⟩
  · exact absurd ⟨rfl, rfl⟩ h0
  · exact absurd ⟨rfl, rfl⟩ h0

/-- Settles O7: clause by clause, by what a write, a fill, a read and a strobe leave. -/
theorem framesChangeOnlyTheBytesWritten : Obligations.FramesChangeOnlyTheBytesWritten := by
  intro c a l q b k hl hq
  rw [afterFrame_write c a hl, afterFrame_read c a hq]
  refine ⟨fun hr x hx => chipWrite_regs_other hr hx l k, fun hf hr => chipWrite_fifo_other hf hr l k,
    fun hi hr => chipWrite_ident_other hi hr l k, fun ho v hv => hv ▸ chipWrite_read ho v k,
    fun ha hf h4 => by rw [chipWrite_ident ha hf h4], fun ha => ?fill,
    ⟨chipRead_regs c a q k, chipRead_fifo c a q k, chipRead_ident c a q k, chipRead_rptr c a q k⟩, afterFrame_strobe_memories c b k⟩
  case fill =>
    rw [ha, chipWrite_fifo]
    refine ⟨fill_regs l k, fill_wptr l k, fun w hw hfit => ?known, fun h => ?lost⟩
    case known =>
      rw [fill_known hw, if_pos hfit]
      exact ⟨fun x hx => Memory.read_writeList_other l _ w x hx, fun j hj => Memory.read_writeList_same l _ w j hj⟩
    case lost =>
      obtain hw | ⟨w, hw, hlong⟩ := h
      · exact fill_unknown hw
      · rw [fill_known hw, if_neg (Nat.not_le.mpr hlong)]

end Sys2Proof.Machine
end

section
/-! The bus primitives issued directly (R145 to R153), and what their reads return. -/

namespace Sys2Proof.Machine

theorem exec_write {i : Instr} {a : Addr} {l : List Byte} (hi : i = .wreg a l ∨ i = .opWreg a l) (hl : l ≠ []) (s : State) :
    exec i s = .next ((s.wreg a l).answer .ok) := by
  obtain ⟨d, ds, rfl⟩ := List.exists_cons_of_ne_nil hl
  rcases hi with rfl | rfl <;> rfl

theorem exec_read {i : Instr} {a : Addr} {n : Nat} (hi : i = .rreg a n ∨ i = .opRreg a n) (hn : 0 < n) (s : State) :
    exec i s = .next ((s.rreg a n).2.answer (.bytes (s.rreg a n).1)) := by
  rcases hi with rfl | rfl <;> exact if_neg hn.ne'

/-- Settles O8: both forms are one write frame. -/
theorem writeOperationsComplete : Obligations.WriteOperationsComplete :=
  fun _ a l s hi hl => ⟨_, exec_write hi hl s, rfl, (sent_wreg a l s).of_io rfl⟩

/-- Settles O9: both forms are one read frame. -/
theorem readOperationsComplete : Obligations.ReadOperationsComplete :=
  fun _ a n s hi hn => ⟨_, _, exec_read hi hn s, rreg_length a n s, rfl, (sent_rreg a n s).of_io rfl⟩

theorem strobe_void {k : Nibble} {s : State} (hk : k ∉ s.cfg.codes) : (s.strobe k).io.chip.unknown = true := by
  obtain ⟨chip, -, h⟩ := frame_chip s.cfg [strobeByte k] 0 s.io
  rw [strobe_io, h, frame_bytes_zero]
  exact afterFrame_strobe_void hk chip

theorem strobe_valid {k : Nibble} {s : State} (hk : k ∈ s.cfg.codes) (hc : s.cfg.codesLegal = true) :
    (s.strobe k).io.chip.unknown = s.io.chip.unknown := by
  obtain ⟨chip, hchip, h⟩ := frame_chip s.cfg [strobeByte k] 0 s.io
  rw [strobe_io, h, frame_bytes_zero, afterFrame_strobe_valid hk hc, hchip.unknown]

/-- Settles O10: each of the seven forms is the strobe of its code. -/
theorem strobesComplete : Obligations.StrobesComplete := by
  intro i k s hi
  have hexec : exec i s = .next ((s.strobe k).answer .ok) := by
    obtain rfl | rfl | ⟨rfl, rfl⟩ | ⟨rfl, rfl⟩ | ⟨rfl, rfl⟩ | ⟨rfl, rfl⟩ | ⟨rfl, rfl⟩ := hi <;> rfl
  exact ⟨_, hexec, rfl, (sent_strobe k s).of_io rfl, strobe_void, strobe_valid⟩

/-! ### Reads of the FIFO (R62, R74) -/

/-- A chip that does not listen, or listens while no packet is on the air, has nothing stored in its FIFO before a frame. -/
theorem turn_undisturbed (c : Config) {io : Io} (hu : io.chip.unknown = false)
    (h : io.chip.listening = false ∨ io.env.premises.cp5 = true ∧ io.env.airIn = []) : ChipTurn io (io.turn c) := by
  obtain hl | ⟨h5, hair⟩ := h
  · exact turn_deaf c hl
  obtain ⟨ht, -⟩ | ⟨-, -, b, env, p, -, ⟨hp, -⟩, -⟩ | ⟨hl, hg, -⟩ := turn_cases c io
  · exact ht
  · rw [hair] at hp
    cases hp
  · rw [governed_listening_on hl h5 hu] at hg
    cases hg

/-- Under CP3 a drain of known bytes returns them. -/
theorem frame_drain {c : Config} {io : Io} {p : Nat} {q : List Byte} (ht : ChipTurn io (io.turn c)) (h3 : io.env.premises.cp3 = true)
    (hu : io.chip.unknown = false) (hp : io.chip.rptr = some p)
    (hq : ∀ (j : Nat) (h : j < q.length), io.chip.fifo.read (p + j) = some q[j]) : (io.frame c [readByte c.aFifo] q.length).1 = q := by
  obtain ⟨x, hchip, henv, -, hbytes⟩ := frame_read_turn c c.aFifo q.length io
  have hx : x.chip.unknown = io.chip.unknown ∧ x.chip.rptr = io.chip.rptr ∧ x.chip.fifo = io.chip.fifo := by
    rw [hchip, ht.io]
    exact ⟨rfl, rfl, rfl⟩
  have hcp3 : x.env.premises.cp3 = true := by rw [henv, ht.premises, h3]
  have hdrain : x.chip.drain q.length = q.map some := by
    rw [Chip.drain, hx.2.1, hp, hx.2.2]
    refine List.ext_getElem (by simp) fun j h1 h2 => ?_
    simpa using hq j (by simpa using h1)
  have hdrive : x.readDrive c c.aFifo q.length = (q.map some, x) := by
    simp only [Io.readDrive, hx.1, hu, hcp3, hdrain, if_true, Bool.false_eq_true, if_false]
  rw [hbytes, hdrive, bytesIn_driven]

/-- Settles O11: the two pointer strobes by their effect on the chip, and a drain by what the chip's turn before it leaves. -/
theorem pointerStrobesResetThePointers : Obligations.PointerStrobesResetThePointers := by
  refine ⟨fun c k hc => ?strobes, fun q p s hne h3 hu hp hq hquiet => ?drain⟩
  case strobes =>
    obtain ⟨-, -, -, hw, hr⟩ := codes_bit3 hc
    rw [afterFrame_strobe c hw, afterFrame_strobe c hr, chipStrobe_wrst hc, chipStrobe_rrst hc]
    exact ⟨rfl, rfl⟩
  case drain =>
    have hlen : 0 < q.length := List.length_pos_iff.mpr hne
    have hbytes : (s.rreg s.cfg.aFifo q.length).1 = q := frame_drain (turn_undisturbed s.cfg hu hquiet) h3 hu hp hq
    refine ⟨_, exec_read (.inl rfl) hlen s, congrArg Ret.bytes hbytes, ?_⟩
    obtain ⟨-, -, -, hrptr, -⟩ := base_ext.mp (frame_base s.cfg [readByte s.cfg.aFifo] q.length s.io)
    have hframe : (s.io.frame s.cfg [readByte s.cfg.aFifo] q.length).1 = q := hbytes
    rw [hframe, afterFrame_read _ _ hne, chipRead_rptr, if_pos rfl, hp] at hrptr
    exact hrptr

/-! ### Reads nothing fixes (R71, U3) -/

/-- A read of which no premise fixes anything samples the levels supplied, eight to a byte, and uses up these. -/
theorem frame_supplied {c : Config} {a : Addr} {q : List Byte} {rest : List Bool} {io : Io} (hg : io.governed = false)
    (hfree : ∀ x : Io, x.chip.unknown = io.chip.unknown → x.env.premises = io.env.premises →
      x.readDrive c a q.length = (List.replicate q.length none, x))
    (hs : io.env.sdiIn = q.flatMap byteBits ++ rest) :
    (io.frame c [readByte a] q.length).1 = q ∧ (io.frame c [readByte a] q.length).2.env.sdiIn = rest := by
  obtain ⟨henv, hg'⟩ := turn_free c hg
  obtain ⟨hychip, hyenv, -⟩ := sent_same [readByte a] (io.turn c)
  have hanswer : (((io.turn c).setCsn false).bytesOut [readByte a]).answer c [readByte a] q.length =
      (List.replicate q.length none, ((io.turn c).setCsn false).bytesOut [readByte a]) := by
    rw [Io.answer, if_pos (kindOf_readByte a), addrOf_readByte]
    exact hfree _ (by rw [hychip, (turn_turned c io).unknown]) (by rw [hyenv, henv])
  obtain ⟨hq, hrest⟩ := bytesIn_supplied q (((io.turn c).setCsn false).bytesOut [readByte a]) rest (by rw [hyenv, henv, hs])
  have hrec : ((io.turn c).recorded c [readByte a] q.length).governed = false := by
    unfold Io.governed
    rw [recorded_chip, (recorded_env c [readByte a] q.length (io.turn c)).premises]
    exact hg'
  constructor
  · rw [Io.frame, Io.exchange, hanswer]
    exact hq
  · rw [Io.frame, exchange_perform, perform_free _ _ _ hrec, Io.recorded, hanswer]
    exact hrest

/-- Settles O13: no premise, or void premises, fix nothing of a read, whatever the address. -/
theorem unconstrainedReadsReturnWhatSdiSupplies : Obligations.UnconstrainedReadsReturnWhatSdiSupplies := by
  intro a q rest s hne hany hs
  have hfree : ∀ x : Io, x.chip.unknown = s.io.chip.unknown → x.env.premises = s.io.env.premises →
      x.readDrive s.cfg a q.length = (List.replicate q.length none, x) := by
    intro x hu hp
    obtain h | h := hany
    · exact readDrive_none s.cfg a _ (hp.trans h)
    · exact readDrive_void s.cfg a _ (hu.trans h)
  have hg : s.io.governed = false := by
    obtain h | h := hany
    · exact governed_none (by rw [h]; rfl) (by rw [h]; rfl)
    · exact not_governed (.inl h)
  obtain ⟨hq, hrest⟩ := frame_supplied hg hfree hs
  exact ⟨_, exec_read (.inl rfl) (List.length_pos_iff.mpr hne) s, congrArg Ret.bytes hq, hrest⟩

end Sys2Proof.Machine
end

section
/-! SETCH, SETID, SETLEN (R165 to R167), alone and under CP1 and CP2. -/

namespace Sys2Proof.Machine

theorem whenIdle_of_idle {s : State} (t : State) (hi : s.tstate = .idle) : whenIdle s t = .next t := if_pos hi

/-- Settles O16: one write frame and the shadow. -/
theorem setchCompletes : Obligations.SetchCompletes := by
  intro ch s hi
  obtain ⟨ht, hsent⟩ := setChannel_spec ch s
  exact ⟨(s.setChannel ch).answer .ok, whenIdle_of_idle _ hi, by rw [ht]; rfl, hsent.of_io rfl⟩

/-- Settles O17: the echo decides; the chip's identity is the one written unless the echo differed. -/
theorem setidCompletesOrReportsTheMismatch : Obligations.SetidCompletesOrReportsTheMismatch := by
  intro id s hi
  obtain ⟨u, q0, q1, q2, q3, hsent, hu, hok, hbad⟩ := setId_spec id s
  refine ⟨answerDirect (s.setId id), u, q0, q1, q2, q3, whenIdle_of_idle _ hi, hsent, fun h => ?ok, fun h => ?bad, fun hne => ?ident⟩
  case ok => rw [hok h, hu]; rfl
  case bad => rw [hbad h, hu]; rfl
  case ident =>
    obtain ⟨-, hident, -⟩ := base_ext.mp hsent.base
    rw [afterFrames_setId hne] at hident
    split_ifs with h
    · rw [hok h]; exact hident
    · rw [hbad h]; rfl

/-- Settles O18: the range decides, and its check comes before any frame. -/
theorem setlenCompletesOrReportsTheRange : Obligations.SetlenCompletesOrReportsTheRange := by
  intro n s hi
  refine ⟨answerDirect (s.setLength n), whenIdle_of_idle _ hi, fun h => ?ok, fun h => ?range⟩
  case ok =>
    obtain ⟨hnone, ht, hsent⟩ := setLength_ok h s
    have hanswer : answerDirect (s.setLength n) = (s.setLength n).2.answer .ok := by rw [answerDirect, hnone]
    rw [hanswer]
    exact ⟨by rw [ht]; rfl, hsent.of_io rfl⟩
  case range => rw [setLength_range h]; rfl

/-! ### Under CP1 and CP2 (R72, R73) -/

/-- A write frame of one byte to an ordinary register leaves the byte there. -/
theorem frame_register {c : Config} {a : Addr} (ho : ordinary c a) (v : Byte) (io : Io) :
    (io.frame c (writeByte a :: [v]) 0).2.chip.regs.read a.toNat = some v := by
  obtain ⟨hregs, -⟩ := base_ext.mp (frame_base c (writeByte a :: [v]) 0 io)
  rw [hregs, afterFrame_write c a (List.cons_ne_nil v []), chipWrite_read ho]

/-- Under CP1 a read of one byte from an ordinary register returns the byte known to be there. -/
theorem frame_register_read {c : Config} {a : Addr} {v : Byte} {io : Io} (ho : ordinary c a) (h1 : io.env.premises.cp1 = true)
    (hu : io.chip.unknown = false) (hv : io.chip.regs.read a.toNat = some v) : (io.frame c [readByte a] 1).1 = [v] := by
  obtain ⟨hfifo, hid, hmode, hif, hvcoc, hvcob, hreset⟩ := ho
  refine frame_read_driven fun x hx hp _ => ?_
  simp [Io.readDrive, hx.unknown, hu, hx.regs, hv, hp, h1, hfifo, hid, hmode, hif, hvcoc, hvcob, hreset]

/-- Settles O20: the write leaves the channel in its register, and under CP1 the read returns what is there. -/
theorem channelReadsBackUnderRegisterHold : Obligations.ChannelReadsBackUnderRegisterHold := by
  intro ch s hi h1 hu ho
  refine ⟨(s.setChannel ch).answer .ok, _, whenIdle_of_idle _ hi, exec_read (.inl rfl) Nat.one_pos _, congrArg Ret.bytes ?_⟩
  refine frame_register_read (io := (s.wreg s.cfg.aChannel [ch]).io) ho ?_ ?_ (frame_register ho ch s.io)
  · rw [wreg_io, frame_premises, h1]
  · exact wreg_unknown (List.cons_ne_nil ch []) hu

/-- Under CP2 a read of the identifier straight after a write of 4 bytes returns them. -/
theorem frame_echo {c : Config} {d : List Byte} {io : Io} (hne : c.aId ≠ c.aFifo) (h2 : io.env.premises.cp2 = true)
    (hu : io.chip.unknown = false) (hlast : io.lastIdWrite c = some d) : (io.frame c [readByte c.aId] 4).1 = d := by
  refine frame_read_driven fun x hx hp hh => ?_
  have hx' : x.lastIdWrite c = some d := by rw [Io.lastIdWrite, hh]; exact hlast
  simp [Io.readDrive, hx.unknown, hu, hp, h2, hne, hx']

/-- Settles O21: the frame before the read is the write of the identity, so the echo is that identity. -/
theorem setidSucceedsWhenTheChipEchoes : Obligations.SetidSucceedsWhenTheChipEchoes := by
  intro id s hi h2 hu hne
  have hecho : ((s.wreg s.cfg.aId (toBe32 id)).rreg s.cfg.aId 4).1 = toBe32 id := by
    refine frame_echo hne (by rw [wreg_io, frame_premises, h2]) (wreg_unknown (by simp [toBe32]) hu) ?_
    simp [Io.lastIdWrite]
  have hset : s.setId id = (none, { ((s.wreg s.cfg.aId (toBe32 id)).rreg s.cfg.aId 4).2 with deviceId := some id }) :=
    if_pos (by rw [hecho, be32List_toBe32])
  have hsent := (sent_wreg s.cfg.aId (toBe32 id) s).trans (sent_rreg s.cfg.aId 4 (s.wreg s.cfg.aId (toBe32 id))) rfl
  rw [hecho] at hsent
  exact ⟨answerDirect (s.setId id), whenIdle_of_idle _ hi, by rw [hset]; rfl, hsent.of_io (by rw [hset]; rfl)⟩

end Sys2Proof.Machine
end

section
/-! PROOFS. S1 and S6 set an identity. -/
namespace Sys2Proof.Machine

/-- S1 and S6 in Idle: two frames, and the echo decides (R201, R210). -/
theorem setIdStep_spec (id : Word) (q : Spc) (cid iid : Option Word) {s : State} (hi : s.tstate = .idle) :
    ∃ t u q0 q1 q2 q3, setIdStep id q cid iid s = .next t ∧
      Sent s u [writeRecord s.cfg.aId (toBe32 id), readRecord s.cfg.aId [q0, q1, q2, q3]] ∧
      (be32 q0 q1 q2 q3 = id → t = { s with io := u.io, deviceId := some id, spc := q }) ∧
      (be32 q0 q1 q2 q3 ≠ id → ∃ time,
        t = { s with
          io := { u.io with chip.ident := none, env := t.io.env }, deviceId := none, spc := .s1,
          log := s.log ++ [.error (.idMismatch id (be32 q0 q1 q2 q3)) time cid iid] } ∧
        t.io.env.premises = s.io.env.premises) := by
  obtain ⟨u, q0, q1, q2, q3, hsent, hu, hok, hbad⟩ := setId_spec id s
  refine ⟨_, u, q0, q1, q2, q3, if_pos hi, hsent, fun h => ?ok, fun h => ?bad⟩
  case ok => rw [hok h, hu]
  case bad =>
    rw [hbad h]
    obtain ⟨time, ht, -, hio, hp⟩ := takeError_spec (.idMismatch id (be32 q0 q1 q2 q3)) cid iid { u.doubtIdent with deviceId := none }
    refine ⟨time, ?_, hp.trans hsent.premises⟩
    dsimp only at ht hio ⊢
    rw [ht, hio, hu]
    rfl

/-- Settles O31: both steps are one SETID at their place in the loop. -/
theorem addressStepsComplete : Obligations.AddressStepsComplete := by
  intro i id nxt cid iid s hh hi hstep
  have he : exec i s = setIdStep id nxt cid iid s := by
    rcases hstep with ⟨rfl, hs, rfl, rfl, rfl, rfl⟩ | ⟨rfl, hs, rfl, rfl, rfl, rfl⟩
    · exact atStep_of_enabled _ hs hh
    · exact atStep_of_enabled _ hs hh
  rw [he]
  exact setIdStep_spec id nxt cid iid hi

end Sys2Proof.Machine
end

section
/-! PROOFS. RX and its wait (R182 to R185), for both of its callers: held while BUSY reads asserted, ended at the first sample that does not. -/
namespace Sys2Proof.Machine

/-- The frames of RX after its wait: the status byte, and, where it tells no error, the pointer reset and the drain (R185). -/
def drainRecords (c : Config) (m : Byte) (q : List Byte) : List FrameRecord :=
  [readRecord c.aMode [m], strobeRecord c.cRrst, readRecord c.aFifo q]

/-- RX returns to its caller after a status byte `m`: with the bytes `q` it drained, or with the error `m` tells. -/
def RxReturns (c : Caller) (m : Byte) (q : List Byte) (u t : State) (fs : List FrameRecord) : Prop :=
  rxError u.cfg m = none ∧ t = u.rxDone c q ∧ fs = drainRecords u.cfg m q ∨
    ∃ e, rxError u.cfg m = some e ∧ t = u.raiseTo c e (fun s => s.takeError e none none) ∧ fs = [readRecord u.cfg.aMode [m]]

/-- Returning holds nothing and sends nothing. -/
theorem RxReturns.quiet {c : Caller} {m : Byte} {q : List Byte} {u t : State} {fs : List FrameRecord} (h : RxReturns c m q u t fs) :
    t.hold = u.hold ∧ t.io.history = u.io.history ∧ t.cfg = u.cfg ∧ Sent u t [] := by
  have hrefl : Sent u u [] := ⟨by simp, rfl, fun _ => rfl, fun _ => Memory.within_refl _, id, rfl⟩
  rcases h with ⟨-, rfl, -⟩ | ⟨e, -, rfl, -⟩ <;> cases c
  · exact ⟨rfl, rfl, rfl, hrefl.of_io rfl⟩
  · exact ⟨rfl, rfl, rfl, hrefl.of_io rfl⟩
  · exact ⟨rfl, rfl, rfl, hrefl.of_io rfl⟩
  · exact ⟨rfl, rfl, rfl, (takeError_spec e none none u).choose_spec.2.1⟩

/-- A wait of RX goes on while BUSY reads asserted. -/
theorem pollRx_waits {len : Nat} {c : Caller} {s : State} (hb : (s.io.sampleBusy s.cfg).1 = true) :
    s.pollRx len c = { s with io := (s.pollRx len c).io, hold := some (.listening len c) } ∧ Sent s (s.pollRx len c) [] := by
  have h : s.pollRx len c = { s.sampleBusy.2 with hold := some (.listening len c) } := if_pos hb
  rw [h]
  exact ⟨rfl, (sent_sampleBusy s (.inr (.inr hb))).of_io rfl⟩

/-- A wait of RX ends where BUSY reads deasserted: the status byte, then the error, or the drained bytes (R185). -/
theorem pollRx_ends {len : Nat} {c : Caller} {s : State} (hb : (s.io.sampleBusy s.cfg).1 = false) :
    ∃ (u : State) (m : Byte) (q : List Byte) (fs : List FrameRecord), q.length = len ∧
      u = { s with io := u.io, tstate := .idle, hold := none } ∧ u.io.history = s.io.history ++ fs ∧
      (s.io.env.premises.cp5 = false → Sent s u fs) ∧ RxReturns c m q u (s.pollRx len c) fs := by
  have h : s.pollRx len c = ({ s.sampleBusy.2 with hold := none, tstate := .idle }).rxFinish c len := if_neg (by simp [hb])
  obtain ⟨u, m, q, hq, hu, hgood, hbad⟩ := rxFinish_spec c len { s.sampleBusy.2 with hold := none, tstate := .idle }
  have hhist : s.sampleBusy.2.io.history = s.io.history := sampleBusy_history s.cfg s.io
  have hcfg : u.cfg = s.cfg := by rw [hu]; rfl
  have hfrom : ∀ {fs : List FrameRecord}, Sent { s.sampleBusy.2 with hold := none, tstate := .idle } u fs →
      u.io.history = s.io.history ++ fs ∧ (s.io.env.premises.cp5 = false → Sent s u fs) := fun hs =>
    ⟨by rw [← hhist]; exact hs.history,
      fun h5 => (sent_sampleBusy s (.inr (.inl h5))).trans (hs.of_io_left (s' := s.sampleBusy.2) rfl rfl) rfl⟩
  rw [h]
  cases he : rxError s.cfg m with
  | none =>
    obtain ⟨ht, hs⟩ := hgood he
    exact ⟨u, m, q, _, hq, hu, (hfrom hs).1, (hfrom hs).2, .inl ⟨by rw [hcfg]; exact he, ht, by rw [hcfg]; rfl⟩⟩
  | some e =>
    obtain ⟨ht, hs⟩ := hbad e he
    exact ⟨u, m, q, _, hq, hu, (hfrom hs).1, (hfrom hs).2, .inr ⟨e, by rw [hcfg]; exact he, ht, by rw [hcfg]; rfl⟩⟩

/-- The first sample of RX reads the level supplied, but that a packet may end the wait of a governed chip only under CP5 (R76, R184). -/
theorem sampleBusy_afterStrobe (c : Config) {io : Io} {b : Bool} {r : List Bool} (hin : io.env.busyIn = b :: r)
    (hk : io.chip.unknown = true ∨ io.chip.mode = .pll ∨ io.chip.mode = .rx ∧ io.chip.op = .strobed) :
    (b = c.busyLevel → (io.sampleBusy c).1 = true) ∧
      (io.env.premises.cp5 = false → b ≠ c.busyLevel → (io.sampleBusy c).1 = false) := by
  constructor
  · intro hb
    have hm : io.governed = false ∨ io.chip.mode = .rx ∧ io.chip.op = .strobed := by
      rcases hk with h | h | h
      · exact .inl (not_governed (.inl h))
      · exact .inl (not_governed (.inr (by simp [h])))
      · exact .inr h
    exact sampleBusy_listening c hm hin hb
  · intro h5 hb
    have hg : io.governed = false := by
      rcases hk with h | h | h
      · exact not_governed (.inl h)
      · exact not_governed (.inr (by simp [h]))
      · exact not_governed (.inr (by simp [h, h5]))
    rw [sampleBusy_free c hg hin, decide_eq_false hb]

/-- RX, for either caller: held in Receiving, or ended with the packet's bytes, or with an error (R183 to R185). -/
theorem rxOp_spec (c : Caller) {len : Nat} {s : State} (hi : s.tstate = .idle) (hh : s.hold = none) (hl : s.pktlen = some len) :
    ∃ t, rxOp c s = .next t ∧
      (t = { s with io := t.io, tstate := .receiving, hold := some (.listening len c) } ∧ Sent s t [strobeRecord s.cfg.cRx] ∨
        ∃ (u : State) (m : Byte) (q : List Byte) (fs : List FrameRecord), q.length = len ∧ u = { s with io := u.io } ∧
          t.io.history = s.io.history ++ strobeRecord s.cfg.cRx :: fs ∧ RxReturns c m q u t fs) ∧
      (s.io.env.premises.cp5 = false → Sent s t (t.io.history.drop s.io.history.length)) ∧
      ∀ b r, s.io.env.busyIn = b :: r →
        (b = s.cfg.busyLevel → t.hold ≠ none) ∧ (s.io.env.premises.cp5 = false → b ≠ s.cfg.busyLevel → t.hold = none) := by
  obtain ⟨v, hv, hvs, hsent, hin, hk⟩ := rxStart_spec c len s
  have hcfg : v.cfg = s.cfg := by rw [hvs]
  have hsample := fun b r (h : s.io.env.busyIn = b :: r) => sampleBusy_afterStrobe s.cfg (hin.trans h) hk
  have hp := hsent.premises
  refine ⟨_, rxOp_of_idle c hi hl, ?_⟩
  rw [hv]
  cases hb : (v.io.sampleBusy v.cfg).1 with
  | true =>
    obtain ⟨ht, hwait⟩ := pollRx_waits (len := len) (c := c) hb
    have hs : Sent s (v.pollRx len c) [strobeRecord s.cfg.cRx] := hsent.trans hwait hcfg
    refine ⟨.inl ⟨by rw [ht, hvs], hs⟩, fun _ => ?_, fun b r h => ⟨fun _ => by rw [ht]; simp, fun h5 hne => ?_⟩⟩
    · rw [hs.history, List.drop_left]; exact hs
    · have := (hsample b r h).2 (by rw [hp]; exact h5) hne
      rw [← hcfg, hb] at this
      cases this
  | false =>
    obtain ⟨u, m, q, fs, hq, hu, hhist, hs, hret⟩ := pollRx_ends (len := len) (c := c) hb
    have hus : u = { s with io := u.io } := by rw [hu, hvs, ← hi, ← hh]
    obtain ⟨hhold, hth, -, hquiet⟩ := hret.quiet
    have hhist : (v.pollRx len c).io.history = s.io.history ++ strobeRecord s.cfg.cRx :: fs := by
      rw [hth, hhist, hsent.history, List.append_assoc]; rfl
    have hnone : (v.pollRx len c).hold = none := by rw [hhold, hus, hh]
    refine ⟨.inr ⟨u, m, q, fs, hq, hus, hhist, hret⟩, fun h5 => ?_, fun b r h => ⟨fun hb' => ?_, fun _ _ => hnone⟩⟩
    · rw [hhist, List.drop_left]
      have := (hsent.trans (hs (by rw [hp]; exact h5)) hcfg).trans hquiet (by rw [hus])
      simpa using this
    · have := (hsample b r h).1 hb'
      rw [← hcfg, hb] at this
      cases this

/-- Settles O25: RX called directly. -/
theorem receiveCompletes : Obligations.ReceiveCompletes := by
  intro len s hi hh hl
  obtain ⟨t, he, hcases, hrest⟩ := rxOp_spec .direct hi hh hl
  refine ⟨t, he, hcases.imp id ?_, hrest⟩
  rintro ⟨u, m, q, fs, hq, hu, hhist, hret⟩
  have hcfg : u.cfg = s.cfg := by rw [hu]
  refine ⟨m, q, hq, ?_⟩
  rcases hret with ⟨hm, rfl, rfl⟩ | ⟨e, hm, rfl, rfl⟩ <;> rw [hcfg] at hm hhist
  · exact .inl ⟨hm, by rw [hu]; rfl, hhist⟩
  · exact .inr ⟨e, hm, by rw [hu]; rfl, hhist⟩

/-- Settles O32: RX called by the loop. -/
theorem receiveStepCompletes : Obligations.ReceiveStepCompletes := by
  intro len s hs hh hi hl
  obtain ⟨t, he, hcases, hrest⟩ := rxOp_spec .loop hi hh hl
  refine ⟨t, (atStep_of_enabled _ hs hh).trans he, hcases.imp id ?_, hrest⟩
  rintro ⟨u, m, q, fs, hq, hu, hhist, hret⟩
  have hcfg : u.cfg = s.cfg := by rw [hu]
  refine ⟨m, q, hq, ?_⟩
  rcases hret with ⟨hm, rfl, rfl⟩ | ⟨e, hm, rfl, rfl⟩ <;> rw [hcfg] at hm hhist
  · exact .inl ⟨hm, by rw [hu]; rfl, hhist⟩
  · exact .inr ⟨e, _, hm, by rw [hu]; rfl, hhist⟩

end Sys2Proof.Machine
end

section
/-! PROOFS. TX and its wait (R180 to R182), for both of its callers. -/
namespace Sys2Proof.Machine

/-- A wait of TX goes on while BUSY reads asserted. -/
theorem pollTx_waits {c : Caller} {s : State} (hb : (s.io.sampleBusy s.cfg).1 = true) :
    s.pollTx c = { s with io := (s.pollTx c).io, hold := some (.sending c) } ∧ Sent s (s.pollTx c) [] := by
  have h : s.pollTx c = { s.sampleBusy.2 with hold := some (.sending c) } := if_pos hb
  rw [h]
  exact ⟨rfl, (sent_sampleBusy s (.inr (.inr hb))).of_io rfl⟩

/-- A wait of TX ends where BUSY reads deasserted (R182). -/
theorem pollTx_ends {c : Caller} {s : State} (hb : (s.io.sampleBusy s.cfg).1 = false) :
    s.pollTx c = ({ s with io := (s.pollTx c).io, tstate := .idle, hold := none }).txDone c ∧
      (s.pollTx c).io = (s.io.sampleBusy s.cfg).2 := by
  have h : s.pollTx c = ({ s.sampleBusy.2 with hold := none, tstate := .idle }).txDone c := if_neg (by simp [hb])
  rw [h]
  cases c <;> exact ⟨rfl, rfl⟩

/-- TX returning holds nothing. -/
theorem txDone_hold (c : Caller) (s : State) : (s.txDone c).hold = s.hold := by cases c <;> rfl

/-- TX of a list that fits, for either caller, with legal strobe codes: its three frames; then it returns, or waits in Transmitting, as the
first sample of BUSY reads (R181, R182). -/
theorem txOp_spec (c : Caller) {l : List Byte} {len : Nat} {s : State} (hi : s.tstate = .idle) (hh : s.hold = none)
    (hl : s.pktlen = some len) (hlen : l.length ≤ len) (hc : s.cfg.codesLegal = true) :
    ∃ t, txOp c l s = .next t ∧
      Sent s t [strobeRecord s.cfg.cWrst, writeRecord s.cfg.aFifo (padTo len l), strobeRecord s.cfg.cTx] ∧
      (t = ({ s with io := t.io }).txDone c ∨ t = { s with io := t.io, tstate := .transmitting, hold := some (.sending c) }) ∧
      ∀ b r, s.io.env.busyIn = b :: r → s.io.env.premises.cp4 = false → (t.hold = none ↔ b ≠ s.cfg.busyLevel) := by
  obtain ⟨v, hv, hvs, hsent, hin, hmode⟩ := txSend_spec c len l s
  have hcfg : v.cfg = s.cfg := by rw [hvs]
  have hm : v.io.chip.mode = .tx := hmode hc
  have hsample : ∀ b r, s.io.env.busyIn = b :: r → s.io.env.premises.cp4 = false →
      (v.io.sampleBusy v.cfg).1 = decide (b = s.cfg.busyLevel) := fun b r hb h4 => by
    rw [hcfg]
    exact sampleBusy_free s.cfg (not_governed (.inr ⟨.inr (by rw [hsent.premises]; exact h4), .inl (by rw [hm]; nofun)⟩)) (hin.trans hb)
  refine ⟨v.pollTx c, by rw [txOp_of_idle c l hi hl, if_neg (Nat.not_lt.mpr hlen), hv], ?_⟩
  cases hb : (v.io.sampleBusy v.cfg).1 with
  | true =>
    obtain ⟨ht, hwait⟩ := pollTx_waits (c := c) hb
    have hhold : (v.pollTx c).hold ≠ none := by rw [ht]; nofun
    refine ⟨hsent.trans hwait hcfg, .inr (by rw [ht, hvs]), fun b r hin h4 => ?_⟩
    have := hsample b r hin h4
    rw [hb] at this
    simpa [hhold] using this
  | false =>
    obtain ⟨ht, hio⟩ := pollTx_ends (c := c) hb
    have hus : ∀ x, ({ v with io := x, tstate := .idle, hold := none } : State) = { s with io := x } := fun x => by rw [hvs, ← hi, ← hh]
    have hhold : (v.pollTx c).hold = none := by rw [ht, txDone_hold]
    have hend := (sent_sampleBusy v (.inl (by rw [hm]; nofun))).of_io hio
    refine ⟨hsent.trans hend hcfg, .inl (ht.trans (congrArg (State.txDone c) (hus _))), fun b r hin h4 => ?_⟩
    have := hsample b r hin h4
    rw [hb] at this
    simpa [hhold] using this

/-- Settles O22: PKT.DATAREPLY is TX of its bytes. -/
theorem transmitCompletes : Obligations.TransmitCompletes := by
  intro i l len s hil hi hh hl hlen hc
  have he : exec i s = txOp .direct l s := by
    rcases hil with rfl | ⟨p, rfl, hp, rfl⟩
    · rfl
    · exact if_pos hp
  rw [he]
  exact txOp_spec .direct hi hh hl hlen hc

theorem buildReply_bytes (x : Image) (o f : Half) :
    (buildReply x o f).bytes = toLe32 x.id ++ toLe16 o ++ toLe16 f ++ x.img o.toNat 32 := rfl

theorem buildReply_bytes_length (x : Image) (o f : Half) : (buildReply x o f).bytes.length = replyLen := by
  rw [ReplyPacket.bytes_length]
  simp [buildReply, Image.img, replyLen, chunk]

/-- Settles O40: TX called by the loop; a short packet length is its size error. -/
theorem replyStepCompletes : Obligations.ReplyStepCompletes := by
  intro len s hs hh hi hl hc
  have he : exec .s7 s = txOp .loop (buildReply s.snap s.offset s.flags).bytes s := atStep_of_enabled _ hs hh
  rw [he]
  by_cases hlen : replyLen ≤ len
  case pos =>
    obtain ⟨t, ht⟩ := txOp_spec .loop hi hh hl ((buildReply_bytes_length s.snap s.offset s.flags).le.trans hlen) hc
    rw [buildReply_bytes] at ht
    exact ⟨t, ht.1, fun _ => ht.2, fun h => absurd h (Nat.not_lt.mpr hlen)⟩
  case neg =>
    have hlt : len < (buildReply s.snap s.offset s.flags).bytes.length := by
      rw [buildReply_bytes_length]; exact Nat.lt_of_not_le hlen
    refine ⟨_, by rw [txOp_of_idle .loop _ hi hl, if_pos hlt], fun h => absurd h hlen, fun _ => ?_⟩
    rw [buildReply_bytes_length]
    obtain ⟨time, ht, -, hno⟩ := takeError_spec (.sizeError replyLen len) (some s.hello.clientId) (some s.snap.id) s
    exact ⟨hno, time, ht⟩

end Sys2Proof.Machine
end

section
/-! PROOFS. The busy waits, going on and ending. -/
namespace Sys2Proof.Machine

theorem resume_listening (len : Nat) (c : Caller) (s : State) : s.resume (.listening len c) = s.pollRx len c := rfl

/-- A wait for the settle time apart, a held operation goes on while BUSY reads asserted. -/
theorem resume_waits {h : Hold} {s : State} (hh : s.hold = some h) (hset : ∀ c, h ≠ .settle c)
    (hb : (s.io.sampleBusy s.cfg).1 = true) : s.resume h = { s with io := (s.resume h).io } ∧ Sent s (s.resume h) [] := by
  cases h with
  | settle c => exact absurd rfl (hset c)
  | sending c =>
    obtain ⟨ht, hs⟩ := pollTx_waits (c := c) hb
    exact ⟨ht.trans (by rw [← hh]; rfl), hs⟩
  | listening len c =>
    obtain ⟨ht, hs⟩ := pollRx_waits (len := len) (c := c) hb
    exact ⟨ht.trans (by rw [← hh]; rfl), hs⟩

/-- Settles O27: a held operation that goes on takes one sample, which decides. -/
theorem busyWaitEndsAtTheFirstDeassertedSample : Obligations.BusyWaitEndsAtTheFirstDeassertedSample := by
  intro h s ha hh hset
  refine ⟨s.resume h, step_of_held ha hh, resume_waits hh hset, fun hb => ⟨?direct, ?loop, ?sent, ?rx⟩, fun hfree b r hin => ?sample⟩
  case direct =>
    rintro rfl
    obtain ⟨ht, hio⟩ := pollTx_ends (c := .direct) hb
    exact ⟨ht, (congrArg Io.history hio).trans (sampleBusy_history s.cfg s.io)⟩
  case loop =>
    rintro rfl
    obtain ⟨ht, hio⟩ := pollTx_ends (c := .loop) hb
    exact ⟨ht, (congrArg Io.history hio).trans (sampleBusy_history s.cfg s.io)⟩
  case sent =>
    rintro c rfl hm
    exact (sent_sampleBusy s (hm.imp id .inl)).of_io (pollTx_ends hb).2
  case rx =>
    rintro len c rfl
    obtain ⟨u, m, q, fs, hq, hu, hhist, -, hret⟩ := pollRx_ends (len := len) (c := c) hb
    have hcfg : u.cfg = s.cfg := by rw [hu]
    have hsame : (s.pollRx len c).io.history = s.io.history ++ fs := hret.quiet.2.1.trans hhist
    refine ⟨m, q, hq, fun hm => ?good, fun e hm => ?bad⟩
    case good =>
      rcases hret with ⟨-, ht, rfl⟩ | ⟨e, he, -⟩
      · refine ⟨hcfg ▸ hsame, ?_, ?_⟩
        · rintro rfl; rw [resume_listening, ht, hu]; rfl
        · rintro rfl; rw [resume_listening, ht, hu]; rfl
      · rw [hcfg, hm] at he; cases he
    case bad =>
      rcases hret with ⟨he, -⟩ | ⟨e', he, ht, rfl⟩
      · rw [hcfg, hm] at he; cases he
      · rw [hcfg, hm] at he
        cases he
        refine ⟨hcfg ▸ hsame, ?_, ?_⟩
        · rintro rfl; rw [resume_listening, ht, hu]; rfl
        · rintro rfl; exact ⟨_, by rw [resume_listening, ht, hu]; rfl⟩
  case sample =>
    have hg : s.io.governed = false := by
      rcases hfree with ⟨h4, h5⟩ | hu
      · exact not_governed (.inr ⟨.inr h4, .inr h5⟩)
      · exact not_governed (.inl hu)
    exact sampleBusy_free s.cfg hg hin

end Sys2Proof.Machine
end

section
/-! PROOFS. INIT, alone and in BOOT: its program, the settle wait, the verification, and what BOOT does after it (R160 to R164, R285). -/
namespace Sys2Proof.Machine

/-- The frames of INIT's verification (R164). -/
def verifyRecords (c : Config) (s1 s2 s3 : Byte) : List FrameRecord :=
  [readRecord c.aCalIf [s1], readRecord c.aCalVcoc [s2], readRecord c.aCalVcob [s3]]

/-- INIT's return to its caller: alone, or to the rest of BOOT. -/
def State.initReturn (c : Caller) (s : State) : State :=
  match c with
  | .direct => s.answer .ok
  | .loop => s.bootRest

/-- While the settle time has not passed INIT is held, and nothing is sent. -/
theorem pollSettle_waits {c : Caller} {s : State} (h : s.io.settled.1 = false) :
    s.pollSettle c = { s with io := (s.pollSettle c).io, hold := some (.settle c) } ∧ Sent s (s.pollSettle c) [] ∧
      (s.pollSettle c).io = s.io.settled.2 := by
  have ht : s.pollSettle c = { s.settled.2 with hold := some (.settle c) } := if_neg (by simp [h])
  rw [ht]
  exact ⟨rfl, (sent_settled s).of_io rfl, rfl⟩

/-- When the settle time has passed INIT verifies and returns. -/
theorem pollSettle_ends (c : Caller) {s : State} (h : s.io.settled.1 = true) :
    ∃ (u : State) (s1 s2 s3 : Byte), s.pollSettle c = u.initReturn c ∧ Sent s u (verifyRecords s.cfg s1 s2 s3) ∧
      u = { s with io := u.io, tstate := .idle, hold := none, log := s.log ++ calWarnings s.cfg s1 s2 s3 } := by
  have ht : s.pollSettle c = ({ s.settled.2 with hold := none }).initFinish c := if_pos h
  obtain ⟨u, s1, s2, s3, hs, hu, hret⟩ := initFinish_spec c { s.settled.2 with hold := none }
  refine ⟨u, s1, s2, s3, ?_, (sent_settled s).trans (hs.of_io_left (s' := s.settled.2) rfl rfl) rfl, hu⟩
  rw [ht, hret]
  cases c <;> rfl

/-- INIT from Uninitialized: held with its program sent, or verified and returned, as the first look at the settle time says. -/
theorem initOp_spec (c : Caller) {s : State} (hi : s.tstate = .uninitialized) :
    ∃ t, initOp c s = .next t ∧
      (t = { s with io := t.io, tstate := .calibrating, hold := some (.settle c) } ∧ Sent s t (initProgram s.cfg) ∧
          (∀ r, s.io.env.settleIn ≠ true :: r) ∨
        ∃ (u : State) (s1 s2 s3 : Byte), t = u.initReturn c ∧ Sent s u (initProgram s.cfg ++ verifyRecords s.cfg s1 s2 s3) ∧
          u = { s with io := u.io, tstate := .idle, hold := none, log := s.log ++ calWarnings s.cfg s1 s2 s3 }) := by
  obtain ⟨v, hv, hvs, hsent, hin⟩ := initStart_spec c s
  have hcfg : v.cfg = s.cfg := by rw [hvs]
  refine ⟨v.pollSettle c, by rw [← hv]; exact if_pos hi, ?_⟩
  cases h : v.io.settled.1 with
  | false =>
    obtain ⟨ht, hwait, -⟩ := pollSettle_waits (c := c) h
    refine .inl ⟨by rw [ht, hvs], by simpa using hsent.trans hwait hcfg, fun r hr => ?_⟩
    rw [settled_cons (hin.trans hr)] at h
    cases h
  | true =>
    obtain ⟨u, s1, s2, s3, ht, hver, hu⟩ := pollSettle_ends c h
    rw [hcfg] at hver
    exact .inr ⟨u, s1, s2, s3, ht, hsent.trans hver hcfg, by rw [hu, hvs]⟩

/-- What BOOT does after INIT: SETCH, SETLEN and the start of the loop, or, with an illegal packet length, the end of start-up (R285). -/
theorem bootRest_after {s u : State} {fs : List FrameRecord} {log : List LogEvent}
    (hu : u = { s with io := u.io, tstate := .idle, hold := none, log := log }) (hs : Sent s u fs) :
    (pktMin ≤ s.cfg.pktlenCfg ∧ s.cfg.pktlenCfg ≤ pktMax →
      Sent s u.bootRest (fs ++ [writeRecord s.cfg.aChannel [s.cfg.channelCfg], writeRecord s.cfg.aPktlen [lengthByte s.cfg.pktlenCfg]]) ∧
      u.bootRest = { s with
        io := u.bootRest.io, tstate := .idle, hold := none, channel := some s.cfg.channelCfg, pktlen := some s.cfg.pktlenCfg.toNat,
        spc := .s1, log := log }) ∧
    (s.cfg.pktlenCfg < pktMin ∨ pktMax < s.cfg.pktlenCfg →
      Sent s u.bootRest (fs ++ [writeRecord s.cfg.aChannel [s.cfg.channelCfg]]) ∧
      u.bootRest = { s with
        io := u.bootRest.io, tstate := .idle, hold := none, channel := some s.cfg.channelCfg, bootFailed := true,
        ret := .err (.packetLengthRange s.cfg.pktlenCfg), log := log }) := by
  have hcfg : u.cfg = s.cfg := by rw [hu]
  constructor
  · intro h
    obtain ⟨ht, hrest⟩ := bootRest_ok (s := u) (hcfg ▸ h)
    rw [hcfg] at hrest
    exact ⟨hs.trans hrest hcfg, by rw [ht, hu]⟩
  · intro h
    obtain ⟨ht, hrest⟩ := bootRest_range (s := u) (hcfg ▸ h)
    rw [hcfg] at hrest
    exact ⟨hs.trans hrest hcfg, by rw [ht, hu]⟩

theorem resume_settle (c : Caller) (s : State) : s.resume (.settle c) = s.pollSettle c := rfl

/-- Settles O15: one look at the settle time, which decides. -/
theorem initWaitsForTheSettleTime : Obligations.InitWaitsForTheSettleTime := by
  refine ⟨fun s hi => ?start, fun r s ha hh hin => ?direct, fun r s ha hh hin => ?loop⟩
  case start =>
    obtain ⟨t, he, ⟨ht, hs, -⟩ | ⟨u, s1, s2, s3, ht, -, hu⟩⟩ := initOp_spec .direct hi
    · exact ⟨t, he, .inr ⟨ht, hs⟩⟩
    · exact ⟨t, he, .inl (by rw [ht, hu]; exact ⟨rfl, rfl⟩)⟩
  case direct =>
    obtain ⟨u, s1, s2, s3, ht, hs, hu⟩ := pollSettle_ends .direct (settled_cons hin)
    refine ⟨_, s1, s2, s3, step_of_held ha hh, ?_, ?_⟩
    · rw [resume_settle, ht]; exact hs.of_io rfl
    · rw [resume_settle, ht, hu]; rfl
  case loop =>
    obtain ⟨u, s1, s2, s3, ht, hs, hu⟩ := pollSettle_ends .loop (settled_cons hin)
    refine ⟨_, s1, s2, s3, step_of_held ha hh, ?_⟩
    rw [resume_settle, ht]
    exact bootRest_after hu hs

/-- A state of a start-up that has ended refuses the loop (R285). -/
theorem step_of_bootFailed {s : State} (ha : s.agenda = []) (hs : s.spc = .boot) (hh : s.hold = none) (hf : s.bootFailed = true) :
    step s = .refused .startupEnded := by
  rw [step_phase (.inl ⟨ha, rfl⟩) hh, agenda_nil ha, hs]
  show atStep .boot s _ = _
  rw [atStep_of_enabled _ hs hh, if_pos hf]

/-- Settles O30: INIT called by BOOT, and what follows it. -/
theorem bootCompletes : Obligations.BootCompletes := by
  intro s hs hh hf hi hc
  have he := exec_boot_of_enabled hs hh hf hc
  obtain ⟨t, ht, ⟨heq, hsent, hno⟩ | ⟨u, s1, s2, s3, htu, hsent, hu⟩⟩ := initOp_spec .loop hi
  · exact ⟨t, he.trans ht, .inl ⟨heq, hsent⟩, fun r hr => absurd hr (hno r)⟩
  · obtain ⟨hok, hrange⟩ := bootRest_after hu hsent
    change t = u.bootRest at htu
    rw [← htu] at hok hrange
    refine ⟨t, he.trans ht, .inr ?hold, fun r _ => ⟨s1, s2, s3, fun h => ?ok, fun h => ?range⟩⟩
    case hold =>
      by_cases h : pktMin ≤ s.cfg.pktlenCfg ∧ s.cfg.pktlenCfg ≤ pktMax
      · rw [(hok h).2]
      · rw [(hrange (by omega)).2]
    case ok =>
      obtain ⟨h1, h2⟩ := hok h
      rw [List.append_assoc] at h1
      exact ⟨h1, by rw [h2, hh]⟩
    case range =>
      obtain ⟨h1, h2⟩ := hrange h
      rw [List.append_assoc] at h1
      exact ⟨h1, by rw [h2, hh], fun ha => step_of_bootFailed (by rw [h2, ha]) (by rw [h2, hs]) (by rw [h2]) (by rw [h2])⟩

end Sys2Proof.Machine
end

section
/-! PROOFS. INIT alone, and the outcome of the calibration under CP8 (R79). -/
namespace Sys2Proof.Machine

/-- INIT up to its settle wait (R161, R162). -/
def State.programmed (s : State) : State :=
  ((((s.withTState .calibrating).wregAll s.cfg.initSeq).wregAll s.cfg.calClearSeq).strobe s.cfg.cPll).wreg s.cfg.aCalctl [s.cfg.vCalctl]

theorem initStart_eq_pollSettle (c : Caller) (s : State) : s.initStart c = s.programmed.pollSettle c := rfl

/-- A look that finds the settle time not passed leaves the chip. -/
theorem settled_chip_of_not_passed {io : Io} (h : io.settled.1 = false) : io.settled.2.chip = io.chip := by
  have h' : io.env.drawSettle.1 = false := h
  simp [Io.settled, h']

/-- INIT's program keeps the premises and leaves a calibration begun (R79, R162). -/
theorem programmed_chip {s : State} (hc : CalApart s.cfg) (hl : seqsLegal s.cfg) (hu : s.io.chip.unknown = false) :
    s.programmed.io.chip.cal = .started ∧ s.programmed.io.chip.unknown = false := by
  have h1 := wregAll_unknown s.cfg.initSeq hl.1 (s.withTState .calibrating) hu
  have h2 := wregAll_unknown s.cfg.calClearSeq hl.2 _ h1
  have hcfg : (((s.withTState .calibrating).wregAll s.cfg.initSeq).wregAll s.cfg.calClearSeq).cfg = s.cfg := by
    simp [State.withTState]
  have h3 := strobe_pll_chip (by rw [hcfg]; exact hc.codes) h2
  rw [hcfg] at h3
  refine ⟨?_, wreg_unknown (by simp) h3.1⟩
  rw [State.programmed, wreg_io, strobe_cfg, hcfg]
  exact calctl_chip hc h3.2

/-- Looking at the settle time after it has passed draws the outcomes of a calibration begun (R79). -/
theorem settled_knowsCal {io : Io} {b1 b2 b3 : Bool} {r r' : List Bool} (hu : io.chip.unknown = false) (hcal : io.chip.cal = .started)
    (hin : io.env.settleIn = true :: r) (hch : io.env.choiceIn = b1 :: b2 :: b3 :: r') :
    KnowsCal io.settled.2.chip (some b1) (some b2) (some b3) := by
  have hs : io.settled.2 = { io with env := { io.env with settleIn := r } }.finishCal := by
    simp [Io.settled, drawSettle_cons hin, hcal]
  rw [hs, finishCal_cons (io := { io with env := { io.env with settleIn := r } }) (b1 := b1) (b2 := b2) (b3 := b3) (r := r') hch]
  exact ⟨hu, rfl, rfl, rfl⟩

/-- The three reads of INIT's verification, as bytes. -/
def verifyBytes (s : State) : Byte × Byte × Byte :=
  let r1 := s.rreg1 s.cfg.aCalIf
  let r2 := r1.2.rreg1 s.cfg.aCalVcoc
  (r1.1, r2.1, (r2.2.rreg1 s.cfg.aCalVcob).1)

/-- Under CP8 the masked bits of each byte read are clear if and only if its calibration succeeded. -/
theorem verifyBytes_tell {s : State} {b1 b2 b3 : Bool} (hc : CalApart s.cfg) (h8 : s.io.env.premises.cp8 = true)
    (hk : KnowsCal s.io.chip (some b1) (some b2) (some b3)) :
    ((verifyBytes s).1 &&& s.cfg.mCalIf = 0 ↔ b1 = true) ∧ ((verifyBytes s).2.1 &&& s.cfg.mCalVcoc = 0 ↔ b2 = true) ∧
      ((verifyBytes s).2.2 &&& s.cfg.mCalVcob = 0 ↔ b3 = true) := by
  have hf := hc.fifo; have hi := hc.ident; have hn := hc.status
  simp only [List.mem_cons, List.not_mem_nil, or_false, not_or, List.nodup_cons] at hf hi hn
  have hk1 := frame_knowsCal hk (Ne.symm hf.2.1) (Ne.symm hi.2.1)
  rw [if_neg hn.1.1, if_neg hn.1.2] at hk1
  have hk2 := frame_knowsCal hk1 (Ne.symm hf.2.2.1) (Ne.symm hi.2.2.1)
  rw [if_neg hn.2.1] at hk2
  refine ⟨?_, ?_, ?_⟩
  · exact frame_calRead hc.calIfNonzero h8 hk fun i h => readDrive_calIf hc h
  · exact frame_calRead hc.calVcocNonzero (by simpa using h8) hk1 fun i h => readDrive_calVcoc hc h
  · exact frame_calRead hc.calVcobNonzero (by simpa using h8) hk2 fun i h => readDrive_calVcob hc h

/-- INIT's verification logs what its bytes tell, and is Idle. -/
theorem initFinish_direct (s : State) : (s.initFinish .direct).tstate = .idle ∧
    (s.initFinish .direct).log = s.log ++ calWarnings s.cfg (verifyBytes s).1 (verifyBytes s).2.1 (verifyBytes s).2.2 := ⟨rfl, rfl⟩

/-- Settles O14: the look at the settle time decides, and what it draws of the calibration is what the three bytes tell. -/
theorem initCompletes : Obligations.InitCompletes := by
  refine ⟨fun r s hi hh hin => ?done, fun s hi hc hl hu => ?begun, fun b1 b2 b3 r r' s ha hh hc h8 hu hcal hin hch => ?outcome⟩
  case done =>
    obtain ⟨t, he, ⟨-, -, hno⟩ | ⟨u, s1, s2, s3, ht, hs, hu⟩⟩ := initOp_spec .direct hi
    · exact absurd hin (hno r)
    · exact ⟨t, s1, s2, s3, he, ht ▸ hs.of_io rfl, by rw [ht, hu, hh]; rfl⟩
  case begun =>
    refine ⟨s.programmed.pollSettle .direct, by rw [← initStart_eq_pollSettle]; exact if_pos hi, fun hhold => ?_⟩
    cases h : s.programmed.io.settled.1 with
    | false =>
      rw [(pollSettle_waits h).2.2, settled_chip_of_not_passed h]
      exact programmed_chip hc hl hu
    | true =>
      obtain ⟨u, s1, s2, s3, ht, -, hu⟩ := pollSettle_ends .direct h
      rw [ht, hu] at hhold
      cases hhold
  case outcome =>
    have hbytes := verifyBytes_tell (s := { s.settled.2 with hold := none }) hc (by simpa using h8) (settled_knowsCal hu hcal hin hch)
    have ht : s.resume (.settle .direct) = ({ s.settled.2 with hold := none }).initFinish .direct := if_pos (settled_cons hin)
    obtain ⟨htst, hlog⟩ := initFinish_direct { s.settled.2 with hold := none }
    exact ⟨_, _, _, _, (step_of_held ha hh).trans (congrArg _ ht), htst, hlog, hbytes⟩

end Sys2Proof.Machine
end

section
/-! PROOFS. A transmission under CP3, CP4 and CP7 (R74, R75, R78): what it sends, and when its wait ends. -/
namespace Sys2Proof.Machine

/-- A governed transmission with `n` turns to go ends after `n + 1` samples, and its packet is out. -/
theorem afterSteps_sending (n : Nat) : ∀ {c : Caller} {s : State}, s.agenda = [] → s.hold = some (.sending c) →
    s.io.governed = true → s.io.chip.mode = .tx → s.io.chip.op = .running n →
    ∃ t, afterSteps (n + 1) s = .next t ∧ t = ({ s with io := t.io, tstate := .idle, hold := none }).txDone c ∧
      t.io.history = s.io.history ∧ t.io.chip.sent = s.io.chip.sent ++ s.io.chip.sending.toList := by
  induction n with
  | zero =>
    intro c s ha hh hg hm ho
    obtain ⟨hb, hchip⟩ := sampleBusy_running s.cfg hg hm ho
    obtain ⟨ht, hio⟩ := pollTx_ends (c := c) hb
    refine ⟨s.pollTx c, by rw [afterSteps, step_of_held ha hh]; rfl, ht, ?_, ?_⟩
    · rw [hio, sampleBusy_history]
    · rw [hio, hchip]; rfl
  | succ m ih =>
    intro c s ha hh hg hm ho
    obtain ⟨hb, hchip, henv⟩ := sampleBusy_running s.cfg hg hm ho
    have ht : s.pollTx c = { s.sampleBusy.2 with hold := some (.sending c) } := if_pos hb
    have hio : (s.pollTx c).io = (s.io.sampleBusy s.cfg).2 := by rw [ht]; rfl
    have hg' : (s.pollTx c).io.governed = true := by
      rw [hio, Io.governed, hchip, henv]; exact hg
    obtain ⟨t, hsteps, htt, hhist, hsent⟩ := ih (c := c) (s := s.pollTx c) (by rw [ht]; exact ha) (by rw [ht]) hg'
      (by rw [hio, hchip]; exact hm) (by rw [hio, hchip])
    refine ⟨t, ?_, ?_, ?_, ?_⟩
    · rw [afterSteps, step_of_held ha hh]; exact hsteps
    · rw [ht] at htt; exact htt
    · rw [hhist, hio, sampleBusy_history]
    · rw [hsent, hio, hchip]

/-- The chip with a transmission of `p` begun that ends after `n` turns (R75). -/
def Chip.begun (p : SentPacket) (n : Nat) (k : Chip) : Chip :=
  match n with
  | 0 => { k with sending := some p }.finishSend
  | m + 1 => { k with sending := some p, op := .running m }

theorem beginSend_eq {c : Config} {io : Io} {p : SentPacket} {n : Nat} {r : List Nat} (hp : io.packet c = (p, io.env))
    (hn : io.env.countIn = n :: r) : io.beginSend c = { io with env.countIn := r, chip := io.chip.begun p n } := by
  simp only [Io.beginSend, hp, drawCount_cons hn]
  cases n <;> rfl

/-- BUSY while a governed transmission is under way, and when it is over. -/
theorem busyLevel_begun (c : Config) {p : SentPacket} {n : Nat} {k : Chip} {io : Io} (hg : io.governed = true) (hm : io.chip.mode = .tx)
    (hk : io.chip = k.begun p n) : io.busyLevel c = (decide (n ≠ 0), io) := by
  cases n with
  | zero =>
    have hop : io.chip.op = .over := by rw [hk]; rfl
    rw [Io.busyLevel, if_pos hg, hop]
    rfl
  | succ m =>
    have hop : io.chip.op = .running m := by rw [hk]; rfl
    rw [Io.busyLevel, if_pos hg, hop]
    exact if_pos hm

/-- The first sample after the strobe, under CP7: the transmission begins, with the turns drawn (R75, R78). -/
theorem sampleBusy_begins (c : Config) {io : Io} {p : SentPacket} {n : Nat} {r : List Nat} (hg : io.governed = true)
    (h7 : io.env.premises.cp7 = true) (hm : io.chip.mode = .tx) (ho : io.chip.op = .strobed) (hp : io.packet c = (p, io.env))
    (hn : io.env.countIn = n :: r) : (io.sampleBusy c).1 = decide (n ≠ 0) ∧ (io.sampleBusy c).2.chip = io.chip.begun p n := by
  have ha : io.advance c = { io with env.countIn := r, chip := io.chip.begun p n } := by
    rw [Io.advance, if_pos hg, ho]; dsimp only; rw [if_pos h7, Io.begin, if_pos hm, beginSend_eq hp hn]
  have ht := advance_turn c io
  have hb : (io.advance c).busyLevel c = (decide (n ≠ 0), io.advance c) :=
    busyLevel_begun c (by rw [ht.governed]; exact hg) (by rw [ht.mode]; exact hm) (by rw [ha])
  rw [Io.sampleBusy, hb]
  exact ⟨rfl, by rw [ha]; rfl⟩

/-- A frame to a chip that neither listens nor sends leaves what its effect leaves. -/
theorem frame_quiet_chip (c : Config) (out : List Byte) (n : Nat) {io : Io} (h : io.chip.listening = false ∧ io.sendingNow = false) :
    (io.frame c out n).2.chip = io.chip.afterFrame c out (io.frame c out n).1 := (frame_quiet c out n h.1 h.2).1

/-- Whether the chip listens or sends depends on its mode, its operation and the premises. -/
theorem quiet_of_same {io io' : Io} (h : io.chip.listening = false ∧ io.sendingNow = false) (hm : io'.chip.mode = io.chip.mode)
    (ho : io'.chip.op = io.chip.op) (hu : io'.chip.unknown = io.chip.unknown) (hp : io'.env.premises = io.env.premises) :
    io'.chip.listening = false ∧ io'.sendingNow = false := by
  rw [Chip.listening, Io.sendingNow, Io.governed, hm, ho, hu, hp]
  exact h

/-- TX's three frames, sent to a chip that neither listens nor sends: the FIFO holds the bytes from position 0 on, and the transmission is
strobed (R74, R75). -/
theorem txFrames_chip {l : List Byte} {s v : State} (h1 : 1 ≤ l.length) (h64 : l.length ≤ 64) (hc : s.cfg.codesLegal = true)
    (hq : s.io.chip.listening = false ∧ s.io.sendingNow = false)
    (hv : v = (((s.strobe s.cfg.cWrst).wreg s.cfg.aFifo l).withTState .transmitting).strobe s.cfg.cTx) :
    v.io.chip = { s.io.chip with
      wptr := some l.length, fifo := s.io.chip.fifo.writeList 0 l, mode := .tx, op := .strobed, sending := none, status := none } ∧
      v.io.env.countIn = s.io.env.countIn := by
  obtain ⟨-, -, htx, hwr, -⟩ := codes_bit3 hc
  have hne : l ≠ [] := List.ne_nil_of_length_pos h1
  have hreset : (s.strobe s.cfg.cWrst).io.chip = { s.io.chip with wptr := some 0 } := by
    rw [strobe_io, frame_quiet_chip _ _ _ hq, afterFrame_strobe _ hwr, chipStrobe_wrst hc]
  have hq1 := quiet_of_same hq (io' := (s.strobe s.cfg.cWrst).io) (by rw [hreset]) (by rw [hreset]) (by rw [hreset]) (by simp)
  have hfill : ((s.strobe s.cfg.cWrst).wreg s.cfg.aFifo l).io.chip = { s.io.chip with
      wptr := some l.length, fifo := s.io.chip.fifo.writeList 0 l } := by
    rw [wreg_io, frame_quiet_chip _ _ _ hq1, afterFrame_write _ _ hne, strobe_cfg, chipWrite_fifo, hreset]
    simp [Chip.fill, fifoSize, h64]
  have hq2 := quiet_of_same hq (io' := ((s.strobe s.cfg.cWrst).wreg s.cfg.aFifo l).io) (by rw [hfill]) (by rw [hfill]) (by rw [hfill])
    (by simp)
  subst hv
  constructor
  · rw [strobe_io]
    refine (frame_quiet_chip _ _ _ hq2).trans ?_
    rw [afterFrame_strobe _ htx]
    refine (chipStrobe_tx hc _).trans ?_
    dsimp only [State.withTState]
    rw [hfill]
  · calc _ = _ := (frame_quiet _ _ _ hq2.1 hq2.2).2.countIn
      _ = _ := (frame_quiet _ _ _ hq1.1 hq1.2).2.countIn
      _ = _ := (frame_quiet _ _ _ hq.1 hq.2).2.countIn

/-- The packet a chip with the padded payload in its FIFO sends (R75). -/
theorem packet_filled {c : Config} {io : Io} {x : Word} {ch : Byte} {l : List Byte} {m : Memory} (h1 : 1 ≤ l.length) (h64 : l.length ≤ 64)
    (h3 : io.env.premises.cp3 = true) (hlen : io.chip.regs.read c.aPktlen.toNat = some (lengthByte l.length))
    (hch : io.chip.regs.read c.aChannel.toNat = some ch) (hid : io.chip.ident = some x) (hf : io.chip.fifo = m.writeList 0 l) :
    io.packet c = (⟨x, ch, l⟩, io.env) := by
  refine packet_known hid hch hlen h3 ?_
  rw [lengthByte_toNat h1 h64, Nat.sub_add_cancel h1, hf]
  simpa using read_filled l m

/-- Settles O29: three frames fill the FIFO and strobe, the first sample begins the transmission, and each further one is a turn of it. -/
theorem transmittedPacketIsThePaddedPayload : Obligations.TransmittedPacketIsThePaddedPayload := by
  refine ⟨fun l len n r x ch s hi ha hl hlen h1 h64 hu hap h3 h4 h7 hlis hsend hrl hrc hid hn => ?tx,
    fun n c s ha hh hu h4 hm ho => ?wait⟩
  case wait =>
    obtain ⟨t, hsteps, ht, hhist, hsent⟩ := afterSteps_sending n ha hh (governed_tx hu h4 hm) hm ho
    exact ⟨t, hsteps, by rw [ht, txDone_hold], hhist, hsent⟩
  case tx =>
    have hpad := padTo_length hlen
    rw [← hpad] at h1 h64 hrl
    obtain ⟨v, hv⟩ : ∃ v, v = (((s.strobe s.cfg.cWrst).wreg s.cfg.aFifo (padTo len l)).withTState .transmitting).strobe s.cfg.cTx := ⟨_, rfl⟩
    have hvs : v = { s with io := v.io, tstate := .transmitting } := by rw [hv]; rfl
    have hexec : exec (.tx l) s = .next (v.pollTx .direct) := by
      rw [hv, ← txSend_eq]
      exact (txOp_of_idle .direct l hi hl).trans (congrArg _ (if_neg (Nat.not_lt.mpr hlen)))
    obtain ⟨hchip, hcount⟩ := txFrames_chip h1 h64 hap.codes ⟨hlis, hsend⟩ hv
    have hprem : v.io.env.premises = s.io.env.premises := by rw [hv]; simp [State.withTState]
    have hmode : v.io.chip.mode = .tx := by rw [hchip]
    have hgov := governed_tx (io := v.io) (by rw [hchip]; exact hu) (by rw [hprem]; exact h4) hmode
    have hpacket : v.io.packet s.cfg = (⟨x, ch, padTo len l⟩, v.io.env) :=
      packet_filled h1 h64 (by rw [hprem]; exact h3) (by rw [hchip]; exact hrl) (by rw [hchip]; exact hrc) (by rw [hchip]; exact hid)
        (by rw [hchip])
    obtain ⟨hb, hk⟩ := sampleBusy_begins s.cfg hgov (by rw [hprem]; exact h7) hmode (by rw [hchip]) hpacket (hcount.trans hn)
    have hcfg : v.cfg = s.cfg := by rw [hvs]
    rw [← hcfg] at hb hk
    cases n with
    | zero =>
      obtain ⟨ht, hio⟩ := pollTx_ends (c := .direct) hb
      refine ⟨_, _, hexec, rfl, by rw [ht]; rfl, by rw [ht]; rfl, by rw [ht]; rfl, ?_⟩
      rw [hio, hk, hchip]
      rfl
    | succ m =>
      have ht : v.pollTx .direct = { v.sampleBusy.2 with hold := some (.sending .direct) } := if_pos hb
      have hio : (v.pollTx .direct).io = (v.io.sampleBusy v.cfg).2 := by rw [ht]; rfl
      have hkm : (v.pollTx .direct).io.chip.mode = .tx := by rw [hio, hk]; exact hmode
      have hkg : (v.pollTx .direct).io.governed = true :=
        governed_tx (by rw [hio, hk, hchip]; exact hu) (by rw [hio, sampleBusy_premises, hprem]; exact h4) hkm
      obtain ⟨u, hsteps, hdone, -, hsent⟩ := afterSteps_sending m (c := .direct) (s := v.pollTx .direct) (by rw [ht, hvs]; exact ha)
        (by rw [ht]) hkg hkm (by rw [hio, hk]; rfl)
      refine ⟨_, u, hexec, hsteps, by rw [hdone]; rfl, by rw [hdone]; rfl, by rw [hdone]; rfl, ?_⟩
      rw [hsent, hio, hk, hchip]
      rfl

end Sys2Proof.Machine
end

section
/-! PROOFS. Listening under CP5: frames and samples while the chip listens, and the packet that ends it (R74, R76 to R78). -/
namespace Sys2Proof.Machine

/-- A chip that listens under CP5 (R76). -/
structure Listens (io : Io) : Prop where
  cp5 : io.env.premises.cp5 = true
  valid : io.chip.unknown = false
  mode : io.chip.mode = .rx

theorem Listens.governed {io : Io} (h : Listens io) : io.governed = true := by simp [Io.governed, h.valid, h.mode, h.cp5]

theorem Listens.turned {a b : Io} (h : Listens a) (ht : ChipTurn a b) : Listens b :=
  ⟨by rw [ht.premises]; exact h.cp5, by rw [ht.unknown]; exact h.valid, by rw [ht.mode]; exact h.mode⟩

/-- A listening goes on by a turn. -/
theorem advance_listening (c : Config) {io : Io} {n : Nat} (h : Listens io) (ho : io.chip.op = .running n) :
    ∃ m, io.advance c = { io with chip.op := .running m } := by
  rw [Io.advance, if_pos h.governed, ho]
  cases n with
  | zero => exact ⟨0, by dsimp only; rw [if_neg (by rw [h.mode]; nofun), ← ho]⟩
  | succ m => exact ⟨m, rfl⟩

/-- Under CP7 a listening strobed begins at the next turn (R78). -/
theorem advance_strobedRx (c : Config) {io : Io} (h : Listens io) (h7 : io.env.premises.cp7 = true) (ho : io.chip.op = .strobed) :
    io.advance c = { io with chip.op := .running 0 } := by
  rw [Io.advance, if_pos h.governed, ho]
  dsimp only
  rw [if_pos h7, Io.begin, if_neg (by rw [h.mode]; nofun)]

/-- A sample of a listening that goes on. -/
theorem busyLevel_listening (c : Config) {io : Io} {m : Nat} (h : Listens io) (ho : io.chip.op = .running m) :
    io.busyLevel c = io.listen c := by
  rw [Io.busyLevel, if_pos h.governed, ho]
  exact if_neg (by rw [h.mode]; nofun)

/-- With nothing on the air a listening goes on, and BUSY reads asserted. -/
theorem listen_of_empty (c : Config) {io : Io} (hair : io.env.airIn = []) : (io.listen c).1 = true ∧ (io.listen c).2.chip = io.chip := by
  have hfree : (io.freeLevel c).2.env.airIn = [] ∧ (io.freeLevel c).2.chip = io.chip := by
    refine ⟨?_, rfl⟩
    show io.env.drawBusy.2.airIn = []
    unfold Env.drawBusy
    split <;> exact hair
  rw [Io.listen]
  cases h : (io.freeLevel c).1 with
  | true => exact ⟨h, hfree.2⟩
  | false =>
    simp [Io.arrive, hfree, nextFor]

/-- A packet on the air that the chip hears arrives at the sample whose level supplied is deasserted. -/
theorem listen_of_heard (c : Config) {io : Io} {p : AirPacket} {rest : List AirPacket} {b : Bool} {r : List Bool}
    (hair : io.env.airIn = p :: rest) (hp : hears c io.chip p = some true) (hin : io.env.busyIn = b :: r) (hb : b ≠ c.busyLevel) :
    (io.listen c).1 = false ∧ (io.listen c).2.chip = io.chip.receive c p ∧ (io.listen c).2.env.airIn = rest := by
  have hfree := freeLevel_cons c hin
  rw [decide_eq_false hb] at hfree
  rw [Io.listen, hfree]
  simp [Io.arrive, hair, nextFor, hp]

/-- A frame to a chip that is not sending leaves what its effect makes of the chip after its turn. -/
theorem frame_chip_of_rx (c : Config) (out : List Byte) (n : Nat) {io : Io} (h : (io.turn c).chip.mode = .rx) :
    (io.frame c out n).2.chip = (io.turn c).chip.afterFrame c out (io.frame c out n).1 := by
  show (Io.perform c out _ ((io.turn c).recorded c out n)).chip = _
  have hs : ((io.turn c).recorded c out n).sendingNow = false := by
    rw [Io.sendingNow, recorded_chip, h]
    simp
  rw [Io.perform, hs]
  simp only [Bool.false_and, Bool.false_eq_true, if_false, recorded_chip]
  rfl

/-- The turn of a chip that listens before a frame: it goes on, or a packet arrives that it may hear (R76; entry 32). -/
theorem turn_listening (c : Config) {io : Io} {n : Nat} (h : Listens io) (ho : io.chip.op = .running n) :
    (∃ m, (io.turn c).chip = { io.chip with op := .running m }) ∨
      ∃ m, ∃ p ∈ io.env.airIn, hears c io.chip p ≠ some false ∧ (io.turn c).chip = { io.chip with op := .running m }.receive c p := by
  obtain ⟨m, ha⟩ := advance_listening c h ho
  have hl : Listens { io with chip.op := .running m } := ⟨h.cp5, h.valid, h.mode⟩
  have hlis : Chip.listening { io.chip with op := .running m } = true := by simp [Chip.listening, h.mode]
  rw [Io.turn, ha, Io.hear, if_pos hlis, if_pos hl.governed]
  dsimp only
  split_ifs
  · have hd : io.env.drawChoice.2.airIn = io.env.airIn := (drawChoice_only io.env).airIn
    obtain ⟨env, harr, -⟩ | ⟨env, p, harr, -, hp, hh⟩ :=
      arrive_cases c { io with env := io.env.drawChoice.2, chip := { io.chip with op := .running m } }
    · rw [harr]; exact .inl ⟨m, rfl⟩
    · rw [harr]; exact .inr ⟨m, p, hd ▸ hp, hh, rfl⟩
  · exact .inl ⟨m, rfl⟩

/-- The packets on the air are left by a frame to a chip that does not listen. -/
theorem frame_airIn_of_deaf (c : Config) (out : List Byte) (n : Nat) {io : Io} (hl : io.chip.listening = false) :
    (io.frame c out n).2.env.airIn = io.env.airIn :=
  ((turn_deaf c hl).env.trans ((recorded_env c out n (io.turn c)).turnOnly.trans (perform_only c out _ _).2)).airIn

theorem writeReg_op (a : Addr) (l : List Byte) (k : Chip) :
    (k.writeReg a l).op = k.op ∧ (k.writeReg a l).mode = k.mode ∧ (k.writeReg a l).unknown = k.unknown := by
  unfold Chip.writeReg
  split <;> exact ⟨rfl, rfl, rfl⟩

theorem fill_op (l : List Byte) (k : Chip) : (k.fill l).op = k.op ∧ (k.fill l).mode = k.mode ∧ (k.fill l).unknown = k.unknown := by
  unfold Chip.fill
  split <;> exact ⟨rfl, rfl, rfl⟩

/-- Which operation the chip is in, a write leaves alone, but that of the register that resets the chip (entry 35). -/
theorem chipWrite_op {c : Config} {a : Addr} (hr : resetReg c ≠ some a) (l : List Byte) (k : Chip) :
    (k.write c a l).op = k.op ∧ (k.write c a l).mode = k.mode ∧ (k.write c a l).unknown = k.unknown := by
  by_cases hf : a = c.aFifo
  · rw [hf, chipWrite_fifo]
    exact fill_op l k
  · obtain ⟨-, x, h⟩ | ⟨-, cal, x, y, z, h⟩ := chipWrite_cases hf hr l k
    · rw [h]; exact ⟨rfl, rfl, rfl⟩
    · rw [h]; exact writeReg_op a l k

/-- Where a frame's effect leaves the operation, a chip that listens goes on listening until a packet arrives that it may hear (R76). -/
theorem frame_listening {c : Config} {out : List Byte} {n k : Nat} {io : Io} (h : Listens io) (ho : io.chip.op = .running k)
    (heff : ∀ x : Chip, (x.afterFrame c out (io.frame c out n).1).op = x.op ∧ (x.afterFrame c out (io.frame c out n).1).mode = x.mode ∧
      (x.afterFrame c out (io.frame c out n).1).unknown = x.unknown) :
    (io.frame c out n).2.chip.mode = .rx ∧ (io.frame c out n).2.chip.unknown = false ∧
      ((∃ m, (io.frame c out n).2.chip.op = .running m) ∨
        (io.frame c out n).2.chip.op = .over ∧ ∃ p ∈ io.env.airIn, (∀ x, io.chip.ident = some x → p.identity = x) ∧
          ∀ ch, io.chip.regs.read c.aChannel.toNat = some ch → p.channel = ch) := by
  have hmode : (io.turn c).chip.mode = .rx := by rw [(turn_turned c io).mode]; exact h.mode
  obtain ⟨hop, hm, hu⟩ := heff (io.turn c).chip
  rw [frame_chip_of_rx c out n hmode, hop, hm, hu]
  refine ⟨hmode, by rw [(turn_turned c io).unknown]; exact h.valid, ?_⟩
  obtain ⟨m, ht⟩ | ⟨m, p, hp, hh, ht⟩ := turn_listening c h ho
  · exact .inl ⟨m, by rw [ht]⟩
  · exact .inr ⟨by rw [ht]; rfl, p, hp, hears_for hh⟩

/-- The strobe RX, sent to a chip that does not listen: it listens, set to what it was set to (R70, R76). -/
theorem strobeRx_listens {c : Config} {io : Io} (hc : c.codesLegal = true) (hu : io.chip.unknown = false)
    (h5 : io.env.premises.cp5 = true) : Listens (io.frame c [strobeByte c.cRx] 0).2 ∧
      (io.frame c [strobeByte c.cRx] 0).2.chip.op = .strobed ∧ (io.frame c [strobeByte c.cRx] 0).2.chip.regs = io.chip.regs ∧
      (io.frame c [strobeByte c.cRx] 0).2.chip.ident = io.chip.ident := by
  obtain ⟨k, hk, h⟩ := frame_chip c [strobeByte c.cRx] 0 io
  rw [afterFrame_strobe c (codes_bit3 hc).2.1, chipStrobe_rx hc] at h
  exact ⟨⟨by simpa using h5, by rw [h]; exact hk.unknown.trans hu, by rw [h]⟩, by rw [h], by rw [h]; exact hk.regs, by rw [h, hk.keeps]⟩

/-- The first sample after the strobe, under CP7: a packet on the air that the chip hears arrives, if the level supplied is deasserted. -/
theorem sampleBusy_receives (c : Config) {io : Io} {p : AirPacket} {rest : List AirPacket} {b : Bool} {r : List Bool} (h : Listens io)
    (h7 : io.env.premises.cp7 = true) (ho : io.chip.op = .strobed) (hair : io.env.airIn = p :: rest) (hp : hears c io.chip p = some true)
    (hin : io.env.busyIn = b :: r) (hb : b ≠ c.busyLevel) :
    (io.sampleBusy c).1 = false ∧ (io.sampleBusy c).2.chip = { io.chip with op := .running 0 }.receive c p ∧
      (io.sampleBusy c).2.env.airIn = rest := by
  have ha := advance_strobedRx c h h7 ho
  have hl : Listens { io with chip.op := .running 0 } := ⟨h.cp5, h.valid, h.mode⟩
  have hlevel := busyLevel_listening c hl rfl
  rw [Io.sampleBusy, ha, hlevel]
  exact listen_of_heard c (io := { io with chip.op := .running 0 }) hair hp hin hb

/-- A packet of the configured length, of 1 to 64 bytes, is in the FIFO from position 0 on (R76). -/
theorem receive_fifo {c : Config} {k : Chip} {p : AirPacket} (h1 : 1 ≤ p.payload.length) (h64 : p.payload.length ≤ 64)
    (hlen : k.regs.read c.aPktlen.toNat = some (lengthByte p.payload.length)) :
    (k.receive c p).fifo = k.fifo.writeList 0 p.payload := by
  have hfits : lengthByte p.payload.length = BitVec.ofNat 8 (p.payload.length - 1) := by
    apply BitVec.eq_of_toNat_eq
    rw [lengthByte_toNat h1 h64, BitVec.toNat_ofNat]
    omega
  exact if_pos ⟨by rw [hlen, hfits], h1, h64⟩

/-- After a packet has arrived: its status bits, and its bytes in the FIFO. -/
structure Received (k : Chip) (crc fec : Bool) (l : List Byte) : Prop where
  valid : k.unknown = false
  mode : k.mode = .rx
  ended : k.op = .over
  status : k.status = some (crc, fec)
  fifo : ∀ (j : Nat) (h : j < l.length), k.fifo.read j = some l[j]

theorem listening_of_over {k : Chip} (h : k.op = .over) : k.listening = false := by simp [Chip.listening, h]

/-- The status byte after a packet tells its errors, where CP6 is assumed (R77). -/
theorem frame_status {c : Config} {io : Io} {crc fec : Bool} {l : List Byte} (hap : ChipApart c) (h6 : io.env.premises.cp6 = true)
    (h : Received io.chip crc fec l) :
    ∃ m, (io.frame c [readByte c.aMode] 1).1 = [m] ∧
      rxError c m = if crc then some (.crc m) else if fec then some (.fec m) else none := by
  have hs : io.sendingNow = false := by simp [Io.sendingNow, h.mode]
  obtain ⟨x, -, -, -, hx, hbytes⟩ := frame_read_bytes c c.aMode 1 io
  obtain ⟨hchip, henv⟩ := hx (listening_of_over h.ended) hs
  have hdrive : (x.readDrive c c.aMode 1).1 = [fixStatus c.mFecf fec (fixStatus c.mCrcf crc x.env.drawByte.1)].map some := by
    rw [Io.readDrive, hchip, h.valid, h.status, henv, h6]
    simp [Ne.symm hap.fifoMode, hap.modeId, Io.drawStatus, henv]
  exact ⟨_, by rw [hbytes, hdrive, bytesIn_driven], rxError_status hap crc fec x.env.drawByte.1 rfl⟩

theorem Received.quiet {io : Io} {crc fec : Bool} {l : List Byte} (h : Received io.chip crc fec l) :
    io.chip.listening = false ∧ io.sendingNow = false := ⟨listening_of_over h.ended, by simp [Io.sendingNow, h.mode]⟩

/-- The drain of a packet received, after its status byte has been read (R74, R185). -/
theorem drain_received {s : State} {crc fec : Bool} {l : List Byte} {m : Byte} (hap : ChipApart s.cfg) (h3 : s.io.env.premises.cp3 = true)
    (h : Received s.io.chip crc fec l) (hm : (s.io.frame s.cfg [readByte s.cfg.aMode] 1).1 = [m]) :
    (((s.rreg1 s.cfg.aMode).2.strobe s.cfg.cRrst).rreg s.cfg.aFifo l.length).1 = l ∧
      (((s.rreg1 s.cfg.aMode).2.strobe s.cfg.cRrst).rreg s.cfg.aFifo l.length).2.io.env.airIn = s.io.env.airIn := by
  have hread : (s.rreg1 s.cfg.aMode).2.io.chip = s.io.chip.read s.cfg s.cfg.aMode [m] := by
    refine (frame_quiet_chip s.cfg [readByte s.cfg.aMode] 1 h.quiet).trans ?_
    rw [hm, afterFrame_read _ _ (by simp)]
  have hq := quiet_of_same h.quiet (io' := (s.rreg1 s.cfg.aMode).2.io) (by rw [hread, chipRead_mode]) (by rw [hread, chipRead_op])
    (by rw [hread, chipRead_unknown]) (by simp)
  have hreset : ((s.rreg1 s.cfg.aMode).2.strobe s.cfg.cRrst).io.chip = { s.io.chip.read s.cfg s.cfg.aMode [m] with rptr := some 0 } := by
    refine (frame_quiet_chip _ _ _ hq).trans ?_
    rw [hread]
    exact (afterFrame_strobe s.cfg (codes_bit3 hap.codes).2.2.2.2 _ _).trans (chipStrobe_rrst hap.codes _)
  have hdeaf : ((s.rreg1 s.cfg.aMode).2.strobe s.cfg.cRrst).io.chip.listening = false :=
    listening_of_over (by rw [hreset]; exact (chipRead_op ..).trans h.ended)
  constructor
  · refine frame_drain (p := 0) (turn_deaf s.cfg hdeaf) (by simpa using h3) ?_ (by rw [hreset]) fun j hj => ?_
    · rw [hreset]; exact (chipRead_unknown ..).trans h.valid
    · rw [hreset, Nat.zero_add]
      dsimp only
      rw [chipRead_fifo]
      exact h.fifo j hj
  · calc _ = _ := frame_airIn_of_deaf s.cfg _ l.length hdeaf
      _ = _ := frame_airIn_of_deaf s.cfg _ 0 hq.1
      _ = _ := frame_airIn_of_deaf s.cfg _ 1 h.quiet.1

/-- RX after its wait, of a packet received under CP3 and CP6: its bytes, or the error its status tells (R185, R77). -/
theorem rxFinish_received {s : State} {crc fec : Bool} {l : List Byte} (hap : ChipApart s.cfg) (h3 : s.io.env.premises.cp3 = true)
    (h6 : s.io.env.premises.cp6 = true) (h : Received s.io.chip crc fec l) :
    (s.rxFinish .direct l.length).io.env.airIn = s.io.env.airIn ∧
      ∃ m, (s.rxFinish .direct l.length).ret = if crc then .err (.crc m) else if fec then .err (.fec m) else .bytes l := by
  obtain ⟨m, hm, herr⟩ := frame_status hap h6 h
  have hbyte : (s.rreg1 s.cfg.aMode).1 = m := congrArg (fun q => q.getD 0 0) hm
  have hair : (s.rreg1 s.cfg.aMode).2.io.env.airIn = s.io.env.airIn := frame_airIn_of_deaf s.cfg _ 1 h.quiet.1
  rw [← hbyte] at herr
  cases crc with
  | true =>
    rw [rxFinish_of_error .direct l.length herr]
    exact ⟨hair, _, rfl⟩
  | false =>
    cases fec with
    | true =>
      rw [rxFinish_of_error .direct l.length herr]
      exact ⟨hair, _, rfl⟩
    | false =>
      obtain ⟨hq, hair⟩ := drain_received hap h3 h hm
      rw [rxFinish_of_good .direct l.length herr]
      exact ⟨hair, m, congrArg Ret.bytes hq⟩

/-- A packet that has arrived, of the configured length, as RX finds it. -/
theorem received_of_receive {c : Config} {k : Chip} {p : AirPacket} (hu : k.unknown = false) (hm : k.mode = .rx)
    (h1 : 1 ≤ p.payload.length) (h64 : p.payload.length ≤ 64)
    (hlen : k.regs.read c.aPktlen.toNat = some (lengthByte p.payload.length)) :
    Received (k.receive c p) p.crcBad p.fecBad p.payload := by
  refine ⟨hu, hm, rfl, rfl, fun j hj => ?_⟩
  rw [receive_fifo h1 h64 hlen]
  have := Memory.read_writeList_same p.payload k.fifo 0 j hj
  rwa [Nat.zero_add] at this

/-- Settles O28: the first sample of RX takes the packet, its status byte tells how it arrived, and the drain returns it. -/
theorem receivedPacketIsReturned : Obligations.ReceivedPacketIsReturned := by
  refine ⟨fun p rest b r s hi hl hu hap hlis h3 h5 h6 h7 h1 h64 hrl hrc hid hair hin hb => ?receive,
    fun i a l k n s h5 hu hm ho hil => ?goesOn, fun n s h5 hu hm ho hair => ?asserted⟩
  case receive =>
    obtain ⟨v, hv⟩ : ∃ v, v = (s.withTState .receiving).strobe s.cfg.cRx := ⟨_, rfl⟩
    have hio : v.io = (s.io.frame s.cfg [strobeByte s.cfg.cRx] 0).2 := by rw [hv]; rfl
    have hcfg : v.cfg = s.cfg := by rw [hv]; rfl
    obtain ⟨hlist, hop, hregs, hident⟩ := strobeRx_listens hap.codes hu h5
    rw [← hio] at hlist hop hregs hident
    have hprem : v.io.env.premises = s.io.env.premises := by rw [hio, frame_premises]
    have hheard : hears s.cfg v.io.chip p = some true := by
      rw [hears, hident, hregs, hid, hrc]
      simp
    obtain ⟨hsample, hchip, hrest⟩ := sampleBusy_receives s.cfg hlist (by rw [hprem]; exact h7) hop
      (by rw [hio, frame_airIn_of_deaf _ _ _ hlis]; exact hair) hheard (by rw [hio, frame_busyIn]; exact hin) hb
    have hexec : exec .rx s = .next (v.pollRx p.payload.length .direct) := by
      rw [hv, ← rxStart_eq]
      exact rxOp_of_idle .direct hi hl
    have hend : v.pollRx p.payload.length .direct =
        ({ v.sampleBusy.2 with hold := none, tstate := .idle }).rxFinish .direct p.payload.length :=
      if_neg (by rw [sampleBusy_asserted, hcfg, hsample]; simp)
    rw [← hcfg] at hchip hrest hap
    have hrec : Received (v.io.sampleBusy v.cfg).2.chip p.crcBad p.fecBad p.payload := by
      rw [hchip]
      exact received_of_receive hlist.valid hlist.mode h1 h64 (by rw [hcfg, hregs]; exact hrl)
    obtain ⟨hleft, m, hret⟩ := rxFinish_received (s := { v.sampleBusy.2 with hold := none, tstate := .idle }) hap
      (by simpa [hprem] using h3) (by simpa [hprem] using h6) hrec
    rw [← hend] at hleft hret
    refine ⟨_, hexec, hleft.trans hrest, fun hc hf => ?_, fun hc => ⟨m, ?_⟩, fun hc hf => ⟨m, ?_⟩⟩
    · rw [hret, hc, hf]; rfl
    · rw [hret, hc]; rfl
    · rw [hret, hc, hf]; rfl
  case goesOn =>
    have hlist : Listens s.io := ⟨h5, hu, hm⟩
    rcases hil with ⟨rfl, hl, hr⟩ | ⟨rfl, hk⟩
    · refine ⟨_, exec_write (.inl rfl) hl s, frame_listening (out := writeByte a :: l) (n := 0) hlist ho fun x => ?_⟩
      rw [afterFrame_write _ _ hl]
      exact chipWrite_op hr l x
    · have hq : (s.io.frame s.cfg [readByte a] k).1 ≠ [] := List.ne_nil_of_length_pos (by rw [frame_length]; exact hk)
      refine ⟨_, exec_read (.inl rfl) hk s, frame_listening (out := [readByte a]) (n := k) hlist ho fun x => ?_⟩
      rw [afterFrame_read _ _ hq]
      exact ⟨chipRead_op .., chipRead_mode .., chipRead_unknown ..⟩
  case asserted =>
    have hlist : Listens s.io := ⟨h5, hu, hm⟩
    obtain ⟨m, ha⟩ := advance_listening s.cfg hlist ho
    have hlevel := busyLevel_listening s.cfg (io := s.io.advance s.cfg) (hlist.turned (advance_turn s.cfg s.io)) (by rw [ha])
    obtain ⟨hb, hchip⟩ := listen_of_empty s.cfg (io := s.io.advance s.cfg) (by rw [ha]; exact hair)
    rw [← hlevel] at hb hchip
    refine ⟨hb, m, ?_⟩
    show ((s.io.advance s.cfg).busyLevel s.cfg).2.chip.op = _
    rw [hchip, ha]

end Sys2Proof.Machine
end
